-- ==== Sys2Proof/Word.lean ====
section
/-! DEFINITION. The bit widths the spec's words have (00_scope.md rule R7, R9; 10_state.md). -/

namespace Sys2Proof

/-- A byte: a symbol, a packed input or output byte, the accumulator (R7 `IOTA = 1`, R34). -/
abbrev Byte := BitVec 8

/-- A bus word, a register, a command word (R62, R90). -/
abbrev Word := BitVec 32

/-- A histogram entry (R39). -/
abbrev Weight := BitVec 64

/-- An element of the serialized tree (R42). -/
abbrev Elem := BitVec 16

end Sys2Proof
end

