-- ==== Sys2Proof/Config.lean ====
section
/-! DEFINITION. The implementation parameters of 00_scope.md rule R7, each a constant with the value shown
there, and the constant of the ID register (R24). HUFB leaves no value free, so there is no opaque constant:
the one open parameter of the spec, the sink's choice (92_eei_decisions.md D33), is plain data of the run
(assumption log 2). -/

namespace Sys2Proof.Config

/-- `SYM_COUNT`: symbol values 0..255. -/
abbrev symCount : Nat := 256

/-- `IOTA`: bytes per symbol. -/
abbrev iota : Nat := 1

/-- `NODE_SLOTS`: node indices 0..511, and as many histogram entries. -/
abbrev nodeSlots : Nat := 512

/-- `TBUF_LEN`: elements of the serialized-tree buffer. -/
abbrev tbufLen : Nat := 1024

/-- `WEIGHT_BITS`. -/
abbrev weightBits : Nat := 64

/-- `FIRST_INTERNAL`: the first index the builder gives an internal node. -/
abbrev firstInternal : Nat := 256

/-- `SENTINEL`: the element that says "no subtree here" (i16 -1). -/
abbrev sentinel : Elem := 0xFFFF#16

/-- `MAX_CODE_LEN`, in bits. -/
abbrev maxCodeLen : Nat := 255

/-- `OUTQ_DEPTH`, in bytes. -/
abbrev outqDepth : Nat := 32

/-- `REMAIN_BITS`: the decoder's symbol counter. -/
abbrev remainBits : Nat := 64

/-- The width of one bus access in bytes (R7 "MMIO data width", R62). -/
abbrev busBytes : Nat := 4

/-- The width of a byte address of the slave space (R7 "MMIO address width", R60). -/
abbrev addrBits : Nat := 16

/-- The ID register's constant (R24). -/
abbrev idValue : Word := 0x48554601#32

end Sys2Proof.Config

namespace Sys2Proof

/-- A byte address of the slave space (R60). -/
abbrev Addr := BitVec Config.addrBits

end Sys2Proof
end

