-- ==== Sys2Proof/Syntax.lean ====
section
/-! DEFINITION. The syntax: the 13 commands of spec/opcode_table.json (30_encoding.md rule R93), the host's
bus accesses (20_memory.md rule R62), and the lines of a host program with the pseudo-instructions
(30_encoding.md rules R95, R96). -/

namespace Sys2Proof

/-- The commands (R93). An operand has the width its format gives it (R90, R92), so a command that could not
be encoded cannot be written: BYTE is 8 bits; CNT is the 16 bits `w[23:8]`, read as a signed count. -/
inductive Instr where
  | nop
  | reset
  | histReset
  | histAdd (b : Byte)
  | treeReset
  | treeBuild
  | treeSerialize
  | treeLoad (c : BitVec 16)
  | tableGen
  | encSym (s : Byte)
  | encFlush
  | decStart
  | decByte (b : Byte)
  deriving DecidableEq, Repr

/-- The three command formats of R90: no operand, a byte, a 16-bit count. -/
inductive Format where
  | N
  | B
  | C
  deriving DecidableEq, Repr

/-- The mnemonics of R93. -/
inductive Mnemonic where
  | nop | reset | histReset | histAdd | treeReset | treeBuild | treeSerialize | treeLoad | tableGen
  | encSym | encFlush | decStart | decByte
  deriving DecidableEq, Repr

/-- The rows of R93 in the table's order. -/
def Mnemonic.all : List Mnemonic :=
  [.nop, .reset, .histReset, .histAdd, .treeReset, .treeBuild, .treeSerialize, .treeLoad, .tableGen,
   .encSym, .encFlush, .decStart, .decByte]

/-- The format column of R93. -/
def Mnemonic.format : Mnemonic → Format
  | .nop => .N
  | .reset => .N
  | .histReset => .N
  | .histAdd => .B
  | .treeReset => .N
  | .treeBuild => .N
  | .treeSerialize => .N
  | .treeLoad => .C
  | .tableGen => .N
  | .encSym => .B
  | .encFlush => .N
  | .decStart => .N
  | .decByte => .B

/-- One access of the host to HUFB's slave space: `bytes` wide at byte address `addr` (R62). An access that
is not 4 bytes wide can be attempted; it ends in a bus error (R63). -/
inductive BusOp where
  | read (addr : Addr) (bytes : Nat)
  | write (addr : Addr) (bytes : Nat) (value : Word)
  deriving DecidableEq, Repr

/-- A line of a host program as it is written (R95), and the pseudo-instructions of R96, with operands as the
numbers a programmer writes. `Line.wellFormed` refuses what the ranges of R95 refuse. -/
inductive Line where
  /-- `MNEMONIC`, `MNEMONIC b` or `MNEMONIC n`. -/
  | cmd (m : Mnemonic) (operand : Option Int)
  /-- `WR addr, value`. -/
  | wr (addr value : Nat)
  /-- `RD addr`, optionally with `-> expected`. -/
  | rd (addr : Nat) (expected : Option Nat)
  /-- `DEC_SETLEN n`. -/
  | decSetlen (n : Nat)
  /-- `TBUF_FILL k, v0, v1, ...`. -/
  | tbufFill (k : Nat) (vs : List Nat)
  /-- `LOAD_TREE v0, ..., v(n-1)`. -/
  | loadTree (vs : List Nat)
  /-- `HIST_ADDS "s"`. -/
  | histAdds (s : List Nat)
  /-- `ENC_SYMS "s"`. -/
  | encSyms (s : List Nat)
  /-- `DEC_BYTES b0, b1, ...`. -/
  | decBytes (bs : List Nat)
  /-- `ENCODE_CHUNK "s"`. -/
  | encodeChunk (s : List Nat)
  deriving DecidableEq, Repr

end Sys2Proof
end

