-- ==== Sys2Proof/WellFormed.lean ====
section
/-! DEFINITION. Well-formedness: the operand ranges of 30_encoding.md rules R92, R95, R96. The commands of
`Instr` carry their operands at the width of the format, so each range of R92 holds of every term
(`Laws/Encoding.lean` proves it); the lines of a host program carry plain numbers and are checked here. -/

namespace Sys2Proof

/-- R92: BYTE is 0..255, CNT is a signed 16-bit count. -/
def Instr.wellFormed : Instr → Bool
  | .nop => true
  | .reset => true
  | .histReset => true
  | .histAdd b => b.toNat < 256
  | .treeReset => true
  | .treeBuild => true
  | .treeSerialize => true
  | .treeLoad c => -32768 ≤ c.toInt && c.toInt ≤ 32767
  | .tableGen => true
  | .encSym s => s.toNat < 256
  | .encFlush => true
  | .decStart => true
  | .decByte b => b.toNat < 256

/-- R95: format N has no operand, format B an operand 0..255, format C an operand -32768..32767. -/
def Format.admits : Format → Option Int → Bool
  | .N, none => true
  | .B, some b => 0 ≤ b && b ≤ 255
  | .C, some n => -32768 ≤ n && n ≤ 32767
  | .N, some _ => false
  | .B, none => false
  | .C, none => false

/-- A string of symbols or input bytes: each 0..255 (R92). -/
def bytesOk (s : List Nat) : Bool := s.all (· < 256)

/-- The bus address R96 gives element `k` of TBUF (R61). -/
def elemAddr (k : Nat) : Nat := 0x3000 + 4 * k

/-- A bus address: 16 bits (R60). A misaligned or unmapped one can be written in a line; the access ends in a bus error
(R63, V-BUS-3). -/
def addrOk (a : Nat) : Bool := a < 2 ^ Config.addrBits

/-- What `WR addr, value` can say: a bus address and a 32-bit value (R62, R95). -/
def wrOk (addr value : Nat) : Bool := addrOk addr && value < 2 ^ 32

/-- `TBUF_FILL` from element `k` on stands for `WR` lines (R96), so it can say what they can: an element may be any
32-bit value, of which the write keeps bits [15:0] (R61), and one past the end of TBUF ends in a bus error (R63). -/
def elemsOk : Nat → List Nat → Bool
  | _, [] => true
  | k, v :: vs => wrOk (elemAddr k) v && elemsOk (k + 1) vs

/-- What R95 and R96 allow a line to say. -/
def Line.wellFormed : Line → Bool
  | .cmd m operand => m.format.admits operand
  | .wr a v => wrOk a v
  | .rd a expected => addrOk a && (expected.getD 0) < 2 ^ 32
  | .decSetlen n => n < 2 ^ 64
  | .tbufFill k vs => elemsOk k vs
  | .loadTree vs => elemsOk 0 vs
  | .histAdds s => bytesOk s
  | .encSyms s => bytesOk s
  | .decBytes bs => bytesOk bs
  | .encodeChunk s => bytesOk s

end Sys2Proof
end

