-- ==== Sys2Proof/Decode.lean ====
section
/-! DEFINITION. The command word (30_encoding.md): the decoder, total on every 32-bit word and refusing by name
(R90 to R94), the encoder written from the same table, and the assembler of host program lines (R95, R96). -/

namespace Sys2Proof

/-! ## The fields of a command word (R90) -/

/-- OPC, bits [7:0]. -/
def opcField (w : Word) : Byte := w.extractLsb' 0 8

/-- BYTE, bits [15:8] (R92). -/
def byteField (w : Word) : Byte := w.extractLsb' 8 8

/-- CNT, bits [23:8]; its reading as a number is `BitVec.toInt`, the sign extension of R92. -/
def cntField (w : Word) : BitVec 16 := w.extractLsb' 8 16

/-- The bits a format reserves, which must hold zeros: [31:8], [31:16] or [31:24] (R94). -/
def Format.reserved : Format → Word
  | .N => 0xFFFFFF00#32
  | .B => 0xFFFF0000#32
  | .C => 0xFF000000#32

/-! ## The opcode map (R93) -/

/-- The OPC column of R93. -/
def Mnemonic.opc : Mnemonic → Byte
  | .nop => 0x00#8
  | .reset => 0x01#8
  | .histReset => 0x10#8
  | .histAdd => 0x11#8
  | .treeReset => 0x20#8
  | .treeBuild => 0x21#8
  | .treeSerialize => 0x30#8
  | .treeLoad => 0x31#8
  | .tableGen => 0x40#8
  | .encSym => 0x50#8
  | .encFlush => 0x51#8
  | .decStart => 0x60#8
  | .decByte => 0x61#8

/-- The row of R93 with the given OPC, if there is one. -/
def Mnemonic.ofOpc (opc : Byte) : Option Mnemonic :=
  Mnemonic.all.find? fun m => m.opc == opc

/-- The command a row stands for, with its operand taken from the fields its format has (R92). -/
def Mnemonic.instr (m : Mnemonic) (byte : Byte) (cnt : BitVec 16) : Instr :=
  match m with
  | .nop => .nop
  | .reset => .reset
  | .histReset => .histReset
  | .histAdd => .histAdd byte
  | .treeReset => .treeReset
  | .treeBuild => .treeBuild
  | .treeSerialize => .treeSerialize
  | .treeLoad => .treeLoad cnt
  | .tableGen => .tableGen
  | .encSym => .encSym byte
  | .encFlush => .encFlush
  | .decStart => .decStart
  | .decByte => .decByte byte

/-! ## The decoder -/

/-- Why a word is illegal (R94); both name the OPC, which becomes the fault's VALUE. -/
inductive DecodeError where
  /-- The OPC is not in R93 (SUB 1). -/
  | unknownOpc (opc : Byte)
  /-- The OPC is known and a bit its format reserves is 1 (SUB 2). -/
  | reservedBits (opc : Byte)
  deriving DecidableEq, Repr

/-- R90: from any word to one of the 13 commands or to an illegal command (R94). -/
def decode (w : Word) : Except DecodeError Instr :=
  match Mnemonic.ofOpc (opcField w) with
  | none => .error (.unknownOpc (opcField w))
  | some m =>
    if w &&& m.format.reserved = 0#32 then .ok (m.instr (byteField w) (cntField w))
    else .error (.reservedBits (opcField w))

/-- The host's name for the decoder: `w` holds an instruction's bits as spec/opcode_table.json numbers them, bit 0
the least significant bit of the command word; bits from `nbits` up are 0. A command is one 32-bit word (R91). -/
def decodeTableWord (nbits w : Nat) : Option Instr :=
  if 32 < nbits then none
  else
    match decode (BitVec.ofNat 32 (w % 2 ^ nbits)) with
    | .ok i => some i
    | .error _ => none

/-! ## The encoder -/

/-- The row of R93 a command belongs to. -/
def Instr.mnemonic : Instr → Mnemonic
  | .nop => .nop
  | .reset => .reset
  | .histReset => .histReset
  | .histAdd _ => .histAdd
  | .treeReset => .treeReset
  | .treeBuild => .treeBuild
  | .treeSerialize => .treeSerialize
  | .treeLoad _ => .treeLoad
  | .tableGen => .tableGen
  | .encSym _ => .encSym
  | .encFlush => .encFlush
  | .decStart => .decStart
  | .decByte _ => .decByte

/-- Format N of R90: `0, 0, 0, OPC`. -/
def encodeN (opc : Byte) : Word := 0#24 ++ opc

/-- Format B of R90: `0, 0, BYTE, OPC`. -/
def encodeB (byte opc : Byte) : Word := 0#16 ++ byte ++ opc

/-- Format C of R90: `0, CNT[15:8], CNT[7:0], OPC`. -/
def encodeC (cnt : BitVec 16) (opc : Byte) : Word := 0#8 ++ cnt ++ opc

/-- The word of a command (R90, R93). -/
def encode : Instr → Word
  | .nop => encodeN 0x00#8
  | .reset => encodeN 0x01#8
  | .histReset => encodeN 0x10#8
  | .histAdd b => encodeB b 0x11#8
  | .treeReset => encodeN 0x20#8
  | .treeBuild => encodeN 0x21#8
  | .treeSerialize => encodeN 0x30#8
  | .treeLoad c => encodeC c 0x31#8
  | .tableGen => encodeN 0x40#8
  | .encSym s => encodeB s 0x50#8
  | .encFlush => encodeN 0x51#8
  | .decStart => encodeN 0x60#8
  | .decByte b => encodeB b 0x61#8

/-! ## Byte lanes (R65) -/

/-- Byte lane `b` of a bus word carries bits `[8b+7 : 8b]` (little-endian lanes). -/
def byteLane (w : Word) (b : Nat) : Byte := w.extractLsb' (8 * b) 8

/-- The word a bridge makes of its four byte lanes, lane 0 first. -/
def wordOfLanes (b0 b1 b2 b3 : Byte) : Word := b3 ++ b2 ++ b1 ++ b0

/-! ## Host program lines (R95, R96) -/

/-- The address of CMD (R25, R60). -/
def cmdAddr : Addr := 0x0004#16

/-- `WR addr, value`, one 4-byte write. -/
def busWr (addr value : Nat) : BusOp := .write (BitVec.ofNat Config.addrBits addr) 4 (BitVec.ofNat 32 value)

/-- `CMD x`: the command's word written to CMD. -/
def busCmd (i : Instr) : BusOp := .write cmdAddr 4 (encode i)

/-- The command of a mnemonic line with the number written as its operand (none stands for 0). -/
def lineInstr (m : Mnemonic) (operand : Option Int) : Instr :=
  m.instr (BitVec.ofInt 8 (operand.getD 0)) (BitVec.ofInt 16 (operand.getD 0))

/-- `TBUF_FILL k, vs` (R96): one write per element, from element `k` up (R61). -/
def tbufFillOps (k : Nat) : List Nat → List BusOp
  | [] => []
  | v :: vs => busWr (elemAddr k) v :: tbufFillOps (k + 1) vs

/-- `HIST_ADDS s` (R96). -/
def histAddsCmds (s : List Byte) : List Instr := s.map .histAdd

/-- `ENC_SYMS s` (R96). -/
def encSymsCmds (s : List Byte) : List Instr := s.map .encSym

/-- `DEC_BYTES bs` (R96). -/
def decBytesCmds (bs : List Byte) : List Instr := bs.map .decByte

/-- `ENCODE_CHUNK s` (R96), the per-chunk encoder sequence of 70_reset_and_hazards.md rule R232. -/
def encodeChunkCmds (s : List Byte) : List Instr :=
  .histReset :: histAddsCmds s ++ [.treeBuild, .treeSerialize, .tableGen] ++ encSymsCmds s ++ [.encFlush]

/-- The numbers of a well-formed string as bytes. -/
def bytesOf (s : List Nat) : List Byte := s.map (BitVec.ofNat 8)

/-- `DEC_SETLEN n` (R96): both halves of DEC_LEN, then DEC_START. -/
def decSetlenOps (n : Nat) : List BusOp :=
  [busWr 0x002C (n % 2 ^ 32), busWr 0x0030 (n / 2 ^ 32), busCmd .decStart]

/-- The bus accesses of a line (R95, R96); a line that is not well formed has none. -/
def Line.ops (l : Line) : Option (List BusOp) :=
  if l.wellFormed then
    some <| match l with
      | .cmd m operand => [busCmd (lineInstr m operand)]
      | .wr a v => [busWr a v]
      | .rd a _ => [.read (BitVec.ofNat Config.addrBits a) 4]
      | .decSetlen n => decSetlenOps n
      | .tbufFill k vs => tbufFillOps k vs
      | .loadTree vs => tbufFillOps 0 vs ++ [busCmd (.treeLoad (BitVec.ofNat 16 vs.length))]
      | .histAdds s => (histAddsCmds (bytesOf s)).map busCmd
      | .encSyms s => (encSymsCmds (bytesOf s)).map busCmd
      | .decBytes bs => (decBytesCmds (bytesOf bs)).map busCmd
      | .encodeChunk s => (encodeChunkCmds (bytesOf s)).map busCmd
  else none

end Sys2Proof
end

