-- ==== Sys2Proof/Machine/State.lean ====
section
/-! DEFINITION. The machine's state as plain data (10_state.md rules R20 to R50), the reasons a step can stop, and
the state right after reset (R50, R230). -/

namespace Sys2Proof.Machine

/-- An index of a node slot and of a histogram entry, 9 bits (R39, R40). -/
abbrev NodeIx := Fin Config.nodeSlots

/-- A symbol as an index of the symbol table (R43). -/
abbrev SymIx := Fin Config.symCount

/-- The code bits of one symbol: bit `k` is the `k`-th step from the root (R43). -/
abbrev CodeBits := BitVec Config.maxCodeLen

/-- One node slot (R40). -/
structure Node where
  valid : Bool
  left : Option NodeIx
  right : Option NodeIx
  parent : Option NodeIx
  deriving DecidableEq, Repr

/-- The slot that holds no node: VALID 0, LEFT, RIGHT and PARENT none (R40, R47 clause 6). -/
def Node.empty : Node := { valid := false, left := none, right := none, parent := none }

/-- The fault causes of R200; the codes 9..255 are reserved and never produced. -/
inductive Cause where
  | none
  | memoryAllocation
  | invalidArgument
  | readWrite
  | fatal
  | btreeOverflow
  | btreeCorrupted
  | weightOverflow
  | illegalCommand
  deriving DecidableEq, Repr

/-- HUFB's own state, every row of the table of R50 but the constant ID. -/
structure Hufb where
  /-- FAULT (R46). -/
  fault : Bool
  /-- CAUSE (R46, R200). -/
  cause : Cause
  /-- FCMD (R27). -/
  fcmd : Word
  /-- FINFO.SUB (R28). -/
  finfoSub : BitVec 4
  /-- FINFO.VALUE (R28). -/
  finfoValue : BitVec 16
  /-- LAST_CMD, hidden (R45). -/
  lastCmd : Word
  /-- CTRL.FIE (R29). -/
  fie : Bool
  /-- HIST (R39). -/
  hist : Vector Weight Config.nodeSlots
  /-- HSTART (R30). -/
  hstart : Option NodeIx
  /-- NODE (R40). -/
  node : Vector Node Config.nodeSlots
  /-- ROOT (R31). -/
  root : Option NodeIx
  /-- NEXT_ID (R32). -/
  nextId : BitVec 10
  /-- TBUF (R42). -/
  tbuf : Vector Elem Config.tbufLen
  /-- TCOUNT (R33). -/
  tcount : BitVec 11
  /-- LEN (R43). -/
  len : Vector Byte Config.symCount
  /-- CODE (R43). -/
  code : Vector CodeBits Config.symCount
  /-- TABLE_V (R43). -/
  tableV : Bool
  /-- ACC (R34). -/
  acc : Byte
  /-- POS (R34). -/
  pos : BitVec 4
  /-- DEC_LEN_LO (R35). -/
  decLenLo : Word
  /-- DEC_LEN_HI (R35). -/
  decLenHi : Word
  /-- REMAIN (R36). -/
  remain : BitVec Config.remainBits
  /-- DEC_POS (R37). -/
  decPos : Option NodeIx
  /-- OUTQ, the head first (R44). -/
  outq : List Byte
  deriving DecidableEq, Repr

/-- The values after reset (R50). -/
def Hufb.reset : Hufb where
  fault := false
  cause := .none
  fcmd := 0
  finfoSub := 0
  finfoValue := 0
  lastCmd := 0
  fie := false
  hist := Vector.replicate Config.nodeSlots 0
  hstart := none
  node := Vector.replicate Config.nodeSlots Node.empty
  root := none
  nextId := 256
  tbuf := Vector.replicate Config.tbufLen 0
  tcount := 0
  len := Vector.replicate Config.symCount 0
  code := Vector.replicate Config.symCount 0
  tableV := false
  acc := 0
  pos := 8
  decLenLo := 0
  decLenHi := 0
  remain := 0
  decPos := none
  outq := []

/-- The act of an agent at one step (R20): the host's next bus access, the sink with its choice (R71), the
reset input (R230). -/
inductive Turn where
  | host
  | sinkAccept
  | sinkError
  | reset
  deriving DecidableEq, Repr

/-- What a bus access answers the host: the word read, the completion of a write, a bus error (R62, R63). -/
inductive BusResponse where
  | data (v : Word)
  | done
  | error
  deriving DecidableEq, Repr

/-- The parameters and the observation of a run, which R21 says are not HUFB state. DESIGN CHOICE (assumption
log 2): the acts to come are plain data, so that one deterministic step covers every interleaving and every
choice of the sink. Safe: a statement about every state is about every such list. -/
structure Env where
  /-- Who acts at each coming step. -/
  turns : List Turn
  /-- The host program: the accesses the host has still to make. -/
  hostOps : List BusOp
  /-- The bytes the sink has accepted, the first one first (R242). -/
  accepted : List Byte
  /-- What the finished bus accesses answered, the first one first (R242). -/
  responses : List BusResponse
  deriving DecidableEq, Repr

/-- No act to come, nothing observed yet (DESIGN CHOICE, assumption log 13). -/
def Env.idle : Env := { turns := [], hostOps := [], accepted := [], responses := [] }

/-- The state of a step: the block, and the run it stands in. -/
structure State where
  hufb : Hufb
  env : Env
  deriving DecidableEq, Repr

/-- The machine right after reset (R50, R230): every state at its reset value, waiting for a CMD write. -/
def State.reset : State := { hufb := Hufb.reset, env := Env.idle }

/-- Why the step itself stops. A HUFB fault (R201) is not among them: it is a next state. Each reason is raised
only on a state that breaks an invariant of the spec, in which no run can be, and all are safe: the model stops
where the spec's pseudocode has no result. -/
inductive Fault where
  /-- TREE_SERIALIZE, TABLE_GEN or DEC_BYTE met node slots that are no tree of R47 (a cycle, a missing child, a
  leaf that is no symbol, a path longer than a code). Safe (assumption log 7). -/
  | treeIllFormed
  /-- DEC_BYTE found no decoder position although there is a tree, against R186. Safe (assumption log 8). -/
  | decoderPositionLost
  /-- TREE_BUILD did not end within 256 passes; R138 says it does, and `Laws/TreeBuilder.lean` proves that this
  is raised in no state. Safe (assumption log 9). -/
  | buildUnfinished
  deriving DecidableEq, Repr

/-- Why the step has no meaning for an instruction. -/
inductive Refusal where
  /-- An arm of `exec` without a meaning yet; no arm is one. Safe. -/
  | notModelled (mnemonic : String)
  deriving DecidableEq, Repr

end Sys2Proof.Machine
end

