-- ==== Sys2Proof/Machine/Ops.lean ====
section
/-! DEFINITION. The named operations the command rules are written with: array access, the ways a command can end
and fault entry (60_exceptions.md rules R200 to R204), reset, emit, the node record, `tree_clear`. -/

namespace Sys2Proof.Machine

/-- What a step or a meaning answers. -/
abbrev Result := Host.Outcome State Fault Refusal

/-! ## Arrays -/

/-- Entry `i` of an array. -/
def peek {α : Type} {n : Nat} (v : Vector α n) (i : Fin n) : α := v[i.val]

/-- The array with entry `i` replaced. -/
def poke {α : Type} {n : Nat} (v : Vector α n) (i : Fin n) (a : α) : Vector α n := v.set i.val a

/-- The array of the values of a function. -/
def tabulate {α : Type} {n : Nat} (f : Fin n → α) : Vector α n :=
  ⟨⟨(List.finRange n).map f⟩, by simp⟩

/-- The entries of an array with their indices, in ascending order. -/
def entries {α : Type} {n : Nat} (v : Vector α n) : List (Fin n × α) := (List.finRange n).zip v.toList

/-! ## Faults -/

/-- The CAUSE code of a cause (R200). -/
def Cause.code : Cause → Byte
  | .none => 0
  | .memoryAllocation => 1
  | .invalidArgument => 2
  | .readWrite => 3
  | .fatal => 4
  | .btreeOverflow => 5
  | .btreeCorrupted => 6
  | .weightOverflow => 7
  | .illegalCommand => 8

/-- `raise CAUSE(sub, value)` (R10, R200). -/
structure Raise where
  cause : Cause
  sub : BitVec 4
  value : BitVec 16
  deriving DecidableEq, Repr

/-- Fault entry (R201), the one operation every fault goes through. FCMD takes LAST_CMD: for a READ_WRITE by the
rule's own words, and for a command fault because R64 (3) has just written the command's word there (DEDUCED,
safe, assumption log 10). -/
def faultEntry (r : Raise) (h : Hufb) : Hufb :=
  { h with fault := true, cause := r.cause, fcmd := h.lastCmd, finfoSub := r.sub, finfoValue := r.value }

/-- How a command's pseudocode ends: it completes with a new block, or reaches a `raise`, or has no result in this
state (see `Fault`). -/
inductive Effect where
  | done (h : Hufb)
  | raise (r : Raise)
  | stuck (f : Fault)
  deriving DecidableEq, Repr

/-- The end of a command: its result is committed as a whole, or none of it and the fault is entered (R11, R202). -/
def Effect.conclude (s : State) : Effect → Result
  | .done h => .next { s with hufb := h }
  | .raise r => .next { s with hufb := faultEntry r s.hufb }
  | .stuck f => .fault f

/-- Reset, the only return from a fault (R206, R230): every state of the block to its value of R50. What the sink has
accepted and the host's accesses to come are not HUFB state and stay (R21, R230; assumption log 11). -/
def resetBlock (s : State) : State := { s with hufb := Hufb.reset }

/-! ## Output -/

/-- `emit(b)` (R70). -/
def emit (b : Byte) (h : Hufb) : Hufb := { h with outq := h.outq ++ [b] }

/-! ## The tree -/

/-- The fields of a slot that holds a leaf under the given parent. -/
def Node.leaf (parent : Option NodeIx) : Node :=
  { valid := true, left := none, right := none, parent := parent }

/-- `LEAF(s)`, a view (R41). -/
def leafPresent (h : Hufb) (s : NodeIx) : Bool := (peek h.node s).valid

/-- `tree_clear()` (R135). -/
def treeClear (h : Hufb) : Hufb :=
  { h with
    node := Vector.replicate Config.nodeSlots Node.empty
    root := none
    nextId := 256
    len := Vector.replicate Config.symCount 0
    code := Vector.replicate Config.symCount 0
    tableV := false }

end Sys2Proof.Machine
end

