-- ==== Sys2Proof/Machine/Operands.lean ====
section
/-! DEFINITION. The operand forms (30_encoding.md rules R90, R92) as the command rules read them. -/

namespace Sys2Proof.Machine

/-- BYTE as a symbol: an index of the histogram and of the node store (R126). -/
def symNode (b : Byte) : NodeIx := ⟨b.toNat, by have := b.isLt; simp only [Config.nodeSlots]; omega⟩

/-- BYTE as a symbol: an index of the symbol table (R181). -/
def symIx (b : Byte) : SymIx := ⟨b.toNat, b.isLt⟩

/-- The node slot of a symbol of the table (R41, R170). -/
def SymIx.node (s : SymIx) : NodeIx := ⟨s.val, by have := s.isLt; simp only [Config.nodeSlots, Config.symCount] at *; omega⟩

/-- BYTE as a fault's VALUE (R200). -/
def byteValue (b : Byte) : BitVec 16 := b.setWidth 16

/-- BYTE as a packed input byte: its bits, the most significant first (R65, R185). -/
def bitsMsbFirst (b : Byte) : List Bool :=
  [b.getLsbD 7, b.getLsbD 6, b.getLsbD 5, b.getLsbD 4, b.getLsbD 3, b.getLsbD 2, b.getLsbD 1, b.getLsbD 0]

/-- CNT as a count: `sext_16(w[23:8])` (R92). -/
def count (c : BitVec 16) : Int := c.toInt

/-- The range check of R152, `1 <= c <= 1024`. -/
def countInRange (c : BitVec 16) : Bool := 1 ≤ count c && count c ≤ Config.tbufLen

/-- A node index as a serialized element, `zext_16(i)` (R150). -/
def indexElem (i : NodeIx) : Elem := BitVec.ofNat 16 i.val

/-- A serialized element as a node index; `none` when it is above 511 (R152, the unsigned comparison). -/
def elemIndex (v : Elem) : Option NodeIx :=
  if h : v.toNat < Config.nodeSlots then some ⟨v.toNat, h⟩ else none

/-- A leaf's index as the byte the decoder emits; `none` for an index that is no symbol (R185, R47 clause 4). -/
def indexByte (i : NodeIx) : Option Byte :=
  if i.val < Config.symCount then some (BitVec.ofNat 8 i.val) else none

end Sys2Proof.Machine
end

