-- ==== Sys2Proof/Machine/BitCodec.lean ====
section
/-! DEFINITION. The bit-stream encoder and decoder (45_bit_codec.md). -/

namespace Sys2Proof.Machine

/-! ## Encoder -/

/-- `put_bit(x)` (R180): POS is decremented before the OR, so the first bit of a byte goes to bit 7 (C10). -/
def putBit (h : Hufb) (x : Bool) : Hufb :=
  let pos := h.pos - 1
  let acc := h.acc ||| ((if x then 1#8 else 0#8) <<< pos.toNat)
  if pos = 0 then { emit acc h with acc := 0, pos := 8 } else { h with acc := acc, pos := pos }

/-- `put_bit` for each bit of a list, in order. -/
def putBits (xs : List Bool) (h : Hufb) : Hufb := xs.foldl putBit h

/-- The bits of `CODE[s]`, root step first: bit `k` for `0 <= k < LEN[s]` (R43, R181). -/
def codeBits (h : Hufb) (s : SymIx) : List Bool :=
  (List.range (peek h.len s).toNat).map fun k => (peek h.code s).getLsbD k

/-- R181. -/
def encSym (s : Byte) (h : Hufb) : Effect :=
  if !h.tableV then .raise ⟨.invalidArgument, 1, byteValue s⟩
  else if peek h.len (symIx s) = 0 then .raise ⟨.invalidArgument, 2, byteValue s⟩
  else .done (putBits (codeBits h (symIx s)) h)

/-- R182: a partly filled accumulator is emitted, its unfilled low bits 0. -/
def encFlush (h : Hufb) : Hufb :=
  if h.pos.toNat < 8 then { emit h.acc h with acc := 0, pos := 8 } else h

/-! ## Decoder -/

/-- R184. -/
def decStart (h : Hufb) : Hufb :=
  { h with remain := h.decLenHi ++ h.decLenLo, decPos := h.root }

/-- `emit(i); REMAIN <- REMAIN - 1` for a leaf's index. -/
def emitSymbol (i : NodeIx) (h : Hufb) : Except Fault Hufb :=
  match indexByte i with
  | none => .error .treeIllFormed
  | some b => .ok { emit b h with remain := h.remain - 1 }

/-- The body of R185's loop for one bit, with `r` the index of ROOT. -/
def decBit (r : NodeIx) (x : Bool) (h : Hufb) : Except Fault Hufb :=
  if (peek h.node r).left = none then emitSymbol r h
  else
    match h.decPos with
    | none => .error .decoderPositionLost
    | some d =>
      match (if x then (peek h.node d).right else (peek h.node d).left) with
      | none => .error .treeIllFormed
      | some e =>
        if (peek h.node e).left = none then
          match emitSymbol e h with
          | .error f => .error f
          | .ok h' => .ok { h' with decPos := some r }
        else .ok { h with decPos := some e }

/-- R185's loop over the bits of a byte; it is left as soon as REMAIN is 0. -/
def decBits (r : NodeIx) : List Bool → Hufb → Except Fault Hufb
  | [], h => .ok h
  | x :: xs, h =>
    if h.remain = 0 then .ok h
    else
      match decBit r x h with
      | .error f => .error f
      | .ok h' => decBits r xs h'

/-- R185. -/
def decByte (b : Byte) (h : Hufb) : Effect :=
  if h.remain = 0 then .done h
  else
    match h.root with
    | none => .raise ⟨.invalidArgument, 3, byteValue b⟩
    | some r =>
      match decBits r (bitsMsbFirst b) h with
      | .error f => .stuck f
      | .ok h' => .done h'

/-- ENC_SYM s (R181). -/
def execEncSym (b : Byte) (s : State) : Result := Effect.conclude s (encSym b s.hufb)

/-- ENC_FLUSH (R182). -/
def execEncFlush (s : State) : Result := Effect.conclude s (.done (encFlush s.hufb))

/-- DEC_START (R184). -/
def execDecStart (s : State) : Result := Effect.conclude s (.done (decStart s.hufb))

/-- DEC_BYTE b (R185). -/
def execDecByte (b : Byte) (s : State) : Result := Effect.conclude s (decByte b s.hufb)

end Sys2Proof.Machine
end

