-- ==== Sys2Proof/Machine/Control.lean ====
section
/-! DEFINITION. The control commands (40_control.md). -/

namespace Sys2Proof.Machine

/-- NOP (R120): nothing. -/
def execNop (s : State) : Result := Effect.conclude s (.done s.hufb)

/-- RESET (R121): every state to its reset value, LAST_CMD included. -/
def execReset (s : State) : Result := .next (resetBlock s)

end Sys2Proof.Machine
end

