-- ==== Sys2Proof/Machine/Histogram.lean ====
section
/-! DEFINITION. The histogram commands (41_histogram.md). -/

namespace Sys2Proof.Machine

/-- R125: every entry 0, HSTART none. -/
def histReset (h : Hufb) : Hufb :=
  { h with hist := Vector.replicate Config.nodeSlots 0, hstart := none }

/-- The greatest weight, 2^64 - 1. -/
def maxWeight : Weight := BitVec.allOnes Config.weightBits

/-- R126: the new HSTART, the least symbol observed. -/
def lowerStart (hstart : Option NodeIx) (b : NodeIx) : NodeIx :=
  match hstart with
  | none => b
  | some h => min h b

/-- R126. -/
def histAdd (b : Byte) (h : Hufb) : Effect :=
  if peek h.hist (symNode b) = maxWeight then .raise ⟨.weightOverflow, 1, byteValue b⟩
  else
    .done
      { h with
        hist := poke h.hist (symNode b) (peek h.hist (symNode b) + 1)
        hstart := some (lowerStart h.hstart (symNode b)) }

/-- HIST_RESET (R125). -/
def execHistReset (s : State) : Result := Effect.conclude s (.done (histReset s.hufb))

/-- HIST_ADD b (R126). -/
def execHistAdd (b : Byte) (s : State) : Result := Effect.conclude s (histAdd b s.hufb)

end Sys2Proof.Machine
end

