-- ==== Sys2Proof/Machine/SymbolTable.lean ====
section
/-! DEFINITION. The symbol-table generator (44_symbol_table.md). -/

namespace Sys2Proof.Machine

/-- The step that leads from `p` down to `n`: 1 when `n` is the right child (R170). -/
def stepBit (node : Vector Node Config.nodeSlots) (p n : NodeIx) : Bool := (peek node p).right == some n

/-- The loop of R170: the bits from node `n` up to the root, in leaf-to-root order. The first argument is how many
steps a code has room for; `none` is answered only where the slots are no tree of R47 (R171). -/
def pathUp (node : Vector Node Config.nodeSlots) : Nat → NodeIx → Option (List Bool)
  | room, n =>
    match (peek node n).parent, room with
    | none, _ => some []
    | some _, 0 => none
    | some p, room + 1 => (pathUp node room p).map (stepBit node p n :: ·)

/-- Code bits from a path in root-to-leaf order: bit `k` is step `k`, the bits above the path are 0 (R43). -/
def codeOfPath : List Bool → CodeBits
  | [] => 0
  | x :: xs => (codeOfPath xs <<< 1) ||| (if x then 1 else 0)

/-- One entry of the symbol table. -/
structure TableEntry where
  len : Byte
  code : CodeBits
  deriving DecidableEq, Repr

/-- The entry of a path in root-to-leaf order. -/
def entryOfPath (path : List Bool) : TableEntry :=
  { len := BitVec.ofNat 8 path.length, code := codeOfPath path }

/-- The body of R170 for one symbol: no code for an absent one, the one bit 0 for a single leaf as root, the
reversed path to the root otherwise. -/
def tableEntry (h : Hufb) (s : SymIx) (slot : Node) : Option TableEntry :=
  if !slot.valid then some (entryOfPath [])
  else if h.root = some s.node then some (entryOfPath [false])
  else (pathUp h.node Config.maxCodeLen s.node).map fun path => entryOfPath path.reverse

/-- The slots of the 256 symbols, in order. -/
def symbolSlots (h : Hufb) : List (SymIx × Node) :=
  (List.finRange Config.symCount).zip (h.node.toList.take Config.symCount)

/-- R170 for all 256 symbols. -/
def tableEntries (h : Hufb) : Option (List TableEntry) := (symbolSlots h).mapM fun c => tableEntry h c.1 c.2

/-- R170. -/
def tableGen (h : Hufb) : Effect :=
  match tableEntries h with
  | none => .stuck .treeIllFormed
  | some es =>
    .done
      { h with
        len := tabulate fun s => ((es[s.val]?).getD (entryOfPath [])).len
        code := tabulate fun s => ((es[s.val]?).getD (entryOfPath [])).code
        tableV := true }

/-- TABLE_GEN (R170). -/
def execTableGen (s : State) : Result := Effect.conclude s (tableGen s.hufb)

end Sys2Proof.Machine
end

