-- ==== Sys2Proof/Machine/TreeBuilder.lean ====
section
/-! DEFINITION. The tree builder commands (42_tree_builder.md). -/

namespace Sys2Proof.Machine

/-- A candidate of the builder: an index with its weight. -/
abbrev Candidate := NodeIx × Weight

/-- The set `C` of R136 in ascending order of index: `h <= i < NEXT_ID` and `HIST[i] ≠ 0`, empty when HSTART is
none. -/
def candidates (h : Hufb) : List Candidate :=
  match h.hstart with
  | none => []
  | some st => (entries h.hist).filter fun c => st.val ≤ c.1.val && c.1.val < h.nextId.toNat && c.2.toNat != 0

/-- The order of R137 on `(HIST[i], i)`: the lower weight first, the lower index among equal weights. -/
def lighter (a b : Candidate) : Bool :=
  a.2.toNat < b.2.toNat || (a.2.toNat == b.2.toNat && a.1.val < b.1.val)

/-- `argmin` of R137: the least candidate in that order. -/
def argmin : List Candidate → Option Candidate
  | [] => none
  | c :: cs =>
    match argmin cs with
    | none => some c
    | some m => if lighter m c then some m else some c

/-- `C \ {a}`. -/
def without (a : Candidate) (cs : List Candidate) : List Candidate := cs.filter fun c => c.1 != a.1

/-- "record leaf": a selected symbol that has no node yet gets one (R136). -/
def recordLeaf (x : NodeIx) (node : Vector Node Config.nodeSlots) : Vector Node Config.nodeSlots :=
  if x.val < Config.firstInternal && !(peek node x).valid then poke node x (Node.leaf none) else node

/-- `NODE[x].PARENT <- some(n)`. -/
def setParent (x n : NodeIx) (node : Vector Node Config.nodeSlots) : Vector Node Config.nodeSlots :=
  poke node x { peek node x with parent := some n }

/-- The slot a merge fills: an internal node over `a` and `b` (R136, R137: the first selected is the left child). -/
def Node.internal (a b : NodeIx) (parent : Option NodeIx) : Node :=
  { valid := true, left := some a, right := some b, parent := parent }

/-- NEXT_ID as the index of the node to allocate. -/
def nextNode (h : Hufb) : NodeIx := Fin.ofNat Config.nodeSlots h.nextId.toNat

/-- One merge of R136: the two selected entries become the children of a new internal node. -/
def merge (a b : Candidate) (h : Hufb) : Hufb :=
  let n := nextNode h
  { h with
    node := setParent b.1 n (setParent a.1 n
      (poke (recordLeaf b.1 (recordLeaf a.1 h.node)) n (Node.internal a.1 b.1 none)))
    hist := poke (poke (poke h.hist n (a.2 + b.2)) a.1 0) b.1 0
    nextId := h.nextId + 1 }

/-- The build ends with the root found; DEC_POS follows it (R136). -/
def finishBuild (root : Option NodeIx) (h : Hufb) : Hufb := { h with root := root, decPos := root }

/-- The single remaining entry becomes the root, and is recorded when it is a symbol (R136). -/
def soleRoot (r : NodeIx) (h : Hufb) : Hufb :=
  finishBuild (some r)
    { h with node := if r.val < Config.firstInternal then poke h.node r (Node.leaf none) else h.node }

/-- The loop of R136. Its three cases are `|C| = 0` (no least candidate), `|C| = 1` (none left beside it) and
`|C| >= 2`. The first argument bounds the passes; R138 says at most 256 happen. -/
def buildLoop : Nat → Hufb → Effect
  | 0, _ => .stuck .buildUnfinished
  | fuel + 1, h =>
    match argmin (candidates h) with
    | none => .done (finishBuild none h)
    | some a =>
      match argmin (without a (candidates h)) with
      | none => .done (soleRoot a.1 h)
      | some b =>
        if 2 ^ Config.weightBits ≤ a.2.toNat + b.2.toNat then
          .raise ⟨.weightOverflow, 2, BitVec.ofNat 16 (nextNode h).val⟩
        else buildLoop fuel (merge a b h)

/-- R136. -/
def treeBuild (h : Hufb) : Effect := buildLoop Config.symCount (treeClear h)

/-- R135. -/
def treeReset (h : Hufb) : Hufb := { treeClear h with decPos := none }

/-- TREE_RESET (R135). -/
def execTreeReset (s : State) : Result := Effect.conclude s (.done (treeReset s.hufb))

/-- TREE_BUILD (R136). -/
def execTreeBuild (s : State) : Result := Effect.conclude s (treeBuild s.hufb)

end Sys2Proof.Machine
end

