-- ==== Sys2Proof/Machine/TreeCodec.lean ====
section
/-! DEFINITION. The tree codec commands (43_tree_codec.md). -/

namespace Sys2Proof.Machine

/-! ## TREE_SERIALIZE (R150) -/

/-- `ser(x)` of R150: the elements it emits, in order. The first argument bounds the depth; a tree of R47 is never
deeper than its 512 slots, so `none` is answered only where the slots are no tree. -/
def serialize (node : Vector Node Config.nodeSlots) : Nat → Option NodeIx → Option (List Elem)
  | _, none => some [Config.sentinel]
  | 0, some _ => none
  | depth + 1, some i =>
    match serialize node depth (peek node i).left, serialize node depth (peek node i).right with
    | some l, some r => some (indexElem i :: (l ++ r))
    | _, _ => none

/-- `TBUF` with the given elements written from element 0 up and the rest unchanged. -/
def storeElems (es : List Elem) (tbuf : Vector Elem Config.tbufLen) : Vector Elem Config.tbufLen :=
  tabulate fun k => (es[k.val]?).getD (peek tbuf k)

/-- R150. The elements always fit (R151) where the slots are a tree of R47. -/
def treeSerialize (h : Hufb) : Effect :=
  match serialize h.node Config.nodeSlots h.root with
  | none => .stuck .treeIllFormed
  | some es =>
    if es.length ≤ Config.tbufLen then
      .done { h with tbuf := storeElems es h.tbuf, tcount := BitVec.ofNat 11 es.length }
    else .stuck .treeIllFormed

/-! ## TREE_LOAD (R152) -/

/-- What the load carries along its walk: the read position `p` and the node store being built. -/
structure Walk where
  pos : Nat
  node : Vector Node Config.nodeSlots
  deriving DecidableEq, Repr

/-- `raise BTREE_CORRUPTED(sub, value)`. -/
def corrupted (sub : BitVec 4) (pos : Nat) : Raise := ⟨.btreeCorrupted, sub, BitVec.ofNat 16 pos⟩

/-- `TBUF[p]`; the walk reads below the count only, which is at most 1024. -/
def elemAt (tbuf : Vector Elem Config.tbufLen) (p : Nat) : Elem := peek tbuf (Fin.ofNat Config.tbufLen p)

/-- The checks of R152 on a node once its two subtrees are known, sub-reasons 4, 5 and 6 in that order, at the
position of the node's own element. -/
def shapeCheck (v : NodeIx) (q : Nat) (l r : Option NodeIx) : Option Raise :=
  if l.isNone != r.isNone then some (corrupted 4 q)
  else if l.isNone && decide (Config.firstInternal ≤ v.val) then some (corrupted 5 q)
  else if l.isSome && decide (v.val < Config.firstInternal) then some (corrupted 6 q)
  else none

/-- The slot of node `v` with its children filled in. -/
def setChildren (v : NodeIx) (l r : Option NodeIx) (node : Vector Node Config.nodeSlots) :
    Vector Node Config.nodeSlots :=
  poke node v { peek node v with left := l, right := r }

/-- `des(parent)` of R152 over `c` elements. The second argument bounds the depth: every level reads an element, so a
walk that starts with bound `c` at position 0 meets bound 0 only at a position of at least `c`, where the first
check of `des` faults with the same words (assumption log 14). -/
def deserialize (tbuf : Vector Elem Config.tbufLen) (c : Nat) :
    Nat → Option NodeIx → Walk → Except Raise (Option NodeIx × Walk)
  | 0, _, w => .error (corrupted 1 w.pos)
  | depth + 1, parent, w =>
    if c ≤ w.pos then .error (corrupted 1 w.pos)
    else if elemAt tbuf w.pos = Config.sentinel then .ok (none, { w with pos := w.pos + 1 })
    else
      match elemIndex (elemAt tbuf w.pos) with
      | none => .error (corrupted 2 w.pos)
      | some v =>
        if (peek w.node v).valid then .error (corrupted 3 w.pos)
        else
          match deserialize tbuf c depth (some v)
              { pos := w.pos + 1, node := poke w.node v (Node.leaf parent) } with
          | .error e => .error e
          | .ok (l, w₁) =>
            match deserialize tbuf c depth (some v) w₁ with
            | .error e => .error e
            | .ok (r, w₂) =>
              match shapeCheck v w.pos l r with
              | some e => .error e
              | none => .ok (some v, { w₂ with node := setChildren v l r w₂.node })

/-- R152: the count check first, then `tree_clear`, then the walk. -/
def treeLoad (c : BitVec 16) (h : Hufb) : Effect :=
  if countInRange c then
    match deserialize h.tbuf c.toNat c.toNat none { pos := 0, node := (treeClear h).node } with
    | .error e => .raise e
    | .ok (root, w) =>
      .done
        { treeClear h with
          node := w.node, root := root, decPos := root, tcount := BitVec.ofNat 11 w.pos }
  else .raise ⟨.btreeOverflow, 0, c⟩

/-- TREE_SERIALIZE (R150). -/
def execTreeSerialize (s : State) : Result := Effect.conclude s (treeSerialize s.hufb)

/-- TREE_LOAD c (R152). -/
def execTreeLoad (c : BitVec 16) (s : State) : Result := Effect.conclude s (treeLoad c s.hufb)

end Sys2Proof.Machine
end

