-- ==== Sys2Proof/Machine/Dispatch.lean ====
section
/-! DEFINITION. One arm per command (30_encoding.md rule R93): the command's own effect, once the CMD write of
20_memory.md rule R64 (3) has let it through. -/

namespace Sys2Proof.Machine

def exec (i : Instr) (s : State) : Host.Outcome State Fault Refusal :=
  match i with
  -- control
  | .nop => Sys2Proof.Machine.execNop s
  | .reset => Sys2Proof.Machine.execReset s
  -- histogram
  | .histReset => Sys2Proof.Machine.execHistReset s
  | .histAdd b => Sys2Proof.Machine.execHistAdd b s
  -- tree builder
  | .treeReset => Sys2Proof.Machine.execTreeReset s
  | .treeBuild => Sys2Proof.Machine.execTreeBuild s
  -- tree codec
  | .treeSerialize => Sys2Proof.Machine.execTreeSerialize s
  | .treeLoad c => Sys2Proof.Machine.execTreeLoad c s
  -- symbol table
  | .tableGen => Sys2Proof.Machine.execTableGen s
  -- encoder and decoder
  | .encSym b => Sys2Proof.Machine.execEncSym b s
  | .encFlush => Sys2Proof.Machine.execEncFlush s
  | .decStart => Sys2Proof.Machine.execDecStart s
  | .decByte b => Sys2Proof.Machine.execDecByte b s

end Sys2Proof.Machine
end

