-- ==== Sys2Proof/Machine/Flags.lean ====
section
/-! DEFINITION. The status flags (10_state.md rules R26, R51), the interrupt line (60_exceptions.md rule R210) and the
output port's signals (20_memory.md rule R72). All are views of other state, computed and never stored. -/

namespace Sys2Proof.Machine

/-- BUSY: OUTQ is not empty. -/
def busy (h : Hufb) : Bool := !h.outq.isEmpty

/-- ROOT_V: ROOT is present. -/
def rootV (h : Hufb) : Bool := h.root.isSome

/-- HSTART_V: HSTART is present. -/
def hstartV (h : Hufb) : Bool := h.hstart.isSome

/-- DEC_DONE: REMAIN = 0. -/
def decDone (h : Hufb) : Bool := h.remain == 0

/-- ENC_EMPTY: POS = 8. -/
def encEmpty (h : Hufb) : Bool := h.pos == 8

/-- The interrupt line: `FAULT AND CTRL.FIE` (R210). -/
def irq (h : Hufb) : Bool := h.fault && h.fie

/-- `out_valid` and `out_data` of the port (R72, R71): the head byte of OUTQ is offered while there is one. -/
def outValid (h : Hufb) : Bool := busy h

/-- See `outValid`. -/
def outData (h : Hufb) : Option Byte := h.outq.head?

/-- STATUS (R26), from bit 31 down: 16 reserved zeros, CAUSE, IRQ, ENC_EMPTY, DEC_DONE, HSTART_V, TABLE_V,
ROOT_V, BUSY, FAULT. -/
def statusWord (h : Hufb) : Word :=
  0#16 ++ h.cause.code ++ BitVec.ofBool (irq h) ++ BitVec.ofBool (encEmpty h) ++ BitVec.ofBool (decDone h)
    ++ BitVec.ofBool (hstartV h) ++ BitVec.ofBool h.tableV ++ BitVec.ofBool (rootV h)
    ++ BitVec.ofBool (busy h) ++ BitVec.ofBool h.fault

end Sys2Proof.Machine
end

