-- ==== Sys2Proof/Machine/Bus.lean ====
section
/-! DEFINITION. The register interface (20_memory.md): the address map, the word layouts, the host's reads and writes,
and the CMD write that issues a command. -/

namespace Sys2Proof.Machine

/-! ## The address map (R60) -/

/-- The registers of 10_state.md section 2, in the order of their offsets. -/
inductive Reg where
  | id | cmd | status | fcmd | finfo | ctrl | hstart | root | nextId | tcount | encState
  | decLenLo | decLenHi | decRemainLo | decRemainHi | decPos | outPending
  deriving DecidableEq, Repr

/-- The registers at offsets 0x000, 0x004, ..., 0x040. -/
def Reg.all : List Reg :=
  [.id, .cmd, .status, .fcmd, .finfo, .ctrl, .hstart, .root, .nextId, .tcount, .encState,
   .decLenLo, .decLenHi, .decRemainLo, .decRemainHi, .decPos, .outPending]

/-- A mapped word of the address space. -/
inductive Loc where
  | reg (r : Reg)
  /-- The HIST window; `hi` selects bits [63:32] of the entry. -/
  | hist (i : NodeIx) (hi : Bool)
  | node (i : NodeIx)
  | tbuf (k : Fin Config.tbufLen)
  | code (s : SymIx) (w : Fin 8)
  | len (s : SymIx)
  deriving DecidableEq, Repr

/-- The offset of a register (10_state.md section 2, R60). -/
def Reg.offset : Reg → Nat
  | .id => 0x0000
  | .cmd => 0x0004
  | .status => 0x0008
  | .fcmd => 0x000C
  | .finfo => 0x0010
  | .ctrl => 0x0014
  | .hstart => 0x0018
  | .root => 0x001C
  | .nextId => 0x0020
  | .tcount => 0x0024
  | .encState => 0x0028
  | .decLenLo => 0x002C
  | .decLenHi => 0x0030
  | .decRemainLo => 0x0034
  | .decRemainHi => 0x0038
  | .decPos => 0x003C
  | .outPending => 0x0040

/-- The byte address of a mapped word (R60, R61). -/
def Loc.addr : Loc → Nat
  | .reg r => r.offset
  | .hist i hi => 0x1000 + 8 * i.val + (if hi then 4 else 0)
  | .node i => 0x2000 + 4 * i.val
  | .tbuf k => 0x3000 + 4 * k.val
  | .code s w => 0x4000 + 32 * s.val + 4 * w.val
  | .len s => 0x6000 + 4 * s.val

/-- The mapped word at byte address `a`, if `a` is 4-byte aligned and mapped (R60, R66). -/
def locate (a : Nat) : Option Loc :=
  if a % 4 ≠ 0 then none
  else if a < 0x1000 then (Reg.all[a / 4]?).map .reg
  else if a < 0x2000 then some (.hist (Fin.ofNat _ ((a - 0x1000) / 8)) ((a - 0x1000) / 4 % 2 == 1))
  else if a < 0x2800 then some (.node (Fin.ofNat _ ((a - 0x2000) / 4)))
  else if a < 0x3000 then none
  else if a < 0x4000 then some (.tbuf (Fin.ofNat _ ((a - 0x3000) / 4)))
  else if a < 0x6000 then some (.code (Fin.ofNat _ ((a - 0x4000) / 32)) (Fin.ofNat _ ((a - 0x4000) / 4)))
  else if a < 0x6400 then some (.len (Fin.ofNat _ ((a - 0x6000) / 4)))
  else none

/-! ## Word layouts -/

/-- A register that holds an optional index: V in bit 31, IDX in bits [8:0], 0 when there is none (R30, R31, R37,
R49). -/
def optIndexWord : Option NodeIx → Word
  | none => 0
  | some i => 1#1 ++ 0#22 ++ BitVec.ofNat 9 i.val

/-- An optional index inside a NODE word: the present bit above the 9 index bits (R61). -/
def optIndexBits : Option NodeIx → BitVec 10
  | none => 0
  | some i => 1#1 ++ BitVec.ofNat 9 i.val

/-- A slot is a leaf: VALID, no LEFT, no RIGHT (R61). -/
def Node.isLeaf (n : Node) : Bool := n.valid && n.left.isNone && n.right.isNone

/-- The packed word of a slot (R61), from bit 31 down: VALID, LEAF, PARENT, RIGHT, LEFT. -/
def nodeWord (n : Node) : Word :=
  BitVec.ofBool n.valid ++ BitVec.ofBool n.isLeaf ++ optIndexBits n.parent ++ optIndexBits n.right
    ++ optIndexBits n.left

/-- Bits `n - 1` down to 0 of a word from a function of the bit number. -/
def wordOfBits (f : Nat → Bool) : Nat → Word
  | 0 => 0
  | n + 1 => wordOfBits f n ||| (if f n then 1#32 <<< n else 0)

/-- Word `w` of a code in the CODE window: bit `31 - j` is code bit `32w + j`, 0 from LEN on (R61). -/
def codeWord (len : Byte) (code : CodeBits) (w : Fin 8) : Word :=
  wordOfBits (fun i => 32 * w.val + (31 - i) < len.toNat && code.getLsbD (32 * w.val + (31 - i))) 32

/-- The value of a register; `none` for the write-only CMD (10_state.md section 2). -/
def readReg (h : Hufb) : Reg → Option Word
  | .id => some Config.idValue
  | .cmd => none
  | .status => some (statusWord h)
  | .fcmd => some h.fcmd
  | .finfo => some (0#12 ++ h.finfoSub ++ h.finfoValue)
  | .ctrl => some (0#31 ++ BitVec.ofBool h.fie)
  | .hstart => some (optIndexWord h.hstart)
  | .root => some (optIndexWord h.root)
  | .nextId => some (h.nextId.setWidth 32)
  | .tcount => some (h.tcount.setWidth 32)
  | .encState => some (0#20 ++ h.pos ++ h.acc)
  | .decLenLo => some h.decLenLo
  | .decLenHi => some h.decLenHi
  | .decRemainLo => some (h.remain.extractLsb' 0 32)
  | .decRemainHi => some (h.remain.extractLsb' 32 32)
  | .decPos => some (optIndexWord h.decPos)
  | .outPending => some (0#26 ++ BitVec.ofNat 6 h.outq.length)

/-- The value of a mapped word; `none` where reading is a bus error (R61, R63). -/
def readLoc (h : Hufb) : Loc → Option Word
  | .reg r => readReg h r
  | .hist i hi => some (if hi then (peek h.hist i).extractLsb' 32 32 else (peek h.hist i).extractLsb' 0 32)
  | .node i => some (nodeWord (peek h.node i))
  | .tbuf k => some ((peek h.tbuf k).setWidth 32)
  | .code s w => some (codeWord (peek h.len s) (peek h.code s) w)
  | .len s => some ((peek h.len s).setWidth 32)

/-- The block after a host write of `v` to a stored word, CTRL, DEC_LEN_LO, DEC_LEN_HI or a TBUF element (R29, R35,
R61, R62); `none` where writing is a bus error (R63). CMD is not a stored word: see `cmdWrite`. -/
def writeLoc (h : Hufb) (v : Word) : Loc → Option Hufb
  | .reg .ctrl => some { h with fie := v.getLsbD 0 }
  | .reg .decLenLo => some { h with decLenLo := v }
  | .reg .decLenHi => some { h with decLenHi := v }
  | .tbuf k => some { h with tbuf := poke h.tbuf k (v.extractLsb' 0 16) }
  | _ => none

/-- The word an access names: 4 bytes wide, 4-byte aligned and mapped (R63, R66). -/
def accessLoc (a : Addr) (bytes : Nat) : Option Loc :=
  if bytes = Config.busBytes then locate a.toNat else none

/-! ## The host's accesses (R62, R63) -/

/-- The host's access is over, with the answer it got (assumption log 5: a bus error is an answer and the machine
goes on). -/
def respond (r : BusResponse) (s : State) : State :=
  { s with env := { s.env with responses := s.env.responses ++ [r] } }

/-- What a read answers (R62, R63). -/
def readAnswer (h : Hufb) (a : Addr) (bytes : Nat) : BusResponse :=
  match (accessLoc a bytes).bind (readLoc h) with
  | some v => .data v
  | none => .error

/-- `MemRead`: no state of the block changes (R62). -/
def busRead (a : Addr) (bytes : Nat) (s : State) : State := respond (readAnswer s.hufb a bytes) s

/-- `MemWrite` to any word but CMD (R62, R63). -/
def storeWrite (a : Addr) (bytes : Nat) (v : Word) (s : State) : State :=
  match (accessLoc a bytes).bind (writeLoc s.hufb v) with
  | some h => respond .done { s with hufb := h }
  | none => respond .error s

/-! ## The CMD write (R64, R94, R97) -/

/-- The word of RESET, the one command that runs while FAULT = 1 (R64, R121). -/
def resetWord : Word := 0x00000001#32

/-- The fault of an illegal word (R94, R200). -/
def illegalRaise : DecodeError → Raise
  | .unknownOpc opc => ⟨.illegalCommand, 1, opc.setWidth 16⟩
  | .reservedBits opc => ⟨.illegalCommand, 2, opc.setWidth 16⟩

/-- R64 (3): `LAST_CMD <- w`, then the command, or the fault of an illegal word. -/
def issue (w : Word) (s : State) : Result :=
  let s₁ : State := { s with hufb := { s.hufb with lastCmd := w } }
  match decode w with
  | .error e => Effect.conclude s₁ (.raise (illegalRaise e))
  | .ok i => exec i s₁

/-- R64 (2), R97: while FAULT = 1 every word but RESET's is discarded. -/
def discarded (w : Word) (h : Hufb) : Bool := h.fault && w != resetWord

/-- A CMD write that is not held (R64 (2), (3)). The write itself completes, whatever the command does. -/
def cmdWrite (w : Word) (s : State) : Result :=
  if discarded w s.hufb then .next (respond .done s) else issue w (respond .done s)

/-- An access is a CMD write: a 4-byte write to CMD (R25, R64). -/
def isCmdWrite : BusOp → Bool
  | .read _ _ => false
  | .write a bytes _ => accessLoc a bytes == some (.reg .cmd)

/-- R64 (1): a CMD write is held while OUTQ is not empty. -/
def held (op : BusOp) (h : Hufb) : Bool := isCmdWrite op && busy h

/-- One access of the host that is not held. -/
def busAccess (op : BusOp) (s : State) : Result :=
  match op with
  | .read a bytes => .next (busRead a bytes s)
  | .write a bytes v => if isCmdWrite op then cmdWrite v s else .next (storeWrite a bytes v s)

end Sys2Proof.Machine
end

