-- ==== Sys2Proof/Machine/Agents.lean ====
section
/-! DEFINITION. The steps of the three agents (10_state.md rule R20): the host's next access, the sink's choice
(20_memory.md rule R71, 60_exceptions.md rule R204), the reset input (70_reset_and_hazards.md rule R230). -/

namespace Sys2Proof.Machine

/-- The host's turn: its next access is made, unless it is a CMD write that is held, which stays the next access
(R64 (1); assumption log 4). A host that has finished does nothing. -/
def hostTurn (s : State) : Result :=
  match s.env.hostOps with
  | [] => .next s
  | op :: ops =>
    if held op s.hufb then .next s
    else busAccess op { s with env := { s.env with hostOps := ops } }

/-- The sink accepts the head byte of OUTQ (R71); with OUTQ empty the step is not enabled (assumption log 3). -/
def sinkAccept (s : State) : State :=
  match s.hufb.outq with
  | [] => s
  | b :: q =>
    { hufb := { s.hufb with outq := q }
      env := { s.env with accepted := s.env.accepted ++ [b] } }

/-- The READ_WRITE fault: VALUE is the number of bytes discarded, the refused one included (R200, R204). -/
def readWriteRaise (h : Hufb) : Raise := ⟨.readWrite, 0, BitVec.ofNat 16 h.outq.length⟩

/-- The sink reports an error on the head byte of OUTQ: fault entry, and OUTQ is emptied (R204); with OUTQ empty
the step is not enabled (assumption log 3). -/
def sinkError (s : State) : State :=
  if busy s.hufb then { s with hufb := { faultEntry (readWriteRaise s.hufb) s.hufb with outq := [] } } else s

/-- The turn of an agent. -/
def agentTurn (t : Turn) (s : State) : Result :=
  match t with
  | .host => hostTurn s
  | .sinkAccept => .next (sinkAccept s)
  | .sinkError => .next (sinkError s)
  | .reset => .next (resetBlock s)

/-- Nobody acts: HUFB starts nothing by itself (R20, R74). -/
def idleStep (s : State) : Result := .next s

end Sys2Proof.Machine
end

