-- ==== Sys2Proof/Machine/Step.lean ====
section
/-! DEFINITION. One step of the machine: the next turn of `env.turns` is taken (10_state.md rule R20). -/

namespace Sys2Proof.Machine

/-- One step. With no turn to come, nobody acts. -/
def step (s : State) : Host.Outcome State Fault Refusal :=
  match s.env.turns with
  | [] => idleStep s
  | t :: ts => agentTurn t { s with env := { s.env with turns := ts } }

/-- The host writes the command word whose bits are `w` (as spec/opcode_table.json numbers them; those from `nbits` up
are 0) to CMD at the very next step (R64, R90). Nothing else is changed: OUTQ and FAULT stay, so that in a state
where OUTQ is empty and FAULT is 0, as after reset, the next step runs that command (assumption log 6). -/
def State.withFetchWord (s : State) (nbits w : Nat) : State :=
  { s with
    env :=
      { s.env with
        turns := .host :: s.env.turns
        hostOps := .write cmdAddr 4 (BitVec.ofNat 32 (w % 2 ^ nbits)) :: s.env.hostOps } }

end Sys2Proof.Machine
end

