-- ==== Sys2Proof/Safety.lean ====
section
/-! DEFINITION. What counts as a safe run, in the words claims use: the binary trees that the node store holds
(10_state.md rule R47), the invariants of the spec (R43, R44, R47, R48, R186), sequences of commands, the packed
bit stream (R183), the walk of the decoder (R185), and the observation of a run (R242). -/

namespace Sys2Proof.Machine

/-! ## Trees -/

/-- A finite strictly binary tree of node indices (R12, R47). -/
inductive Tree where
  | leaf (i : NodeIx)
  | node (i : NodeIx) (l r : Tree)
  deriving DecidableEq, Repr

namespace Tree

/-- The index of the top node. -/
def root : Tree → NodeIx
  | leaf i => i
  | node i _ _ => i

/-- The indices of all nodes, in preorder. -/
def indices : Tree → List NodeIx
  | leaf i => [i]
  | node i l r => i :: (l.indices ++ r.indices)

/-- The indices of the leaves, from left to right. -/
def leaves : Tree → List NodeIx
  | leaf i => [i]
  | node _ l r => l.leaves ++ r.leaves

/-- The longest way from the top to a leaf, in steps. -/
def height : Tree → Nat
  | leaf _ => 0
  | node _ l r => max l.height r.height + 1

/-- The sentinel-delimited preorder of R150. -/
def preorder : Tree → List Elem
  | leaf i => [indexElem i, Config.sentinel, Config.sentinel]
  | node i l r => indexElem i :: (l.preorder ++ r.preorder)

/-- A leaf's index is below 256 and an internal node's is 256 or above (R47 clause 4). -/
def shaped : Tree → Bool
  | leaf i => i.val < Config.firstInternal
  | node i l r => Config.firstInternal ≤ i.val && l.shaped && r.shaped

/-- No index stands twice, and the indices are as clause 4 says: a tree R47 allows. -/
def Valid (t : Tree) : Prop := t.shaped = true ∧ t.indices.Nodup

/-- The steps from the top to leaf `i`: `false` to the left child, `true` to the right child (R12 "Code"). -/
def pathTo (i : NodeIx) : Tree → Option (List Bool)
  | leaf j => if j = i then some [] else none
  | node _ l r =>
    match l.pathTo i with
    | some p => some (false :: p)
    | none => (r.pathTo i).map (true :: ·)

/-- The code of symbol `i` (R170): its path from the root, or the one bit 0 for a single leaf as root. -/
def codeOf (t : Tree) (i : NodeIx) : Option (List Bool) :=
  match t with
  | leaf j => if j = i then some [false] else none
  | node _ _ _ => t.pathTo i

/-- The node that following the given steps from the top reaches (R172). -/
def follow : Tree → List Bool → Option Tree
  | t, [] => some t
  | leaf _, _ :: _ => none
  | node _ l r, x :: xs => if x then r.follow xs else l.follow xs

/-- The slots of the node store hold this tree under the given parent (R40, R47 clauses 2 and 3). -/
def Held (nodes : Vector Node Config.nodeSlots) : Option NodeIx → Tree → Prop
  | parent, leaf i => peek nodes i = Node.leaf parent
  | parent, node i l r =>
    peek nodes i = Node.internal l.root r.root parent ∧ Held nodes (some i) l ∧ Held nodes (some i) r

end Tree

/-- The block's tree is `t`: ROOT is its top, NODE holds it with consistent parents, and every other slot is
empty (R47). -/
structure HasTree (h : Hufb) (t : Tree) : Prop where
  root : h.root = some t.root
  valid : t.Valid
  held : Tree.Held h.node none t
  others : ∀ i, i ∉ t.indices → peek h.node i = Node.empty

/-- The block has no tree: ROOT is none and every slot is empty (R47 clauses 1 and 6). -/
structure NoTree (h : Hufb) : Prop where
  root : h.root = none
  empty : ∀ i, peek h.node i = Node.empty

/-- R47: the tree state is no tree, or a finite strictly binary tree with indices as the rule asks. -/
def TreeOk (h : Hufb) : Prop := NoTree h ∨ ∃ t, HasTree h t

/-- A node reachable from `r` through LEFT and RIGHT (R47 clause 2). -/
inductive Reaches (nodes : Vector Node Config.nodeSlots) (r : NodeIx) : NodeIx → Prop where
  | top : Reaches nodes r r
  | left {n m : NodeIx} : Reaches nodes r n → (peek nodes n).left = some m → Reaches nodes r m
  | right {n m : NodeIx} : Reaches nodes r n → (peek nodes n).right = some m → Reaches nodes r m

/-- `n` is a child of `p`. -/
def IsChild (nodes : Vector Node Config.nodeSlots) (p n : NodeIx) : Prop :=
  (peek nodes p).left = some n ∨ (peek nodes p).right = some n

/-! ## Invariants -/

/-- R48, the histogram invariant. -/
def HistOk (h : Hufb) : Prop :=
  match h.hstart with
  | some st => ∀ i, i < st → peek h.hist i = 0
  | none => ∀ i : NodeIx, i.val < Config.symCount → peek h.hist i = 0

/-- R186, the decoder position invariant: at the root, or at a node with children while a code is part-walked. -/
def DecPosOk (h : Hufb) : Prop :=
  (h.root = none ∧ h.decPos = none) ∨
    ∃ r d, h.root = some r ∧ h.decPos = some d ∧
      (d = r ∨ ((peek h.node d).valid = true ∧ (peek h.node d).left.isSome = true))

/-- The bit packer: POS is 1..8, and the unfilled low bits of ACC are 0 (R34, R182). -/
structure PackerOk (h : Hufb) : Prop where
  posLow : 1 ≤ h.pos.toNat
  posHigh : h.pos.toNat ≤ 8
  accLow : ∀ k, k < h.pos.toNat → h.acc.getLsbD k = false

/-- The symbol table: code bits from LEN on are 0; a table that is not valid is clear; a valid one is what TABLE_GEN
makes of the current tree (R43, R135, R170). -/
structure TableOk (h : Hufb) : Prop where
  bits : ∀ (s : SymIx) (k : Nat), (peek h.len s).toNat ≤ k → (peek h.code s).getLsbD k = false
  off : h.tableV = false → ∀ s : SymIx, peek h.len s = 0
  current : h.tableV = true → tableGen h = .done h

/-- The fault registers and the output queue: OUTQ holds at most 32 bytes (R44); without a fault CAUSE, FCMD and FINFO
are 0 (R26, R27, R28); with one CAUSE is a cause that is ever raised (R200, R208) and OUTQ is empty (R64). -/
structure FaultOk (h : Hufb) : Prop where
  queue : h.outq.length ≤ Config.outqDepth
  clear : h.fault = false → h.cause = .none ∧ h.fcmd = 0 ∧ h.finfoSub = 0 ∧ h.finfoValue = 0
  raised : h.fault = true → h.cause ≠ .none ∧ h.cause ≠ .memoryAllocation ∧ h.cause ≠ .fatal
  idle : h.fault = true → h.outq = []

/-- NEXT_ID is 256..511 and TCOUNT at most 1024 (R32, R33, R42). -/
structure CountersOk (h : Hufb) : Prop where
  nextLow : Config.firstInternal ≤ h.nextId.toNat
  nextHigh : h.nextId.toNat ≤ 511
  tcount : h.tcount.toNat ≤ Config.tbufLen

/-- Every invariant of the spec. -/
structure Inv (h : Hufb) : Prop where
  tree : TreeOk h
  decPos : DecPosOk h
  hist : HistOk h
  packer : PackerOk h
  table : TableOk h
  faults : FaultOk h
  counters : CountersOk h

/-! ## Weights (R138) -/

/-- The symbols with a nonzero count, ascending. -/
def activeSymbols (h : Hufb) : List NodeIx :=
  (List.finRange Config.nodeSlots).filter fun i => i.val < Config.symCount && (peek h.hist i).toNat != 0

/-- The sum of the weights of the active symbols. -/
def totalWeight (h : Hufb) : Nat := ((activeSymbols h).map fun i => (peek h.hist i).toNat).sum

/-! ## Encodings, the host's access, faults -/

/-- The bits of `w` that R94 reserves in a format. -/
def reservedClear (f : Format) (w : Word) : Prop :=
  match f with
  | .N => w.extractLsb' 8 24 = 0#24
  | .B => w.extractLsb' 16 16 = 0#16
  | .C => w.extractLsb' 24 8 = 0#8

/-- The state in which a CMD write leaves the host's queue: its turn and its access are taken, and the write is
answered. -/
def afterCmdWrite (s : State) (ts : List Turn) (ops : List BusOp) : State :=
  { s with env := { s.env with turns := ts, hostOps := ops, responses := s.env.responses ++ [.done] } }

/-- The words R63 lets the host write: CMD, CTRL, DEC_LEN_LO, DEC_LEN_HI and the TBUF window. -/
def isWritable : Loc → Prop
  | .reg r => r = .cmd ∨ r = .ctrl ∨ r = .decLenLo ∨ r = .decLenHi
  | .tbuf _ => True
  | _ => False

/-- The block after fault entry with the given words (R201): FAULT, CAUSE, FCMD and FINFO, and nothing else. -/
def faulted (h : Hufb) (cause : Cause) (sub : BitVec 4) (value : BitVec 16) : Hufb :=
  { h with fault := true, cause := cause, fcmd := h.lastCmd, finfoSub := sub, finfoValue := value }

/-- `t` is `s` with a fault entered and nothing else changed (R201, R202). -/
def FaultEntered (s t : State) : Prop :=
  ∃ cause sub value, t = { s with hufb := faulted s.hufb cause sub value }

/-- A register word shows an optional index: V in bit 31, IDX in bits [8:0] and 0 when there is none, bits [30:9] 0
(R30, R31, R37, R49). -/
def ShowsIndex (w : Word) (o : Option NodeIx) : Prop :=
  w.getLsbD 31 = o.isSome ∧ (w.extractLsb' 0 9).toNat = (o.map Fin.val).getD 0 ∧ w.extractLsb' 9 22 = 0#22

/-- What `tree_clear` leaves (R135): no node, no root, NEXT_ID 256, a clear table that is not valid. -/
def cleared (h : Hufb) : Hufb :=
  { h with
    node := Vector.replicate Config.nodeSlots Node.empty, root := none, nextId := 256,
    len := Vector.replicate Config.symCount 0, code := Vector.replicate Config.symCount 0, tableV := false }

/-! ## The builder's selection (R137) -/

/-- `c` comes before `d` in the order of R137: a lower weight, or the same weight and a lower index. -/
def Before (c d : Candidate) : Prop := c.2.toNat < d.2.toNat ∨ (c.2.toNat = d.2.toNat ∧ c.1.val < d.1.val)

/-- Index `i` is in the set `C` of R136. -/
def IsCandidate (h : Hufb) (i : NodeIx) : Prop :=
  (∃ st, h.hstart = some st ∧ st.val ≤ i.val) ∧ i.val < h.nextId.toNat ∧ peek h.hist i ≠ 0

/-- `a` and `b` are the two indices a merge selects (R136, R137): `a` comes before every other candidate, `b` before
every one but `a`. -/
structure Selects (h : Hufb) (a b : NodeIx) : Prop where
  left : IsCandidate h a
  right : IsCandidate h b
  distinct : a ≠ b
  first : ∀ i, IsCandidate h i → i ≠ a → Before (a, peek h.hist a) (i, peek h.hist i)
  second : ∀ i, IsCandidate h i → i ≠ a → i ≠ b → Before (b, peek h.hist b) (i, peek h.hist i)

/-- HIST after the merge of `a` and `b` into `n` (R136). -/
def mergedHist (hist : Vector Weight Config.nodeSlots) (n a b : NodeIx) : Vector Weight Config.nodeSlots :=
  poke (poke (poke hist n (peek hist a + peek hist b)) a 0) b 0

/-- `Merges h k h'`: the builder's `k` first merges from `h`, in merge order, each of the two selected indices and each
with a sum below 2^64, lead to the histogram and the NEXT_ID of `h'` (R136). -/
inductive Merges (h : Hufb) : Nat → Hufb → Prop where
  | start : Merges h 0 h
  | merge {k : Nat} {h' : Hufb} {n a b : NodeIx} : Merges h k h' → Selects h' a b →
      (peek h'.hist a).toNat + (peek h'.hist b).toNat < 2 ^ 64 → n.val = h'.nextId.toNat →
      Merges h (k + 1) { h' with hist := mergedHist h'.hist n a b, nextId := h'.nextId + 1 }

/-- What R136 writes into NODE for the merge of `a` and `b` into `n`: `a` is the left child, `b` the right child, `n` the
parent of both, and each of the two that is a symbol is recorded as a leaf. -/
structure Linked (node : Vector Node Config.nodeSlots) (n a b : NodeIx) : Prop where
  valid : (peek node n).valid = true
  left : (peek node n).left = some a
  right : (peek node n).right = some b
  leftParent : (peek node a).parent = some n
  rightParent : (peek node b).parent = some n
  leftLeaf : a.val < Config.firstInternal → peek node a = Node.leaf (some n)
  rightLeaf : b.val < Config.firstInternal → peek node b = Node.leaf (some n)

/-- The single ascending scan of R137: it keeps its current choices on equality. -/
def scanTwo : List Candidate → Option Candidate × Option Candidate → Option Candidate × Option Candidate
  | [], m => m
  | c :: cs, (none, _) => scanTwo cs (some c, none)
  | c :: cs, (some m1, m2) =>
    if c.2.toNat < m1.2.toNat then scanTwo cs (some c, some m1)
    else
      match m2 with
      | none => scanTwo cs (some m1, some c)
      | some k => if c.2.toNat < k.2.toNat then scanTwo cs (some m1, some c) else scanTwo cs (some m1, some k)

/-! ## TBUF -/

/-- The first elements of TBUF are these. -/
def StartsWith (tbuf : Vector Elem Config.tbufLen) (es : List Elem) : Prop :=
  ∀ k : Fin Config.tbufLen, (h : k.val < es.length) → peek tbuf k = es[k.val]

/-! ## Where the walk of TREE_LOAD stands (R152) -/

/-- What `des` reads for a subtree: a lone sentinel for an absent one, the preorder of the tree otherwise. -/
def subtreeElems : Option Tree → List Elem
  | none => [Config.sentinel]
  | some t => t.preorder

/-- The indices of a subtree. -/
def subtreeIndices : Option Tree → List NodeIx
  | none => []
  | some t => t.indices

/-- One node above the element the walk stands at, whose own subtrees are not both read yet: the walk is in its left
subtree, or it has read the left subtree and is in the right one. The checks on such a node are still to come, so
the node need not pass them. -/
inductive Descent where
  | inLeft (node : NodeIx)
  | inRight (node : NodeIx) (left : Option Tree)
  deriving DecidableEq, Repr

/-- The elements read for such a node so far. -/
def Descent.elems : Descent → List Elem
  | .inLeft i => [indexElem i]
  | .inRight i l => indexElem i :: subtreeElems l

/-- The indices among them. -/
def Descent.indices : Descent → List NodeIx
  | .inLeft i => [i]
  | .inRight i l => i :: subtreeIndices l

/-- The subtree that is read meets the index ranges of R47 clause 4. -/
def Descent.shaped : Descent → Bool
  | .inLeft _ => true
  | .inRight _ none => true
  | .inRight _ (some t) => t.shaped

/-- The elements the walk has read on its way down, the root's first. -/
def readElems (ds : List Descent) : List Elem := ds.flatMap Descent.elems

/-- The indices among them. -/
def readIndices (ds : List Descent) : List NodeIx := ds.flatMap Descent.indices

/-- The walk gets this far without a fault: no index stands twice, and the subtrees read are well shaped. -/
def WalkReaches (ds : List Descent) : Prop := (readIndices ds).Nodup ∧ ∀ d ∈ ds, d.shaped = true

/-! ## Sequences of commands -/

/-- The commands' own effects, one after the other, up to the first stop of the model. The output queue collects what
they emit; on the machine the sink empties it between two commands (R64, R68). -/
def execAll : List Instr → State → Result
  | [], s => .next s
  | i :: is, s =>
    match exec i s with
    | .next t => execAll is t
    | .fault f => .fault f
    | .refused r => .refused r

/-! ## Runs -/

/-- `k` steps of the machine, up to the first stop (Host/Core.lean `Core.run`, on this machine's own types). -/
def stepMany : Nat → State → Result
  | 0, s => .next s
  | k + 1, s =>
    match step s with
    | .next t => stepMany k t
    | .fault f => .fault f
    | .refused r => .refused r

/-! ## The packed bit stream (R65, R180, R183) -/

/-- Bits put from position `k` of a byte down, the other positions 0. -/
def packFrom : Nat → List Bool → Byte
  | _, [] => 0
  | k, x :: xs => ((if x then 1#8 else 0#8) <<< k) ||| packFrom (k - 1) xs

/-- The byte of up to 8 bits, the first one in bit 7, zero padded. -/
def packByte (xs : List Bool) : Byte := packFrom 7 xs

/-- A bit string cut into bytes of 8, the last one zero padded (R183). The first argument is how many bytes there are
room for; `packBits` takes one for each 8 bits begun. -/
def packBytes : Nat → List Bool → List Byte
  | 0, _ => []
  | n + 1, xs => packByte (xs.take 8) :: packBytes n (xs.drop 8)

/-- The bytes a bit string is packed into, `ceil (length / 8)` of them. -/
def packBits (xs : List Bool) : List Byte := packBytes ((xs.length + 7) / 8) xs

/-- The bits that wait in the accumulator, the first one put first: bits 7 down to POS of ACC (R34). -/
def pendingBits (h : Hufb) : List Bool :=
  (List.range (8 - h.pos.toNat)).map fun j => h.acc.getLsbD (7 - j)

/-! ## The decoder's walk (R185) -/

/-- What decoding the given bits does, on the tree itself: `t` is the chunk's tree, `cur` the part of it under the
decoder's position, `n` the symbols still to emit. Answers the leaves reached, the new position and count. -/
def Tree.walk (t : Tree) : Tree → Nat → List Bool → List NodeIx × Tree × Nat
  | cur, n, [] => ([], cur, n)
  | cur, n, x :: xs =>
    match n with
    | 0 => ([], cur, 0)
    | m + 1 =>
      match t with
      | .leaf i =>
        let out := Tree.walk (.leaf i) cur m xs
        (i :: out.1, out.2)
      | .node _ _ _ =>
        match cur with
        | .leaf _ => ([], cur, n)
        | .node _ l r =>
          match (if x then r else l) with
          | .leaf i =>
            let out := Tree.walk t t m xs
            (i :: out.1, out.2)
          | .node j l' r' => Tree.walk t (.node j l' r') n xs

/-- `cur` is a part of `t` with children, or `t` itself: where the decoder can stand (R186). -/
def Tree.IsPosition (t cur : Tree) : Prop :=
  cur = t ∨ (∃ p, t.follow p = some cur) ∧ ∃ i l r, cur = .node i l r

/-! ## The end of a run (R242) -/

/-- A run is over: OUTQ is empty and the host program has made its last access. -/
def runOver (s : State) : Bool := s.hufb.outq.isEmpty && s.env.hostOps.isEmpty

/-- The bus-error outcomes of the host's accesses, the first one first: for each access, whether it ended in a bus error.
What a read answered on the way is not among them (R242). -/
def busErrors (s : State) : List Bool := s.env.responses.map (· == .error)

/-- What is observed of a run: the accepted stream, what reading an address answers at the end, and the bus-error
outcomes of the host's accesses. -/
structure Observation where
  accepted : List Byte
  words : List (Option Word)
  busErrors : List Bool
  deriving DecidableEq, Repr

/-- The words of the slave space from address 0 up, `none` where a read is a bus error. -/
def allWords (h : Hufb) : List (Option Word) :=
  (List.range 0x4000).map fun k => (locate (4 * k)).bind (readLoc h)

/-- The observation of a run that is over (R242). -/
def observe (s : State) : Option Observation :=
  if runOver s then
    some { accepted := s.env.accepted, words := allWords s.hufb, busErrors := busErrors s }
  else none

/-- A run that is over and in which no fault was left: the premise of a claim of correct output (R242). -/
def cleanRun (s : State) : Bool := runOver s && !s.hufb.fault

end Sys2Proof.Machine
end

