-- ==== Sys2Proof/Certificates/Slice0/Obligations.lean ====
section
/-! DEFINITION. The statements for the provers. Each docstring names the rules of spec/ a statement formalises. A
statement about a command is about `exec`, the command's own effect once 20_memory.md rule R64 (3) lets it run;
`StepRunsDecodedCommand` and `CmdWriteThreeCases` carry it to `step`. -/

open Sys2Proof Sys2Proof.Machine

/-! ## Encoding -/

/-- R90, R93: a word decodes to a command exactly when it is that command's word, so no bit of an encoding is dropped
and each word has one meaning. -/
def Obligations.DecodeIffEncode : Prop :=
  ∀ (w : Word) (i : Instr), decode w = .ok i ↔ w = encode i

/-- R90, R93: words written out from the table's encodings decode to the commands they stand for. -/
def Obligations.WordsOfTheTableDecode : Prop :=
  decode 0b00000000000000000000000000000001#32 = .ok .reset ∧
  decode 0b00000000000000000110000100010001#32 = .ok (.histAdd 0x61#8) ∧
  decode 0b00000000000000000000000000100001#32 = .ok .treeBuild ∧
  decode 0b00000000000000110000000000110001#32 = .ok (.treeLoad 768#16) ∧
  decode 0b00000000000000000000000001000000#32 = .ok .tableGen ∧
  decode 0b00000000000000001111111101010000#32 = .ok (.encSym 0xFF#8) ∧
  decode 0b00000000000000001100000001100001#32 = .ok (.decByte 0xC0#8)

/-- R94: a word is illegal when its OPC is not in R93 or a bit its format reserves is 1; issued with FAULT = 0 and
OUTQ empty it raises ILLEGAL_COMMAND with SUB 1 or 2 and VALUE = OPC, FCMD the word, and changes nothing else. -/
def Obligations.IllegalWordsFault : Prop :=
  ∀ (s : State) (w : Word),
    (∀ e, decode w = .error e →
      (∀ m : Mnemonic, m.opc ≠ w.extractLsb' 0 8) ∨
        ∃ m : Mnemonic, m.opc = w.extractLsb' 0 8 ∧ ¬ reservedClear m.format w) ∧
    ((∀ m : Mnemonic, m.opc ≠ w.extractLsb' 0 8) →
      issue w s = .next { s with hufb := { s.hufb with
        lastCmd := w, fault := true, cause := .illegalCommand, fcmd := w,
        finfoSub := 1, finfoValue := (w.extractLsb' 0 8).setWidth 16 } }) ∧
    (∀ m : Mnemonic, m.opc = w.extractLsb' 0 8 → ¬ reservedClear m.format w →
      issue w s = .next { s with hufb := { s.hufb with
        lastCmd := w, fault := true, cause := .illegalCommand, fcmd := w,
        finfoSub := 2, finfoValue := (w.extractLsb' 0 8).setWidth 16 } })

/-- R96: the expansion of every pseudo-instruction, as the bus writes it stands for, with the command words written out as
numbers. TBUF elements may be any 32-bit values at any addresses a write can have. -/
def Obligations.AssemblerExpansions : Prop :=
  (∀ n : Nat, n < 2 ^ 64 →
    (Line.decSetlen n).ops = some
      [.write 0x002C#16 4 (BitVec.ofNat 32 (n % 2 ^ 32)), .write 0x0030#16 4 (BitVec.ofNat 32 (n / 2 ^ 32)),
       .write 0x0004#16 4 0x00000060#32]) ∧
  (∀ (k : Nat) (vs : List Nat), (∀ j (hj : j < vs.length), 0x3000 + 4 * (k + j) < 2 ^ 16 ∧ vs[j] < 2 ^ 32) →
    (Line.tbufFill k vs).ops = some
      (vs.mapIdx fun j v => .write (BitVec.ofNat 16 (0x3000 + 4 * (k + j))) 4 (BitVec.ofNat 32 v))) ∧
  (∀ vs : List Nat, (∀ j (hj : j < vs.length), 0x3000 + 4 * j < 2 ^ 16 ∧ vs[j] < 2 ^ 32) →
    (Line.loadTree vs).ops = some
      ((vs.mapIdx fun j v => .write (BitVec.ofNat 16 (0x3000 + 4 * j)) 4 (BitVec.ofNat 32 v)) ++
        [.write 0x0004#16 4 (BitVec.ofNat 32 (256 * vs.length + 0x31))])) ∧
  (∀ cs : List Nat, bytesOk cs = true →
    (Line.histAdds cs).ops = some
      (cs.map fun c => .write 0x0004#16 4 (BitVec.ofNat 32 (256 * c + 0x11))) ∧
    (Line.encSyms cs).ops = some
      (cs.map fun c => .write 0x0004#16 4 (BitVec.ofNat 32 (256 * c + 0x50))) ∧
    (Line.decBytes cs).ops = some
      (cs.map fun c => .write 0x0004#16 4 (BitVec.ofNat 32 (256 * c + 0x61))) ∧
    (Line.encodeChunk cs).ops = some
      (([0x10] ++ cs.map (fun c => 256 * c + 0x11) ++ [0x21, 0x30, 0x40] ++ cs.map (fun c => 256 * c + 0x50) ++
        [0x51]).map fun w => .write 0x0004#16 4 (BitVec.ofNat 32 w)))

/-! ## The step and its agents -/

/-- R64 (3): when the host's next access is a write of the word of command `i` to CMD, OUTQ is empty and FAULT is 0
(or the command is RESET), the step is `exec i` on the state with that access made and LAST_CMD the word. -/
def Obligations.StepRunsDecodedCommand : Prop :=
  ∀ (s : State) (ts : List Turn) (ops : List BusOp) (w : Word) (i : Instr),
    s.env.turns = .host :: ts → s.env.hostOps = .write cmdAddr 4 w :: ops → decode w = .ok i →
    s.hufb.outq = [] → (s.hufb.fault = false ∨ w = 0x00000001#32) →
    step s = exec i { afterCmdWrite s ts ops with hufb := { s.hufb with lastCmd := w } }

/-- R64, R97: the three cases of a CMD write: held while OUTQ is not empty (the access stays the next one and
nothing of the block changes); discarded while FAULT = 1 and the word is not RESET's, LAST_CMD unchanged; issued
otherwise. -/
def Obligations.CmdWriteThreeCases : Prop :=
  ∀ (s : State) (ts : List Turn) (ops : List BusOp) (w : Word),
    s.env.turns = .host :: ts → s.env.hostOps = .write cmdAddr 4 w :: ops →
    (s.hufb.outq ≠ [] → step s = .next { s with env := { s.env with turns := ts } }) ∧
    (s.hufb.outq = [] → s.hufb.fault = true → w ≠ 0x00000001#32 → step s = .next (afterCmdWrite s ts ops)) ∧
    (s.hufb.outq = [] → s.hufb.fault = false ∨ w = 0x00000001#32 → step s = issue w (afterCmdWrite s ts ops))

/-- R71, R204: a step of the sink. With OUTQ empty it is not enabled (the model's reading, assumption log 3: the turn
passes). Accepting moves the head byte of OUTQ to the end of the accepted stream and changes nothing else; an error
enters READ_WRITE with SUB 0, VALUE the number of bytes in OUTQ and FCMD = LAST_CMD, and empties OUTQ. -/
def Obligations.SinkAcceptsOrErrors : Prop :=
  ∀ (s : State) (ts : List Turn),
    (s.env.turns = .sinkAccept :: ts → s.hufb.outq = [] →
      step s = .next { s with env := { s.env with turns := ts } }) ∧
    (∀ b q, s.env.turns = .sinkAccept :: ts → s.hufb.outq = b :: q →
      step s = .next { hufb := { s.hufb with outq := q },
                       env := { s.env with turns := ts, accepted := s.env.accepted ++ [b] } }) ∧
    (s.env.turns = .sinkError :: ts → s.hufb.outq = [] →
      step s = .next { s with env := { s.env with turns := ts } }) ∧
    (s.env.turns = .sinkError :: ts → s.hufb.outq ≠ [] →
      step s = .next
        { hufb := { s.hufb with
            fault := true, cause := .readWrite, fcmd := s.hufb.lastCmd, finfoSub := 0,
            finfoValue := BitVec.ofNat 16 s.hufb.outq.length, outq := [] },
          env := { s.env with turns := ts } })

/-- R230: the reset input sets every state of the block to its reset value, whatever the state; a host access still
to be made stays to be made, and what the sink has accepted stays accepted. -/
def Obligations.ResetInputLeavesTheResetState : Prop :=
  ∀ (s : State) (ts : List Turn), s.env.turns = .reset :: ts →
    step s = .next { hufb := Hufb.reset, env := { s.env with turns := ts } }

/-- R20, R62, R74, R207: HUFB starts nothing by itself: with no agent acting a step changes nothing, and a host whose
program is over changes nothing of the block (that such a step is one in which the turn passes is the model's reading,
assumption log 3). A host access other than a 4-byte write to CMD is made in every state, while BUSY or FAULT too; a
read changes nothing of the block and is answered with the current value. (`CmdWriteThreeCases` says what a 4-byte
write to CMD does.) -/
def Obligations.NothingStartsByItself : Prop :=
  ∀ s : State,
    (s.env.turns = [] → step s = .next s) ∧
    (∀ ts, s.env.turns = .host :: ts → s.env.hostOps = [] →
      step s = .next { s with env := { s.env with turns := ts } }) ∧
    (∀ ts op ops, s.env.turns = .host :: ts → s.env.hostOps = op :: ops → (∀ v, op ≠ .write cmdAddr 4 v) →
      step s = busAccess op { s with env := { s.env with turns := ts, hostOps := ops } }) ∧
    (∀ ts a n ops, s.env.turns = .host :: ts → s.env.hostOps = .read a n :: ops →
      step s = .next { s with env := { s.env with
        turns := ts, hostOps := ops, responses := s.env.responses ++ [readAnswer s.hufb a n] } })

/-- R64, R74: a held CMD write completes once the sink has accepted the bytes of OUTQ: after as many accepting steps
as OUTQ has bytes, the stream has grown by exactly those bytes in order, and the next step issues the write. -/
def Obligations.HeldWriteCompletesWhenTheSinkAccepts : Prop :=
  ∀ (s : State) (ts : List Turn) (ops : List BusOp) (w : Word),
    s.env.turns = List.replicate s.hufb.outq.length .sinkAccept ++ .host :: ts →
    s.env.hostOps = .write cmdAddr 4 w :: ops →
    s.hufb.fault = false →
    ∃ t : State, stepMany s.hufb.outq.length s = .next t ∧
      t = { hufb := { s.hufb with outq := [] },
            env := { s.env with turns := .host :: ts, accepted := s.env.accepted ++ s.hufb.outq } } ∧
      step t = issue w (afterCmdWrite t ts ops)

/-! ## The register interface -/

/-- R60: the map of the slave space. Every mapped word has the address the map gives it, every mapped address names
that one word, and every address is 4-byte aligned and inside the 16-bit space. -/
def Obligations.AddressMapIsOneToOne : Prop :=
  (∀ l : Loc, locate l.addr = some l ∧ l.addr % 4 = 0 ∧ l.addr < 2 ^ 16) ∧
  (∀ (a : Nat) (l : Loc), locate a = some l → a = l.addr)

/-- R62, R63: an access ends in a bus error exactly when it is not 4 bytes wide, not 4-byte aligned or unmapped, or
reads CMD, or writes a read-only word; a bus error changes nothing of the block, and FAULT is not set. -/
def Obligations.BusErrorsExactlyWhere : Prop :=
  ∀ (s : State) (a : Addr) (n : Nat) (v : Word),
    (readAnswer s.hufb a n = .error ↔
      ¬ (n = 4 ∧ ∃ l, locate a.toNat = some l ∧ l ≠ .reg .cmd)) ∧
    (busRead a n s).hufb = s.hufb ∧
    (¬ (n = 4 ∧ ∃ l, locate a.toNat = some l ∧ isWritable l) ↔
      busAccess (.write a n v) s =
        .next { s with env := { s.env with responses := s.env.responses ++ [.error] } })

/-- R29, R35, R61, R62, R74, R207: the words the host stores, as steps, in every state, while BUSY or FAULT too. CTRL keeps
bit 0 only, the two halves of DEC_LEN all 32 bits, a TBUF element bits [15:0]; nothing else of the block changes, the
access is answered done, and reading the word back gives what was kept. -/
def Obligations.HostWritesStore : Prop :=
  ∀ (s : State) (ts : List Turn) (ops : List BusOp) (v : Word) (k : Fin Config.tbufLen),
    s.env.turns = .host :: ts →
    (s.env.hostOps = .write 0x0014#16 4 v :: ops →
      step s = .next { afterCmdWrite s ts ops with hufb := { s.hufb with fie := v.getLsbD 0 } }) ∧
    (s.env.hostOps = .write 0x002C#16 4 v :: ops →
      step s = .next { afterCmdWrite s ts ops with hufb := { s.hufb with decLenLo := v } }) ∧
    (s.env.hostOps = .write 0x0030#16 4 v :: ops →
      step s = .next { afterCmdWrite s ts ops with hufb := { s.hufb with decLenHi := v } }) ∧
    (s.env.hostOps = .write (BitVec.ofNat 16 (0x3000 + 4 * k.val)) 4 v :: ops →
      ∃ t : State, step s = .next t ∧
        t = { afterCmdWrite s ts ops with hufb := { s.hufb with tbuf := t.hufb.tbuf } } ∧
        readLoc t.hufb (.tbuf k) = some ((v.extractLsb' 0 16).setWidth 32) ∧
        ∀ j, j ≠ k → readLoc t.hufb (.tbuf j) = readLoc s.hufb (.tbuf j)) ∧
    readReg { s.hufb with fie := v.getLsbD 0 } .ctrl = some (v &&& 1#32) ∧
    readReg { s.hufb with decLenLo := v } .decLenLo = some v ∧
    readReg { s.hufb with decLenHi := v } .decLenHi = some v

/-- R24, R26 to R38, R49: what the host reads at the address of every register: every bit of STATUS, the fault
registers, CTRL, the optional indices HSTART, ROOT and DEC_POS, NEXT_ID, TCOUNT, ENC_STATE, DEC_LEN, the two halves of
REMAIN, OUT_PENDING; the write-only CMD is a bus error. -/
def Obligations.RegisterWords : Prop :=
  ∀ h : Hufb,
    readAnswer h 0x0000#16 4 = .data 0x48554601#32 ∧
    readAnswer h 0x0004#16 4 = .error ∧
    (∃ w, readAnswer h 0x0008#16 4 = .data w ∧
      w.getLsbD 0 = h.fault ∧
      (w.getLsbD 1 = true ↔ h.outq ≠ []) ∧
      (w.getLsbD 2 = true ↔ h.root ≠ none) ∧
      w.getLsbD 3 = h.tableV ∧
      (w.getLsbD 4 = true ↔ h.hstart ≠ none) ∧
      (w.getLsbD 5 = true ↔ h.remain = 0) ∧
      (w.getLsbD 6 = true ↔ h.pos = 8) ∧
      (w.getLsbD 7 = true ↔ h.fault = true ∧ h.fie = true) ∧
      w.extractLsb' 8 8 = h.cause.code ∧
      w.extractLsb' 16 16 = 0#16) ∧
    readAnswer h 0x000C#16 4 = .data h.fcmd ∧
    (∃ w, readAnswer h 0x0010#16 4 = .data w ∧
      w.extractLsb' 0 16 = h.finfoValue ∧ w.extractLsb' 16 4 = h.finfoSub ∧ w.extractLsb' 20 12 = 0#12) ∧
    (∃ w, readAnswer h 0x0014#16 4 = .data w ∧ w.getLsbD 0 = h.fie ∧ w.extractLsb' 1 31 = 0#31) ∧
    (∃ w, readAnswer h 0x0018#16 4 = .data w ∧ ShowsIndex w h.hstart) ∧
    (∃ w, readAnswer h 0x001C#16 4 = .data w ∧ ShowsIndex w h.root) ∧
    (∃ w, readAnswer h 0x0020#16 4 = .data w ∧ w.toNat = h.nextId.toNat) ∧
    (∃ w, readAnswer h 0x0024#16 4 = .data w ∧ w.toNat = h.tcount.toNat) ∧
    (∃ w, readAnswer h 0x0028#16 4 = .data w ∧
      w.extractLsb' 0 8 = h.acc ∧ w.extractLsb' 8 4 = h.pos ∧ w.extractLsb' 12 20 = 0#20) ∧
    readAnswer h 0x002C#16 4 = .data h.decLenLo ∧
    readAnswer h 0x0030#16 4 = .data h.decLenHi ∧
    (∃ lo hi, readAnswer h 0x0034#16 4 = .data lo ∧ readAnswer h 0x0038#16 4 = .data hi ∧
      hi.toNat * 2 ^ 32 + lo.toNat = h.remain.toNat) ∧
    (∃ w, readAnswer h 0x003C#16 4 = .data w ∧ ShowsIndex w h.decPos) ∧
    (h.outq.length ≤ 32 → ∃ w, readAnswer h 0x0040#16 4 = .data w ∧ w.toNat = h.outq.length)

/-- R30, R31, R37, R39, R40, R42, R43, R49, R61: what the host reads in the HIST, NODE, TBUF and LEN windows. A HIST entry
is two words, the low one at the lower address. A NODE word shows the fields of the slot, an absent index reads 0, and
the LEAF bit is set for a valid slot with no children. -/
def Obligations.WindowWords : Prop :=
  ∀ h : Hufb,
    (∀ i : NodeIx, ∃ lo hi,
      readAnswer h (BitVec.ofNat 16 (0x1000 + 8 * i.val)) 4 = .data lo ∧
      readAnswer h (BitVec.ofNat 16 (0x1000 + 8 * i.val + 4)) 4 = .data hi ∧
      hi.toNat * 2 ^ 32 + lo.toNat = (peek h.hist i).toNat) ∧
    (∀ i : NodeIx, ∃ w, readAnswer h (BitVec.ofNat 16 (0x2000 + 4 * i.val)) 4 = .data w ∧
      let n := peek h.node i
      w.extractLsb' 0 9 = BitVec.ofNat 9 ((n.left.map Fin.val).getD 0) ∧
      w.getLsbD 9 = n.left.isSome ∧
      w.extractLsb' 10 9 = BitVec.ofNat 9 ((n.right.map Fin.val).getD 0) ∧
      w.getLsbD 19 = n.right.isSome ∧
      w.extractLsb' 20 9 = BitVec.ofNat 9 ((n.parent.map Fin.val).getD 0) ∧
      w.getLsbD 29 = n.parent.isSome ∧
      (w.getLsbD 30 = true ↔ n.valid = true ∧ n.left = none ∧ n.right = none) ∧
      w.getLsbD 31 = n.valid) ∧
    (∀ k : Fin Config.tbufLen, ∃ w, readAnswer h (BitVec.ofNat 16 (0x3000 + 4 * k.val)) 4 = .data w ∧
      w.toNat = (peek h.tbuf k).toNat) ∧
    (∀ s : SymIx, ∃ w, readAnswer h (BitVec.ofNat 16 (0x6000 + 4 * s.val)) 4 = .data w ∧
      w.toNat = (peek h.len s).toNat)

/-- R61: what the host reads in the CODE window: bit `31 - j` of word `w` of a symbol is code bit `32w + j`, and 0 from LEN
on. -/
def Obligations.CodeWindowBits : Prop :=
  ∀ (h : Hufb) (s : SymIx) (w : Fin 8) (j : Nat), j < 32 →
    ∃ v, readAnswer h (BitVec.ofNat 16 (0x4000 + 32 * s.val + 4 * w.val)) 4 = .data v ∧
      v.getLsbD (31 - j) =
        (decide (32 * w.val + j < (peek h.len s).toNat) && (peek h.code s).getLsbD (32 * w.val + j))

/-! ## Control and faults -/

/-- R120: NOP completes and changes nothing. R121, R50: RESET completes, and every state has its reset value. -/
def Obligations.NopAndReset : Prop :=
  ∀ s : State,
    exec .nop s = .next s ∧
    ∃ h : Hufb, exec .reset s = .next { s with hufb := h } ∧
      h.fault = false ∧ h.cause = .none ∧ h.fcmd = 0 ∧ h.finfoSub = 0 ∧ h.finfoValue = 0 ∧ h.lastCmd = 0 ∧
      h.fie = false ∧ (∀ i, peek h.hist i = 0) ∧ h.hstart = none ∧ (∀ i, peek h.node i = Node.empty) ∧
      h.root = none ∧ h.nextId = 256 ∧ (∀ k, peek h.tbuf k = 0) ∧ h.tcount = 0 ∧ (∀ c, peek h.len c = 0) ∧
      (∀ c, peek h.code c = 0) ∧ h.tableV = false ∧ h.acc = 0 ∧ h.pos = 8 ∧ h.decLenLo = 0 ∧ h.decLenHi = 0 ∧
      h.remain = 0 ∧ h.decPos = none ∧ h.outq = [] ∧ statusWord h = 0x00000060#32

/-- R50, R230: the state right after reset has the reset values, and is the one the RESET command leaves. -/
def Obligations.ResetStateIsTheTable : Prop :=
  exec .reset State.reset = .next State.reset ∧ readReg State.reset.hufb .id = some 0x48554601#32 ∧
    statusWord State.reset.hufb = 0x00000060#32 ∧ readReg State.reset.hufb .nextId = some 256 ∧
    readReg State.reset.hufb .encState = some 0x00000800#32

/-- R201, R202: faults are precise. A command that leaves FAULT = 1 where FAULT was 0 has changed nothing but FAULT,
CAUSE, FCMD (which is LAST_CMD, the command's word by R64 (3)) and FINFO, with a cause a command can raise. -/
def Obligations.FaultsArePrecise : Prop :=
  ∀ (i : Instr) (s t : State), s.hufb.fault = false → exec i s = .next t → t.hufb.fault = true →
    ∃ cause sub value, t = { s with hufb := faulted s.hufb cause sub value } ∧
      (cause = .invalidArgument ∨ cause = .btreeOverflow ∨ cause = .btreeCorrupted ∨ cause = .weightOverflow)

/-- R203, R206: the first fault wins. From a state with FAULT = 1 and OUTQ empty, a step either leaves FAULT, CAUSE, FCMD
and FINFO as they are, or is a reset and leaves the reset state. -/
def Obligations.FirstFaultWins : Prop :=
  ∀ s t : State, s.hufb.fault = true → s.hufb.outq = [] → step s = .next t →
    (t.hufb.fault = true ∧ t.hufb.cause = s.hufb.cause ∧ t.hufb.fcmd = s.hufb.fcmd ∧
      t.hufb.finfoSub = s.hufb.finfoSub ∧ t.hufb.finfoValue = s.hufb.finfoValue ∧ t.hufb.outq = []) ∨
    t.hufb = Hufb.reset

/-- R210: `irq = FAULT AND CTRL.FIE`, and STATUS.IRQ reads its level; clearing FIE drops the line while FAULT
stays; only a reset clears FAULT, and with it the line at its source. -/
def Obligations.InterruptLine : Prop :=
  (∀ h : Hufb, (irq h = true ↔ h.fault = true ∧ h.fie = true) ∧ (statusWord h).getLsbD 7 = irq h) ∧
  (∀ (s : State) (v : Word), v.getLsbD 0 = false →
    ∃ t : State, busAccess (.write 0x0014#16 4 v) s = .next t ∧ irq t.hufb = false ∧
      t.hufb.fault = s.hufb.fault) ∧
  (∀ s t : State, s.hufb.fault = true → step s = .next t → t.hufb.fault = false → t.hufb = Hufb.reset)

/-- R51: no command sets or clears a flag other than those the table lists. -/
def Obligations.OnlyTheListedCommandsMoveAFlag : Prop :=
  ∀ (i : Instr) (s t : State), exec i s = .next t →
    (t.hufb.fault ≠ s.hufb.fault → s.hufb.fault = false ∨ i = .reset) ∧
    (rootV t.hufb ≠ rootV s.hufb →
      i = .treeReset ∨ i = .treeBuild ∨ i = .reset ∨ ∃ c, i = .treeLoad c) ∧
    (t.hufb.tableV ≠ s.hufb.tableV →
      i = .tableGen ∨ i = .treeReset ∨ i = .treeBuild ∨ i = .reset ∨ ∃ c, i = .treeLoad c) ∧
    (hstartV t.hufb ≠ hstartV s.hufb → i = .histReset ∨ i = .reset ∨ ∃ b, i = .histAdd b) ∧
    (decDone t.hufb ≠ decDone s.hufb → i = .decStart ∨ i = .reset ∨ ∃ b, i = .decByte b) ∧
    (encEmpty t.hufb ≠ encEmpty s.hufb → i = .encFlush ∨ i = .reset ∨ ∃ b, i = .encSym b) ∧
    (busy t.hufb ≠ busy s.hufb → i = .encFlush ∨ i = .reset ∨ (∃ b, i = .encSym b) ∨ ∃ b, i = .decByte b)

/-! ## Histogram -/

/-- R125: HIST_RESET completes; every entry is 0, HSTART is none, nothing else changes. -/
def Obligations.HistResetResult : Prop :=
  ∀ s : State, ∃ t : State, exec .histReset s = .next t ∧
    (∀ i, peek t.hufb.hist i = 0) ∧ t.hufb.hstart = none ∧
    t = { s with hufb := { s.hufb with hist := t.hufb.hist, hstart := t.hufb.hstart } }

/-- R126: HIST_ADD of a counter below 2^64 - 1 completes: that counter is one higher, every other entry unchanged,
HSTART the minimum of itself and the symbol, nothing else changed. On a full counter it raises
WEIGHT_OVERFLOW(1, symbol). -/
def Obligations.HistAddResult : Prop :=
  ∀ (s : State) (b : Byte),
    ((peek s.hufb.hist (symNode b)).toNat ≠ 2 ^ 64 - 1 →
      ∃ t : State, exec (.histAdd b) s = .next t ∧
        (peek t.hufb.hist (symNode b)).toNat = (peek s.hufb.hist (symNode b)).toNat + 1 ∧
        (∀ i : NodeIx, i.val ≠ b.toNat → peek t.hufb.hist i = peek s.hufb.hist i) ∧
        (s.hufb.hstart = none → t.hufb.hstart = some (symNode b)) ∧
        (∀ h, s.hufb.hstart = some h → ∃ m, t.hufb.hstart = some m ∧ m.val = min h.val b.toNat) ∧
        t = { s with hufb := { s.hufb with hist := t.hufb.hist, hstart := t.hufb.hstart } }) ∧
    ((peek s.hufb.hist (symNode b)).toNat = 2 ^ 64 - 1 →
      exec (.histAdd b) s = .next { s with hufb := faulted s.hufb .weightOverflow 1 (b.setWidth 16) })

/-- R127: HIST_RESET and then a string of HIST_ADDs leaves in every counter how often its symbol stands in the string,
and in HSTART the least symbol of it, from every starting state, when the string is shorter than 2^64. -/
def Obligations.HistogramCountsTheString : Prop :=
  ∀ (ss : List Byte) (s : State), ss.length < 2 ^ 64 →
    ∃ t : State, execAll (.histReset :: ss.map .histAdd) s = .next t ∧
      (∀ b : Byte, (peek t.hufb.hist (symNode b)).toNat = ss.count b) ∧
      (∀ i : NodeIx, 256 ≤ i.val → peek t.hufb.hist i = 0) ∧
      (ss = [] → t.hufb.hstart = none) ∧
      (ss ≠ [] → ∃ m ∈ ss, t.hufb.hstart = some (symNode m) ∧ ∀ b ∈ ss, m.toNat ≤ b.toNat) ∧
      t = { s with hufb := { s.hufb with hist := t.hufb.hist, hstart := t.hufb.hstart } }

/-! ## Tree builder -/

/-- R135: TREE_RESET completes: the tree and the table are cleared, DEC_POS is none, nothing else changes. -/
def Obligations.TreeResetResult : Prop :=
  ∀ s : State, exec .treeReset s = .next { s with hufb := { cleared s.hufb with decPos := none } }

/-- R137: the selection of a merge. The candidates are the indices from HSTART up to NEXT_ID with a nonzero weight;
`a` comes before every other candidate and `b` before every one but `a`; and the single ascending scan finds the
same pair. -/
def Obligations.SelectionIsTheTwoLeast : Prop :=
  ∀ h : Hufb,
    (∀ (i : NodeIx) (w : Weight), (i, w) ∈ candidates h ↔
      (∃ st, h.hstart = some st ∧ st.val ≤ i.val) ∧ i.val < h.nextId.toNat ∧ w = peek h.hist i ∧ w ≠ 0) ∧
    (∀ a, argmin (candidates h) = some a ↔ a ∈ candidates h ∧ ∀ c ∈ candidates h, c ≠ a → Before a c) ∧
    (∀ a b, argmin (candidates h) = some a →
      (argmin (without a (candidates h)) = some b ↔
        b ∈ candidates h ∧ b ≠ a ∧ ∀ c ∈ candidates h, c ≠ a → c ≠ b → Before b c)) ∧
    scanTwo (candidates h) (none, none) =
      (argmin (candidates h), (argmin (candidates h)).bind fun a => argmin (without a (candidates h)))

/-- R136, R138: TREE_BUILD completes in every state that meets the histogram invariant and whose weights sum to less
than 2^64, for 0, 1 and more active symbols: ROOT, NEXT_ID, the valid slots, the histogram, DEC_POS, the cleared
table; nothing else changes. -/
def Obligations.TreeBuildResult : Prop :=
  ∀ s : State, HistOk s.hufb → totalWeight s.hufb < 2 ^ 64 →
    ∃ t : State, exec .treeBuild s = .next t ∧
      t = { s with hufb := { cleared s.hufb with
        node := t.hufb.node, root := t.hufb.root, nextId := t.hufb.nextId, hist := t.hufb.hist,
        decPos := t.hufb.root } } ∧
      TreeOk t.hufb ∧
      (∀ i : NodeIx, i.val < 256 → ((peek t.hufb.node i).valid = true ↔ i ∈ activeSymbols s.hufb)) ∧
      (∀ i : NodeIx, 256 ≤ i.val → ((peek t.hufb.node i).valid = true ↔ i.val < t.hufb.nextId.toNat)) ∧
      (activeSymbols s.hufb = [] → t.hufb.root = none ∧ t.hufb.nextId = 256 ∧ t.hufb.hist = s.hufb.hist) ∧
      (∀ r, activeSymbols s.hufb = [r] →
        t.hufb.root = some r ∧ t.hufb.nextId = 256 ∧ t.hufb.hist = s.hufb.hist) ∧
      (2 ≤ (activeSymbols s.hufb).length →
        t.hufb.nextId.toNat = 256 + (activeSymbols s.hufb).length - 1 ∧
        ∃ r, t.hufb.root = some r ∧ r.val = 256 + (activeSymbols s.hufb).length - 2 ∧
          (peek t.hufb.hist r).toNat = totalWeight s.hufb ∧
          (∀ i : NodeIx, i ≠ r → i.val < t.hufb.nextId.toNat → peek t.hufb.hist i = 0) ∧
          (∀ i : NodeIx, t.hufb.nextId.toNat ≤ i.val → peek t.hufb.hist i = peek s.hufb.hist i))

/-- R136, R137, R138: what a build that completes makes, merge by merge. When the builder's `k` first merges, in merge
order, have sums that fit and fewer than two candidates remain after them, TREE_BUILD completes, and NODE holds what
R136 writes for every one of these merges: the one that comes first is the left child of node 256 + j, the other the
right child, both have it as their parent, and a symbol among the two is a leaf. NEXT_ID is 256 + k, HIST is what the
merges leave, the candidate that remains (if one does) is ROOT and has no parent, and nothing else changes but the
table, which is cleared, and DEC_POS, which is ROOT. In particular, two active symbols give node 256 over the two. -/
def Obligations.MergesLinkTheSelectedPair : Prop :=
  (∀ (s : State) (k : Nat) (h : Hufb),
    let start : Hufb := { s.hufb with nextId := 256 }
    Merges start k h → (∀ a b, ¬ Selects h a b) →
    ∃ t : State, exec .treeBuild s = .next t ∧
      (∀ (j : Nat) (g : Hufb) (a b n : NodeIx), Merges start j g → Selects g a b → n.val = 256 + j →
        Linked t.hufb.node n a b) ∧
      t.hufb.nextId.toNat = 256 + k ∧ t.hufb.hist = h.hist ∧
      ((∀ i, ¬ IsCandidate h i) → t.hufb.root = none) ∧
      (∀ r, IsCandidate h r → t.hufb.root = some r ∧ (peek t.hufb.node r).valid = true ∧
        (peek t.hufb.node r).parent = none ∧ (r.val < 256 → peek t.hufb.node r = Node.leaf none)) ∧
      t = { s with hufb := { cleared s.hufb with
        node := t.hufb.node, root := t.hufb.root, nextId := t.hufb.nextId, hist := t.hufb.hist,
        decPos := t.hufb.root } }) ∧
  (∀ (s : State) (a b : NodeIx), HistOk s.hufb →
    (∀ i, i ∈ activeSymbols s.hufb ↔ i = a ∨ i = b) →
    Before (a, peek s.hufb.hist a) (b, peek s.hufb.hist b) →
    (peek s.hufb.hist a).toNat + (peek s.hufb.hist b).toNat < 2 ^ 64 →
    ∃ t : State, exec .treeBuild s = .next t ∧ HasTree t.hufb (.node 256 (.leaf a) (.leaf b)))

/-- R136, R137, R202, R205: the first merge, in merge order, whose sum does not fit in 64 bits raises WEIGHT_OVERFLOW with
SUB 2 and VALUE the index being created, 256 plus the number of merges before it, and changes nothing else. -/
def Obligations.TreeBuildOverflow : Prop :=
  ∀ (s : State) (k : Nat) (h : Hufb) (a b : NodeIx),
    Merges { s.hufb with nextId := 256 } k h → Selects h a b →
    2 ^ 64 ≤ (peek h.hist a).toNat + (peek h.hist b).toNat →
    exec .treeBuild s = .next { s with hufb := faulted s.hufb .weightOverflow 2 (BitVec.ofNat 16 (256 + k)) }

/-- R139: a second TREE_BUILD without HIST_RESET after one that merged sees no symbol and builds no tree. -/
def Obligations.SecondBuildFindsNothing : Prop :=
  ∀ s t : State, HistOk s.hufb → 2 ≤ (activeSymbols s.hufb).length → s.hufb.fault = false →
    exec .treeBuild s = .next t → t.hufb.fault = false →
    ∃ u : State, exec .treeBuild t = .next u ∧ u.hufb.root = none ∧ u.hufb.hist = t.hufb.hist

/-- R140: the tree TREE_BUILD makes is a function of HIST[0..256) and HSTART alone. -/
def Obligations.TreeBuildIsDetermined : Prop :=
  ∀ s s' t : State, s.hufb.hstart = s'.hufb.hstart →
    (∀ i : NodeIx, i.val < 256 → peek s.hufb.hist i = peek s'.hufb.hist i) →
    s.hufb.fault = false → s'.hufb.fault = false → exec .treeBuild s = .next t → t.hufb.fault = false →
    ∃ t' : State, exec .treeBuild s' = .next t' ∧ t'.hufb.fault = false ∧
      t'.hufb.node = t.hufb.node ∧ t'.hufb.root = t.hufb.root ∧ t'.hufb.nextId = t.hufb.nextId

/-! ## Tree codec -/

/-- R150: TREE_SERIALIZE completes on a tree: TBUF takes its sentinel-delimited preorder from element 0, the rest of
TBUF is unchanged, TCOUNT is the number of elements, nothing else changes; with no tree it writes one sentinel. -/
def Obligations.TreeSerializeResult : Prop :=
  ∀ s : State,
    (∀ t : Tree, HasTree s.hufb t →
      ∃ u : State, exec .treeSerialize s = .next u ∧
        u = { s with hufb := { s.hufb with tbuf := u.hufb.tbuf, tcount := u.hufb.tcount } } ∧
        u.hufb.tcount.toNat = t.preorder.length ∧
        ∀ k : Fin Config.tbufLen,
          peek u.hufb.tbuf k = if h : k.val < t.preorder.length then t.preorder[k.val] else peek s.hufb.tbuf k) ∧
    (s.hufb.root = none →
      ∃ u : State, exec .treeSerialize s = .next u ∧
        u = { s with hufb := { s.hufb with tbuf := u.hufb.tbuf, tcount := 1 } } ∧
        ∀ k : Fin Config.tbufLen, peek u.hufb.tbuf k = if k.val = 0 then 0xFFFF#16 else peek s.hufb.tbuf k)

/-- R151: a tree R47 allows with `L` leaves has `4L - 1` elements, at most 1023. -/
def Obligations.SerializedSize : Prop :=
  ∀ t : Tree, t.Valid → t.preorder.length = 4 * t.leaves.length - 1 ∧ t.preorder.length ≤ 1023

/-- R152, R155: a count outside 1..1024, read as a signed 16-bit number, raises BTREE_OVERFLOW with the count as VALUE
and changes nothing else, whatever TBUF holds. -/
def Obligations.TreeLoadCountCheck : Prop :=
  ∀ (s : State) (c : BitVec 16), (c.toInt < 1 ∨ 1024 < c.toInt) →
    exec (.treeLoad c) s = .next { s with hufb := faulted s.hufb .btreeOverflow 0 c }

/-- R152: TREE_LOAD completes on the preorder of a tree R47 allows, with elements beyond it ignored: the block has
that tree, TCOUNT is the number of elements consumed, NEXT_ID 256, the table is cleared, DEC_POS is ROOT, nothing
else changes; a lone sentinel loads the empty tree. -/
def Obligations.TreeLoadResult : Prop :=
  ∀ (s : State) (c : BitVec 16),
    (∀ t : Tree, t.Valid → (t.preorder.length : Int) ≤ c.toInt → c.toInt ≤ 1024 →
      StartsWith s.hufb.tbuf t.preorder →
      ∃ u : State, exec (.treeLoad c) s = .next u ∧ HasTree u.hufb t ∧
        u.hufb.tcount.toNat = t.preorder.length ∧
        u = { s with hufb := { cleared s.hufb with
          node := u.hufb.node, root := u.hufb.root, decPos := u.hufb.root, tcount := u.hufb.tcount } }) ∧
    (1 ≤ c.toInt → c.toInt ≤ 1024 → StartsWith s.hufb.tbuf [0xFFFF#16] →
      exec (.treeLoad c) s = .next { s with hufb := { cleared s.hufb with decPos := none, tcount := 1 } })

/-- R153: a TREE_LOAD that completes, on any TBUF and count, leaves a tree that meets R47. -/
def Obligations.LoadedTreeIsValid : Prop :=
  ∀ (s t : State) (c : BitVec 16), s.hufb.fault = false → exec (.treeLoad c) s = .next t →
    t.hufb.fault = false → TreeOk t.hufb ∧ t.hufb.decPos = t.hufb.root

/-- R155: a count that is plausible but too short for the tree in TBUF raises BTREE_CORRUPTED(1) at the count, and
changes nothing else. -/
def Obligations.TruncatedTreeFaults : Prop :=
  ∀ (s : State) (c : BitVec 16) (t : Tree), t.Valid → 1 ≤ c.toInt → c.toInt < t.preorder.length →
    StartsWith s.hufb.tbuf t.preorder →
    exec (.treeLoad c) s = .next { s with hufb := faulted s.hufb .btreeCorrupted 1 c }

/-- R152, R155, R205: what each BTREE_CORRUPTED of TREE_LOAD is raised on, at every position the walk can reach: the count
ends there (1), an element that is neither the sentinel nor 0..511 (2), a repeated index (3), a node with one child
(4), a leaf with an index of 256 or above (5), an internal node with an index below 256 (6). The checks 4 to 6 on a node
come after its subtrees: the nodes above the offending element need not pass them, and the deeper fault is the one
reported. VALUE is the position of the element, and nothing but the fault registers changes. -/
def Obligations.TreeLoadShapeFaults : Prop :=
  ∀ (s : State) (c : BitVec 16) (ds : List Descent), WalkReaches ds → c.toInt ≤ 1024 →
    let p := (readElems ds).length
    let faults (sub : BitVec 4) := exec (.treeLoad c) s =
      .next { s with hufb := faulted s.hufb .btreeCorrupted sub (BitVec.ofNat 16 p) }
    (1 ≤ p → c.toInt = p → StartsWith s.hufb.tbuf (readElems ds) → faults 1) ∧
    (∀ v : Elem, 512 ≤ v.toNat → v ≠ 0xFFFF#16 → (p : Int) + 1 ≤ c.toInt →
      StartsWith s.hufb.tbuf (readElems ds ++ [v]) → faults 2) ∧
    (∀ n ∈ readIndices ds, (p : Int) + 1 ≤ c.toInt →
      StartsWith s.hufb.tbuf (readElems ds ++ [indexElem n]) → faults 3) ∧
    (∀ (n : NodeIx) (l r : Option Tree),
      (readIndices ds ++ n :: (subtreeIndices l ++ subtreeIndices r)).Nodup →
      (∀ t, l = some t ∨ r = some t → t.shaped = true) →
      (p : Int) + 1 + (subtreeElems l).length + (subtreeElems r).length ≤ c.toInt →
      StartsWith s.hufb.tbuf (readElems ds ++ indexElem n :: (subtreeElems l ++ subtreeElems r)) →
      (l.isNone ≠ r.isNone → faults 4) ∧
      (l = none → r = none → 256 ≤ n.val → faults 5) ∧
      (l ≠ none → r ≠ none → n.val < 256 → faults 6))

/-- R154: TREE_SERIALIZE and then TREE_LOAD of its TCOUNT gives NODE and ROOT back, with DEC_POS = ROOT, NEXT_ID 256
and TABLE_V 0; so TABLE_GEN gives the same codes before and after. -/
def Obligations.SerializeLoadRoundTrip : Prop :=
  ∀ s : State, TreeOk s.hufb →
    ∃ u v : State, exec .treeSerialize s = .next u ∧ exec (.treeLoad (u.hufb.tcount.setWidth 16)) u = .next v ∧
      v.hufb.fault = s.hufb.fault ∧
      v.hufb.node = s.hufb.node ∧ v.hufb.root = s.hufb.root ∧ v.hufb.decPos = s.hufb.root ∧
      v.hufb.nextId = 256 ∧ v.hufb.tableV = false ∧
      ∃ g k : State, exec .tableGen s = .next g ∧ exec .tableGen v = .next k ∧
        k.hufb.len = g.hufb.len ∧ k.hufb.code = g.hufb.code

/-! ## Symbol table -/

/-- R170, R171: TABLE_GEN completes on every tree and on none: a symbol of the tree gets its code, 1 to 255 bits of it,
every other symbol LEN 0 and CODE 0; TABLE_V is set and nothing else changes. -/
def Obligations.TableGenResult : Prop :=
  ∀ s : State, TreeOk s.hufb →
    ∃ u : State, exec .tableGen s = .next u ∧ u.hufb.tableV = true ∧
      u = { s with hufb := { s.hufb with len := u.hufb.len, code := u.hufb.code, tableV := u.hufb.tableV } } ∧
      (∀ (t : Tree) (y : SymIx), HasTree s.hufb t → SymIx.node y ∈ t.leaves →
        t.codeOf (SymIx.node y) = some (codeBits u.hufb y) ∧
        1 ≤ (peek u.hufb.len y).toNat ∧ (peek u.hufb.len y).toNat ≤ max 1 (t.leaves.length - 1)) ∧
      (∀ y : SymIx, (peek s.hufb.node (SymIx.node y)).valid = false →
        peek u.hufb.len y = 0 ∧ peek u.hufb.code y = 0)

/-- R172: in a table generated from a tree with at least two leaves, no code is a prefix of another; following a code from
the root reaches its leaf, after LEN steps; and the Kraft sum is exactly 1. For a single leaf the code is the one bit
0. -/
def Obligations.GeneratedCodesArePrefixFree : Prop :=
  (∀ (s u : State) (t : Tree), HasTree s.hufb t → 2 ≤ t.leaves.length → exec .tableGen s = .next u →
    (∀ x y : SymIx, SymIx.node x ∈ t.leaves → SymIx.node y ∈ t.leaves → x ≠ y →
      ¬ (codeBits u.hufb x <+: codeBits u.hufb y)) ∧
    (∀ x : SymIx, SymIx.node x ∈ t.leaves →
      (codeBits u.hufb x).length = (peek u.hufb.len x).toNat ∧
        t.follow (codeBits u.hufb x) = some (.leaf (SymIx.node x))) ∧
    ((List.finRange Config.symCount).map fun x =>
      if (peek u.hufb.len x).toNat = 0 then 0 else 2 ^ (255 - (peek u.hufb.len x).toNat)).sum = 2 ^ 255) ∧
  (∀ (s u : State) (x : SymIx), HasTree s.hufb (.leaf (SymIx.node x)) → exec .tableGen s = .next u →
    codeBits u.hufb x = [false])

/-! ## Encoder -/

/-- R180, R181: ENC_SYM of a symbol with a code completes: its bits follow the bits that wait in the accumulator, every
8 of them go out as a byte, the first in bit 7, and the rest wait; nothing else changes. At most 32 bytes go
out. -/
def Obligations.EncSymResult : Prop :=
  ∀ (s : State) (b : Byte), PackerOk s.hufb → s.hufb.tableV = true → peek s.hufb.len (symIx b) ≠ 0 →
    ∃ t : State, exec (.encSym b) s = .next t ∧
      t = { s with hufb := { s.hufb with acc := t.hufb.acc, pos := t.hufb.pos, outq := t.hufb.outq } } ∧
      PackerOk t.hufb ∧
      let bits := pendingBits s.hufb ++ codeBits s.hufb (symIx b)
      t.hufb.outq = s.hufb.outq ++ packBits (bits.take (bits.length / 8 * 8)) ∧
      pendingBits t.hufb = bits.drop (bits.length / 8 * 8) ∧
      bits.length / 8 = (8 - s.hufb.pos.toNat + (peek s.hufb.len (symIx b)).toNat) / 8 ∧ bits.length / 8 ≤ 32

/-- R181, R205: ENC_SYM with no valid table raises INVALID_ARGUMENT(1), and of a symbol with no code INVALID_ARGUMENT(2),
the first check first, and changes nothing else. -/
def Obligations.EncSymFaults : Prop :=
  ∀ (s : State) (b : Byte),
    (s.hufb.tableV = false →
      exec (.encSym b) s = .next { s with hufb := faulted s.hufb .invalidArgument 1 (b.setWidth 16) }) ∧
    (s.hufb.tableV = true → peek s.hufb.len (symIx b) = 0 →
      exec (.encSym b) s = .next { s with hufb := faulted s.hufb .invalidArgument 2 (b.setWidth 16) })

/-- R182: ENC_FLUSH completes: with bits waiting it emits ACC and empties the accumulator, with none it changes
nothing. -/
def Obligations.EncFlushResult : Prop :=
  ∀ s : State,
    (s.hufb.pos.toNat < 8 →
      exec .encFlush s = .next { s with hufb := { s.hufb with
        acc := 0, pos := 8, outq := s.hufb.outq ++ [s.hufb.acc] } }) ∧
    (8 ≤ s.hufb.pos.toNat → exec .encFlush s = .next s)

/-- R183: from POS = 8, ENC_SYMs of symbols with codes and then ENC_FLUSH emit exactly the concatenated codes, cut into
bytes with the first bit in bit 7 and the last byte zero padded, `ceil (bits / 8)` bytes; POS is 8 again. -/
def Obligations.PackedStreamLaw : Prop :=
  ∀ (ss : List Byte) (s : State), PackerOk s.hufb → s.hufb.pos = 8 → s.hufb.tableV = true →
    (∀ b ∈ ss, peek s.hufb.len (symIx b) ≠ 0) →
    ∃ t : State, execAll (ss.map .encSym ++ [.encFlush]) s = .next t ∧
      t.hufb.outq = s.hufb.outq ++ packBits (ss.flatMap fun b => codeBits s.hufb (symIx b)) ∧
      (packBits (ss.flatMap fun b => codeBits s.hufb (symIx b))).length =
        ((ss.map fun b => (peek s.hufb.len (symIx b)).toNat).sum + 7) / 8 ∧
      t = { s with hufb := { s.hufb with acc := 0, pos := 8, outq := t.hufb.outq } }

/-! ## Decoder -/

/-- R184: DEC_START completes: REMAIN is DEC_LEN, DEC_POS is ROOT, nothing else changes. -/
def Obligations.DecStartResult : Prop :=
  ∀ s : State, ∃ t : State, exec .decStart s = .next t ∧
    t.hufb.remain.toNat = s.hufb.decLenHi.toNat * 2 ^ 32 + s.hufb.decLenLo.toNat ∧
    t.hufb.decPos = s.hufb.root ∧
    t = { s with hufb := { s.hufb with remain := t.hufb.remain, decPos := t.hufb.decPos } }

/-- R185: DEC_BYTE completes on a tree with the decoder at one of its positions: it emits the leaves that walking its
bits from there reaches, the most significant bit first and stopping when REMAIN is 0, and nothing else changes;
with REMAIN = 0 it has no effect. -/
def Obligations.DecByteResult : Prop :=
  ∀ (s : State) (b : Byte),
    (∀ t cur : Tree, HasTree s.hufb t → t.IsPosition cur → s.hufb.decPos = some cur.root →
      ∃ u : State, exec (.decByte b) s = .next u ∧
        let out := t.walk cur s.hufb.remain.toNat (bitsMsbFirst b)
        u.hufb.outq = s.hufb.outq ++ out.1.map (fun i => BitVec.ofNat 8 i.val) ∧ out.1.length ≤ 8 ∧
        (∀ i ∈ out.1, i ∈ t.leaves) ∧
        u.hufb.decPos = some out.2.1.root ∧ t.IsPosition out.2.1 ∧ u.hufb.remain.toNat = out.2.2 ∧
        u = { s with hufb := { s.hufb with
          outq := u.hufb.outq, decPos := u.hufb.decPos, remain := u.hufb.remain } }) ∧
    (s.hufb.remain = 0 → exec (.decByte b) s = .next s)

/-- R185: DEC_BYTE with symbols to emit and no tree raises INVALID_ARGUMENT(3) and changes nothing else. -/
def Obligations.DecByteNeedsATree : Prop :=
  ∀ (s : State) (b : Byte), s.hufb.remain ≠ 0 → s.hufb.root = none →
    exec (.decByte b) s = .next { s with hufb := faulted s.hufb .invalidArgument 3 (b.setWidth 16) }

/-- R187: the round trip of one chunk. ENCODE_CHUNK of a string shorter than 2^64, from any state with POS = 8 and
OUTQ empty, ends without a new fault; a block that holds its serialized tree in TBUF and its length in DEC_LEN
decodes the emitted bytes to exactly the string, with REMAIN 0 at the end, and a further byte emits nothing. -/
def Obligations.ChunkRoundTrip : Prop :=
  ∀ (ss : List Byte) (s : State), ss.length < 2 ^ 64 → PackerOk s.hufb → s.hufb.pos = 8 → s.hufb.outq = [] →
    s.hufb.fault = false →
    ∃ t : State, execAll (encodeChunkCmds ss) s = .next t ∧ t.hufb.fault = false ∧
      ∀ d : State, d.hufb.outq = [] → d.hufb.fault = false →
        StartsWith d.hufb.tbuf (t.hufb.tbuf.toList.take t.hufb.tcount.toNat) →
        d.hufb.decLenHi.toNat * 2 ^ 32 + d.hufb.decLenLo.toNat = ss.length →
        ∃ u : State,
          execAll (.treeLoad (t.hufb.tcount.setWidth 16) :: .decStart :: decBytesCmds t.hufb.outq) d = .next u ∧
          u.hufb.outq = ss ∧ u.hufb.remain = 0 ∧ u.hufb.fault = false ∧
          ∀ b, exec (.decByte b) u = .next u

/-! ## Frames -/

/-- R120 to R127, R135 to R139, R202: the frame of the control, histogram and tree builder commands. Whatever they answer
as a next state, the run's data, the fault registers and every register, array and TBUF element they do not own are
unchanged; or the fault is entered and nothing else changes. (RESET owns the whole block.) -/
def Obligations.HistogramAndBuilderFrame : Prop :=
  ∀ (s t : State) (b : Byte),
    (exec .nop s = .next t → t = s) ∧
    (exec .reset s = .next t → t.env = s.env) ∧
    (exec .histReset s = .next t →
      t = { s with hufb := { s.hufb with hist := t.hufb.hist, hstart := t.hufb.hstart } }) ∧
    (exec (.histAdd b) s = .next t →
      t = { s with hufb := { s.hufb with hist := t.hufb.hist, hstart := t.hufb.hstart } } ∨ FaultEntered s t) ∧
    (exec .treeReset s = .next t →
      t = { s with hufb := { s.hufb with
        node := t.hufb.node, root := t.hufb.root, nextId := t.hufb.nextId, len := t.hufb.len,
        code := t.hufb.code, tableV := t.hufb.tableV, decPos := t.hufb.decPos } }) ∧
    (exec .treeBuild s = .next t →
      t = { s with hufb := { s.hufb with
        node := t.hufb.node, root := t.hufb.root, nextId := t.hufb.nextId, len := t.hufb.len,
        code := t.hufb.code, tableV := t.hufb.tableV, decPos := t.hufb.decPos, hist := t.hufb.hist } } ∨
      FaultEntered s t)

/-- R150 to R155, R170, R180 to R185, R202: the frame of the codec, table, encoder and decoder commands: what they do not
own is unchanged, the fault registers included, or the fault is entered and nothing else changes. TREE_SERIALIZE is
the one command that stores to TBUF: the elements it stores are the first TCOUNT ones. OUTQ only grows. -/
def Obligations.CodecFrame : Prop :=
  ∀ (s t : State) (b : Byte) (c : BitVec 16),
    (exec .treeSerialize s = .next t →
      t = { s with hufb := { s.hufb with tbuf := t.hufb.tbuf, tcount := t.hufb.tcount } } ∧
      ∀ k : Fin Config.tbufLen, t.hufb.tcount.toNat ≤ k.val →
        readLoc t.hufb (.tbuf k) = readLoc s.hufb (.tbuf k)) ∧
    (exec (.treeLoad c) s = .next t →
      t = { s with hufb := { s.hufb with
        node := t.hufb.node, root := t.hufb.root, nextId := t.hufb.nextId, len := t.hufb.len,
        code := t.hufb.code, tableV := t.hufb.tableV, decPos := t.hufb.decPos, tcount := t.hufb.tcount } } ∨
      FaultEntered s t) ∧
    (exec .tableGen s = .next t →
      t = { s with hufb := { s.hufb with
        len := t.hufb.len, code := t.hufb.code, tableV := t.hufb.tableV } }) ∧
    (exec (.encSym b) s = .next t →
      (t = { s with hufb := { s.hufb with acc := t.hufb.acc, pos := t.hufb.pos, outq := t.hufb.outq } } ∧
        s.hufb.outq <+: t.hufb.outq) ∨
      FaultEntered s t) ∧
    (exec .encFlush s = .next t →
      t = { s with hufb := { s.hufb with
        acc := t.hufb.acc, pos := t.hufb.pos, outq := t.hufb.outq } } ∧ s.hufb.outq <+: t.hufb.outq) ∧
    (exec .decStart s = .next t →
      t = { s with hufb := { s.hufb with remain := t.hufb.remain, decPos := t.hufb.decPos } }) ∧
    (exec (.decByte b) s = .next t →
      (t = { s with hufb := { s.hufb with
        outq := t.hufb.outq, decPos := t.hufb.decPos, remain := t.hufb.remain } } ∧
        s.hufb.outq <+: t.hufb.outq) ∨
      FaultEntered s t)

/-! ## Invariants -/

/-- R47, R48, R50, R186: every invariant holds in the state right after reset. -/
def Obligations.ResetMeetsEveryInvariant : Prop := Inv State.reset.hufb

/-- R47: every step keeps the tree state a finite strictly binary tree, or no tree. -/
def Obligations.StepKeepsTheTree : Prop :=
  ∀ s t : State, TreeOk s.hufb → step s = .next t → TreeOk t.hufb

/-- R47, clause by clause: what the six clauses say follows from the invariant the steps keep; the root is nobody's
child (R12, the source's "acyclic"; the model's reading, assumption log 16). -/
def Obligations.TreeOkMeetsEveryClause : Prop :=
  ∀ h : Hufb, TreeOk h →
    (h.root = none → ∀ i, (peek h.node i).valid = false) ∧
    (∀ r, h.root = some r →
      (∀ i, (peek h.node i).valid = true ↔ Reaches h.node r i) ∧
      (peek h.node r).parent = none ∧ (∀ p, ¬ IsChild h.node p r) ∧
      (∀ n, (peek h.node n).valid = true → n ≠ r →
        ∃ p, (peek h.node n).parent = some p ∧ IsChild h.node p n ∧ ∀ q, IsChild h.node q n → q = p)) ∧
    (∀ n, (peek h.node n).valid = true → ((peek h.node n).left = none ↔ (peek h.node n).right = none)) ∧
    (∀ n, (peek h.node n).valid = true → ((peek h.node n).left = none ↔ n.val < 256)) ∧
    (∀ n c, (peek h.node n).left = some c → (peek h.node n).right ≠ some c) ∧
    (∀ n, (peek h.node n).valid = false → peek h.node n = Node.empty)

/-- R48: every step keeps the histogram invariant. -/
def Obligations.StepKeepsTheHistogramInvariant : Prop :=
  ∀ s t : State, HistOk s.hufb → step s = .next t → HistOk t.hufb

/-- R186: every step keeps the decoder position at the root or at a node with children, given the tree invariant
(kept by `StepKeepsTheTree`). -/
def Obligations.StepKeepsTheDecoderPosition : Prop :=
  ∀ s t : State, TreeOk s.hufb → DecPosOk s.hufb → step s = .next t → DecPosOk t.hufb

/-- R34, R43, R44, R64, R208: every step keeps POS in 1..8 with the unfilled bits of ACC 0, OUTQ within 32 bytes and empty
while FAULT = 1, CAUSE, FCMD and FINFO 0 while FAULT = 0, no cause that is never raised, NEXT_ID in 256..511 and
TCOUNT within TBUF. -/
def Obligations.StepKeepsTheRegisterInvariants : Prop :=
  ∀ s t : State, PackerOk s.hufb → FaultOk s.hufb → CountersOk s.hufb → step s = .next t →
    PackerOk t.hufb ∧ FaultOk t.hufb ∧ CountersOk t.hufb

/-- R43, R135: every step keeps the table: code bits from LEN on are 0, a table that is not valid is clear, and a valid
one is what TABLE_GEN makes of the current tree. -/
def Obligations.StepKeepsTheTable : Prop :=
  ∀ s t : State, TableOk s.hufb → step s = .next t → TableOk t.hufb

/-- R11, R20, R64: from a state that meets the invariants a step always has a next state: the model stops nowhere. -/
def Obligations.NoStepStopsInAnInvariantState : Prop :=
  ∀ s : State, Inv s.hufb → ∃ t : State, step s = .next t
end

