-- ==== Sys2Proof/Laws/State.lean ====
section
/-! SUPPORT. The small lemmas of the state: reading an array after writing it, the entries of an array, and one lemma
per field per update, each true by `rfl`. -/

namespace Sys2Proof.Machine

variable {α : Type} {n : Nat}

/-! ## Arrays -/

@[simp] theorem peek_poke_self (v : Vector α n) (i : Fin n) (a : α) : peek (poke v i a) i = a := by
  simp [peek, poke]

theorem peek_poke_of_ne (v : Vector α n) {i j : Fin n} (a : α) (h : j ≠ i) :
    peek (poke v i a) j = peek v j := by
  have : i.val ≠ j.val := fun e => h (Fin.ext e.symm)
  simp [peek, poke, Vector.getElem_set_ne, this]

theorem peek_poke (v : Vector α n) (i j : Fin n) (a : α) :
    peek (poke v i a) j = if j = i then a else peek v j := by
  split
  · subst_vars; simp
  · exact peek_poke_of_ne v a ‹_›

@[simp] theorem peek_replicate (a : α) (i : Fin n) : peek (Vector.replicate n a) i = a := by
  simp [peek]

@[simp] theorem peek_tabulate (f : Fin n → α) (i : Fin n) : peek (tabulate f) i = f i := by
  simp [peek, tabulate]

theorem vector_ext {v w : Vector α n} (h : ∀ i, peek v i = peek w i) : v = w := by
  apply Vector.ext
  intro i hi
  exact h ⟨i, hi⟩

theorem entries_eq (v : Vector α n) : entries v = (List.finRange n).map fun i => (i, peek v i) := by
  apply List.ext_getElem
  · simp [entries]
  · intro k h1 h2
    simp [entries, peek]

theorem mem_entries {v : Vector α n} {i : Fin n} {a : α} : (i, a) ∈ entries v ↔ peek v i = a := by
  simp only [entries_eq, List.mem_map, List.mem_finRange, true_and, Prod.mk.injEq]
  constructor
  · rintro ⟨j, rfl, h⟩; exact h
  · intro h; exact ⟨i, rfl, h⟩

/-! ## Fields after `emit` -/

section Emit
variable (b : Byte) (h : Hufb)

@[simp] theorem emit_fault : (emit b h).fault = h.fault := rfl
@[simp] theorem emit_lastCmd : (emit b h).lastCmd = h.lastCmd := rfl
@[simp] theorem emit_hist : (emit b h).hist = h.hist := rfl
@[simp] theorem emit_hstart : (emit b h).hstart = h.hstart := rfl
@[simp] theorem emit_node : (emit b h).node = h.node := rfl
@[simp] theorem emit_root : (emit b h).root = h.root := rfl
@[simp] theorem emit_tbuf : (emit b h).tbuf = h.tbuf := rfl
@[simp] theorem emit_len : (emit b h).len = h.len := rfl
@[simp] theorem emit_code : (emit b h).code = h.code := rfl
@[simp] theorem emit_tableV : (emit b h).tableV = h.tableV := rfl
@[simp] theorem emit_acc : (emit b h).acc = h.acc := rfl
@[simp] theorem emit_pos : (emit b h).pos = h.pos := rfl
@[simp] theorem emit_remain : (emit b h).remain = h.remain := rfl
@[simp] theorem emit_decPos : (emit b h).decPos = h.decPos := rfl
@[simp] theorem emit_outq : (emit b h).outq = h.outq ++ [b] := rfl

end Emit

/-! ## Fields after `faultEntry` -/

section FaultEntry
variable (r : Raise) (h : Hufb)

@[simp] theorem faultEntry_fault : (faultEntry r h).fault = true := rfl
@[simp] theorem faultEntry_cause : (faultEntry r h).cause = r.cause := rfl
@[simp] theorem faultEntry_fcmd : (faultEntry r h).fcmd = h.lastCmd := rfl
@[simp] theorem faultEntry_finfoSub : (faultEntry r h).finfoSub = r.sub := rfl
@[simp] theorem faultEntry_finfoValue : (faultEntry r h).finfoValue = r.value := rfl
@[simp] theorem faultEntry_lastCmd : (faultEntry r h).lastCmd = h.lastCmd := rfl
@[simp] theorem faultEntry_fie : (faultEntry r h).fie = h.fie := rfl
@[simp] theorem faultEntry_hist : (faultEntry r h).hist = h.hist := rfl
@[simp] theorem faultEntry_hstart : (faultEntry r h).hstart = h.hstart := rfl
@[simp] theorem faultEntry_node : (faultEntry r h).node = h.node := rfl
@[simp] theorem faultEntry_root : (faultEntry r h).root = h.root := rfl
@[simp] theorem faultEntry_nextId : (faultEntry r h).nextId = h.nextId := rfl
@[simp] theorem faultEntry_tbuf : (faultEntry r h).tbuf = h.tbuf := rfl
@[simp] theorem faultEntry_tcount : (faultEntry r h).tcount = h.tcount := rfl
@[simp] theorem faultEntry_len : (faultEntry r h).len = h.len := rfl
@[simp] theorem faultEntry_code : (faultEntry r h).code = h.code := rfl
@[simp] theorem faultEntry_tableV : (faultEntry r h).tableV = h.tableV := rfl
@[simp] theorem faultEntry_acc : (faultEntry r h).acc = h.acc := rfl
@[simp] theorem faultEntry_pos : (faultEntry r h).pos = h.pos := rfl
@[simp] theorem faultEntry_decLenLo : (faultEntry r h).decLenLo = h.decLenLo := rfl
@[simp] theorem faultEntry_decLenHi : (faultEntry r h).decLenHi = h.decLenHi := rfl
@[simp] theorem faultEntry_remain : (faultEntry r h).remain = h.remain := rfl
@[simp] theorem faultEntry_decPos : (faultEntry r h).decPos = h.decPos := rfl
@[simp] theorem faultEntry_outq : (faultEntry r h).outq = h.outq := rfl

theorem faultEntry_eq_faulted :
    faultEntry r h = faulted h r.cause r.sub r.value := rfl

end FaultEntry

/-! ## Fields after `treeClear` -/

section TreeClear
variable (h : Hufb)

@[simp] theorem treeClear_eq_cleared : treeClear h = cleared h := rfl
@[simp] theorem cleared_fault : (cleared h).fault = h.fault := rfl
@[simp] theorem cleared_lastCmd : (cleared h).lastCmd = h.lastCmd := rfl
@[simp] theorem cleared_hist : (cleared h).hist = h.hist := rfl
@[simp] theorem cleared_hstart : (cleared h).hstart = h.hstart := rfl
@[simp] theorem cleared_node : (cleared h).node = Vector.replicate Config.nodeSlots Node.empty := rfl
@[simp] theorem cleared_root : (cleared h).root = none := rfl
@[simp] theorem cleared_nextId : (cleared h).nextId = 256 := rfl
@[simp] theorem cleared_tbuf : (cleared h).tbuf = h.tbuf := rfl
@[simp] theorem cleared_tcount : (cleared h).tcount = h.tcount := rfl
@[simp] theorem cleared_len : (cleared h).len = Vector.replicate Config.symCount 0 := rfl
@[simp] theorem cleared_code : (cleared h).code = Vector.replicate Config.symCount 0 := rfl
@[simp] theorem cleared_tableV : (cleared h).tableV = false := rfl
@[simp] theorem cleared_remain : (cleared h).remain = h.remain := rfl
@[simp] theorem cleared_decPos : (cleared h).decPos = h.decPos := rfl
@[simp] theorem cleared_outq : (cleared h).outq = h.outq := rfl
@[simp] theorem cleared_pos : (cleared h).pos = h.pos := rfl
@[simp] theorem cleared_acc : (cleared h).acc = h.acc := rfl

end TreeClear

/-! ## How a command ends -/

section Conclude
variable {s t : State}

@[simp] theorem conclude_done (h : Hufb) : Effect.conclude s (.done h) = .next { s with hufb := h } := rfl

@[simp] theorem conclude_raise (r : Raise) :
    Effect.conclude s (.raise r) = .next { s with hufb := faultEntry r s.hufb } := rfl

@[simp] theorem conclude_stuck (f : Fault) : Effect.conclude s (.stuck f) = .fault f := rfl

/-- All a command can do when it answers a next state: its block is the result it committed, or the old block with
the fault entered. The run's data never change. -/
theorem conclude_next {e : Effect} (h : Effect.conclude s e = .next t) :
    (∃ b, e = .done b ∧ t = { s with hufb := b }) ∨
      ∃ r, e = .raise r ∧ t = { s with hufb := faultEntry r s.hufb } := by
  cases e with
  | done b => exact .inl ⟨b, rfl, by simpa using h.symm⟩
  | raise r => exact .inr ⟨r, rfl, by simpa using h.symm⟩
  | stuck f => simp at h

end Conclude

/-! ## The reset state -/

@[simp] theorem peek_reset_hist (i : NodeIx) : peek Hufb.reset.hist i = 0 := peek_replicate _ _
@[simp] theorem peek_reset_node (i : NodeIx) : peek Hufb.reset.node i = Node.empty := peek_replicate _ _
@[simp] theorem peek_reset_tbuf (k : Fin Config.tbufLen) : peek Hufb.reset.tbuf k = 0 := peek_replicate _ _
@[simp] theorem peek_reset_len (c : SymIx) : peek Hufb.reset.len c = 0 := peek_replicate _ _
@[simp] theorem peek_reset_code (c : SymIx) : peek Hufb.reset.code c = 0 := peek_replicate _ _

end Sys2Proof.Machine
end

