-- ==== Sys2Proof/Laws/Encoding.lean ====
section
/-! SUPPORT. Lemmas about the command word: the opcode map read both ways, the reserved bits of a format as a field,
the fields of an encoded command, well-formedness, byte lanes. -/

namespace Sys2Proof

/-! ## The opcode map -/

theorem ofOpc_eq_some {opc : Byte} {m : Mnemonic} : Mnemonic.ofOpc opc = some m ↔ m.opc = opc := by
  constructor
  · intro h
    simpa using List.find?_some h
  · rintro rfl
    cases m <;> decide

theorem ofOpc_eq_none {opc : Byte} : Mnemonic.ofOpc opc = none ↔ ∀ m : Mnemonic, m.opc ≠ opc := by
  constructor
  · intro h m e
    simp [ofOpc_eq_some.2 e] at h
  · intro h
    cases e : Mnemonic.ofOpc opc with
    | none => rfl
    | some m => exact absurd (ofOpc_eq_some.1 e) (h m)

/-- No two rows of R93 share an OPC. -/
theorem opc_injective {m m' : Mnemonic} (h : m.opc = m'.opc) : m = m' := by
  have := (ofOpc_eq_some.2 h).symm.trans (ofOpc_eq_some.2 rfl)
  simpa using this

/-- Every row of R93 is in the table. -/
theorem mem_all (m : Mnemonic) : m ∈ Mnemonic.all := by
  cases m <;> decide

/-! ## Decoding -/

/-- All that decoding can answer. -/
theorem decode_eq_ok {w : Word} {i : Instr} :
    decode w = .ok i ↔
      ∃ m : Mnemonic, m.opc = opcField w ∧ w &&& m.format.reserved = 0#32 ∧
        i = m.instr (byteField w) (cntField w) := by
  unfold decode
  cases e : Mnemonic.ofOpc (opcField w) with
  | none =>
    have := ofOpc_eq_none.1 e
    simp only [reduceCtorEq, false_iff, not_exists, not_and]
    intro m hm
    exact absurd hm (this m)
  | some m =>
    have hm := ofOpc_eq_some.1 e
    dsimp only
    split
    · simp only [Except.ok.injEq]
      constructor
      · rintro rfl; exact ⟨m, hm, ‹_›, rfl⟩
      · rintro ⟨m', h1, h2, rfl⟩
        rw [opc_injective (h1.trans hm.symm)]
    · simp only [reduceCtorEq, false_iff, not_exists, not_and]
      intro m' h1 h2
      rw [opc_injective (h1.trans hm.symm)] at h2
      contradiction

theorem decode_unknown {w : Word} (h : ∀ m : Mnemonic, m.opc ≠ opcField w) :
    decode w = .error (.unknownOpc (opcField w)) := by
  simp [decode, ofOpc_eq_none.2 h]

theorem decode_reserved {w : Word} {m : Mnemonic} (h : m.opc = opcField w)
    (hr : w &&& m.format.reserved ≠ 0#32) : decode w = .error (.reservedBits (opcField w)) := by
  simp [decode, ofOpc_eq_some.2 h, hr]

theorem decode_eq_error {w : Word} {e : DecodeError} (h : decode w = .error e) :
    (e = .unknownOpc (opcField w) ∧ ∀ m : Mnemonic, m.opc ≠ opcField w) ∨
      (e = .reservedBits (opcField w) ∧
        ∃ m : Mnemonic, m.opc = opcField w ∧ w &&& m.format.reserved ≠ 0#32) := by
  unfold decode at h
  cases e' : Mnemonic.ofOpc (opcField w) with
  | none =>
    simp only [e', Except.error.injEq] at h
    exact .inl ⟨h.symm, ofOpc_eq_none.1 e'⟩
  | some m =>
    simp only [e'] at h
    split at h
    · simp at h
    · exact .inr ⟨by simpa using h.symm, m, ofOpc_eq_some.1 e', ‹_›⟩

/-- A command is its row of R93 with its operand. -/
theorem instr_of_mnemonic (i : Instr) :
    i = i.mnemonic.instr (byteField (encode i)) (cntField (encode i)) := by
  have hb : ∀ b o : Byte, byteField (encodeB b o) = b := by
    intro b o
    apply BitVec.eq_of_getLsbD_eq
    intro k hk
    simp only [byteField, encodeB, BitVec.getLsbD_extractLsb', BitVec.getLsbD_append]
    interval_cases k <;> simp
  have hc : ∀ (c : BitVec 16) (o : Byte), cntField (encodeC c o) = c := by
    intro c o
    apply BitVec.eq_of_getLsbD_eq
    intro k hk
    simp only [cntField, encodeC, BitVec.getLsbD_extractLsb', BitVec.getLsbD_append]
    interval_cases k <;> simp
  cases i <;> simp [Instr.mnemonic, Mnemonic.instr, encode, hb, hc]

/-! ## Reserved bits (R94) -/

/-- The mask of a format's reserved bits says what R94 says of them as a field. -/
theorem Machine.reservedClear_iff (f : Format) (w : Word) : Machine.reservedClear f w ↔ w &&& f.reserved = 0#32 := by
  have key : ∀ k < 32, (Format.reserved .N).getLsbD k = decide (8 ≤ k) ∧
      (Format.reserved .B).getLsbD k = decide (16 ≤ k) ∧
      (Format.reserved .C).getLsbD k = decide (24 ≤ k) := by
    intro k hk
    interval_cases k <;> decide
  have gen : ∀ (n m : Nat) (r : Word), n + m = 32 → (∀ k < 32, r.getLsbD k = decide (n ≤ k)) →
      (w.extractLsb' n m = 0#m ↔ w &&& r = 0#32) := by
    intro n m r hnm hr
    constructor
    · intro h
      apply BitVec.eq_of_getLsbD_eq
      intro k hk
      have := congrArg (fun v => v.getLsbD (k - n)) h
      simp only [BitVec.getLsbD_extractLsb', BitVec.getLsbD_zero] at this
      rw [BitVec.getLsbD_and, hr k hk]
      by_cases hkn : n ≤ k
      · have h1 : k - n < m := by omega
        have h2 : n + (k - n) = k := by omega
        simp [h1, h2] at this
        simp [this]
      · simp [hkn]
    · intro h
      apply BitVec.eq_of_getLsbD_eq
      intro k hk
      have := congrArg (fun v => v.getLsbD (n + k)) h
      simp only [BitVec.getLsbD_and, BitVec.getLsbD_zero] at this
      rw [hr (n+k) (by omega)] at this
      simp at this
      simp [BitVec.getLsbD_extractLsb', this]
  cases f
  · exact gen 8 24 _ rfl fun k hk => (key k hk).1
  · exact gen 16 16 _ rfl fun k hk => (key k hk).2.1
  · exact gen 24 8 _ rfl fun k hk => (key k hk).2.2

/-! ## Well-formedness -/

/-- The operand ranges of R92 hold of every command, by the widths of the operands. -/
theorem instr_wellFormed (i : Instr) : i.wellFormed = true := by
  cases i with
  | histAdd b => simpa [Instr.wellFormed] using b.isLt
  | encSym b => simpa [Instr.wellFormed] using b.isLt
  | decByte b => simpa [Instr.wellFormed] using b.isLt
  | treeLoad c =>
    have h1 := BitVec.toInt_lt (x := c)
    have h2 := BitVec.le_toInt c
    simp only [Instr.wellFormed, Bool.and_eq_true, decide_eq_true_eq]
    omega
  | _ => rfl

/-! ## Byte lanes (R65) -/

/-- A word is its four byte lanes. -/
theorem wordOfLanes_byteLane (w : Word) :
    wordOfLanes (byteLane w 0) (byteLane w 1) (byteLane w 2) (byteLane w 3) = w := by
  apply BitVec.eq_of_getLsbD_eq
  intro k hk
  simp only [wordOfLanes, byteLane, BitVec.getLsbD_append, BitVec.getLsbD_extractLsb']
  interval_cases k <;> simp

/-! ## Host program lines (R96) -/

/-- The elements of `TBUF_FILL`, one by one: each is a `WR` of its value at its address. -/
theorem elemsOk_iff {k : Nat} {vs : List Nat} :
    elemsOk k vs = true ↔ ∀ j (h : j < vs.length), wrOk (elemAddr (k + j)) vs[j] = true := by
  induction vs generalizing k with
  | nil => simp [elemsOk]
  | cons v vs ih =>
    rw [elemsOk, Bool.and_eq_true, ih]
    constructor
    · rintro ⟨h0, h⟩ j hj
      cases j with
      | zero => exact h0
      | succ j =>
        have := h j (by simpa using hj)
        rwa [show k + 1 + j = k + (j + 1) by omega] at this
    · intro h
      refine ⟨h 0 (by simp), fun j hj => ?_⟩
      have := h (j + 1) (by simpa using hj)
      rwa [show k + (j + 1) = k + 1 + j by omega] at this

theorem tbufFillOps_eq (k : Nat) (vs : List Nat) :
    tbufFillOps k vs = vs.mapIdx fun j v => busWr (elemAddr (k + j)) v := by
  induction vs generalizing k with
  | nil => rfl
  | cons v vs ih =>
    rw [tbufFillOps, ih, List.mapIdx_cons]
    congr 2
    funext j v
    rw [show k + 1 + j = k + (j + 1) by omega]

end Sys2Proof
end

