-- ==== Sys2Proof/Laws/Frames.lean ====
section
/-! SUPPORT. What each command's pseudocode can answer: for a command that completes, the fields it may have changed, the
rest written out as unchanged; for one that raises, the causes it can raise; and `exec` read through these. -/

namespace Sys2Proof.Machine

/-! ## Histogram -/

theorem histAdd_done {b : Byte} {h h' : Hufb} (e : histAdd b h = .done h') :
    peek h.hist (symNode b) ≠ maxWeight ∧
      h' = { h with
        hist := poke h.hist (symNode b) (peek h.hist (symNode b) + 1)
        hstart := some (lowerStart h.hstart (symNode b)) } := by
  unfold histAdd at e
  split at e
  · simp at e
  · exact ⟨‹_›, by simpa using e.symm⟩

theorem histAdd_raise {b : Byte} {h : Hufb} {r : Raise} (e : histAdd b h = .raise r) :
    r = ⟨.weightOverflow, 1, byteValue b⟩ := by
  unfold histAdd at e
  split at e <;> simp_all

theorem histAdd_not_stuck {b : Byte} {h : Hufb} {f : Fault} : histAdd b h ≠ .stuck f := by
  unfold histAdd
  split <;> simp

/-! ## Tree builder -/

/-- The fields a merge leaves alone. -/
theorem merge_frame (a b : Candidate) (h : Hufb) :
    merge a b h =
      { h with node := (merge a b h).node, hist := (merge a b h).hist, nextId := h.nextId + 1 } := rfl

theorem buildLoop_done : ∀ {fuel : Nat} {h h' : Hufb}, buildLoop fuel h = .done h' →
    h' = { h with
      node := h'.node, hist := h'.hist, nextId := h'.nextId, root := h'.root, decPos := h'.root }
  | 0, h, h', e => by simp [buildLoop] at e
  | fuel + 1, h, h', e => by
    unfold buildLoop at e
    split at e
    · cases e; rfl
    split at e
    · cases e; rfl
    split at e
    · simp at e
    · have ih := buildLoop_done (fuel := fuel) e
      exact ih

theorem buildLoop_raise : ∀ {fuel : Nat} {h : Hufb} {r : Raise}, buildLoop fuel h = .raise r →
    r.cause = .weightOverflow ∧ r.sub = 2
  | 0, h, r, e => by simp [buildLoop] at e
  | fuel + 1, h, r, e => by
    unfold buildLoop at e
    split at e
    · simp at e
    split at e
    · simp at e
    split at e
    · cases e; exact ⟨rfl, rfl⟩
    · have ih := buildLoop_raise (fuel := fuel) e
      exact ih

theorem treeBuild_done {h h' : Hufb} (e : treeBuild h = .done h') :
    h' = { cleared h with
      node := h'.node, hist := h'.hist, nextId := h'.nextId, root := h'.root, decPos := h'.root } :=
  buildLoop_done e

theorem treeBuild_raise {h : Hufb} {r : Raise} (e : treeBuild h = .raise r) :
    r.cause = .weightOverflow ∧ r.sub = 2 := buildLoop_raise e

/-! ## Tree codec -/

theorem treeSerialize_done {h h' : Hufb} (e : treeSerialize h = .done h') :
    ∃ es, serialize h.node Config.nodeSlots h.root = some es ∧ es.length ≤ Config.tbufLen ∧
      h' = { h with tbuf := storeElems es h.tbuf, tcount := BitVec.ofNat 11 es.length } := by
  unfold treeSerialize at e
  split at e
  · simp at e
  split at e
  · exact ⟨_, ‹_›, ‹_›, by simpa using e.symm⟩
  · simp at e

theorem treeSerialize_not_raise {h : Hufb} {r : Raise} : treeSerialize h ≠ .raise r := by
  unfold treeSerialize
  split
  · simp
  split <;> simp

theorem treeLoad_done {c : BitVec 16} {h h' : Hufb} (e : treeLoad c h = .done h') :
    countInRange c = true ∧ ∃ root w,
      deserialize h.tbuf c.toNat c.toNat none { pos := 0, node := (cleared h).node } = .ok (root, w) ∧
      h' = { cleared h with
        node := w.node, root := root, decPos := root, tcount := BitVec.ofNat 11 w.pos } := by
  unfold treeLoad at e
  split at e
  · refine ⟨‹_›, ?_⟩
    split at e
    · simp at e
    · exact ⟨_, _, ‹_›, by simpa using e.symm⟩
  · simp at e

theorem shapeCheck_cause {v : NodeIx} {q : Nat} {l r : Option NodeIx} {x : Raise}
    (e : shapeCheck v q l r = some x) : x.cause = .btreeCorrupted := by
  unfold shapeCheck at e
  repeat' split at e
  all_goals simp at e; try (subst e; rfl)

theorem deserialize_error {tbuf : Vector Elem Config.tbufLen} {c : Nat} :
    ∀ {depth : Nat} {parent : Option NodeIx} {w : Walk} {r : Raise},
      deserialize tbuf c depth parent w = .error r → r.cause = .btreeCorrupted
  | 0, parent, w, r, e => by
    simp only [deserialize, Except.error.injEq] at e
    subst e; rfl
  | depth + 1, parent, w, r, e => by
    unfold deserialize at e
    split at e
    · cases e; rfl
    split at e
    · cases e
    split at e
    · cases e; rfl
    split at e
    · cases e; rfl
    split at e
    · cases e; exact deserialize_error ‹_›
    split at e
    · cases e; exact deserialize_error ‹_›
    split at e
    · cases e; exact shapeCheck_cause ‹_›
    · cases e

theorem treeLoad_raise {c : BitVec 16} {h : Hufb} {r : Raise} (e : treeLoad c h = .raise r) :
    r.cause = .btreeOverflow ∨ r.cause = .btreeCorrupted := by
  unfold treeLoad at e
  split at e
  · split at e
    · cases e; exact .inr (deserialize_error ‹_›)
    · simp at e
  · cases e; exact .inl rfl

theorem treeLoad_not_stuck {c : BitVec 16} {h : Hufb} {f : Fault} : treeLoad c h ≠ .stuck f := by
  unfold treeLoad
  split
  · split <;> simp
  · simp

/-! ## Symbol table -/

theorem tableGen_done {h h' : Hufb} (e : tableGen h = .done h') :
    ∃ es, tableEntries h = some es ∧
      h' = { h with
        len := tabulate fun s => ((es[s.val]?).getD (entryOfPath [])).len
        code := tabulate fun s => ((es[s.val]?).getD (entryOfPath [])).code
        tableV := true } := by
  unfold tableGen at e
  split at e
  · simp at e
  · exact ⟨_, ‹_›, by simpa using e.symm⟩

theorem tableGen_not_raise {h : Hufb} {r : Raise} : tableGen h ≠ .raise r := by
  unfold tableGen
  split <;> simp

/-! ## Encoder -/

theorem putBit_frame (h : Hufb) (x : Bool) :
    putBit h x =
      { h with acc := (putBit h x).acc, pos := (putBit h x).pos, outq := (putBit h x).outq } := by
  unfold putBit
  dsimp only
  split <;> rfl

theorem putBits_frame (xs : List Bool) (h : Hufb) :
    putBits xs h =
      { h with acc := (putBits xs h).acc, pos := (putBits xs h).pos, outq := (putBits xs h).outq } := by
  induction xs generalizing h with
  | nil => rfl
  | cons x xs ih =>
    have e : putBits (x :: xs) h = putBits xs (putBit h x) := rfl
    rw [e, ih, putBit_frame]

theorem putBit_outq (h : Hufb) (x : Bool) : h.outq <+: (putBit h x).outq := by
  unfold putBit
  dsimp only
  split
  · exact ⟨_, rfl⟩
  · exact List.prefix_rfl

theorem putBits_outq (xs : List Bool) (h : Hufb) : h.outq <+: (putBits xs h).outq := by
  induction xs generalizing h with
  | nil => exact List.prefix_rfl
  | cons x xs ih => exact (putBit_outq h x).trans (ih _)

theorem encSym_done {b : Byte} {h h' : Hufb} (e : encSym b h = .done h') :
    h.tableV = true ∧ peek h.len (symIx b) ≠ 0 ∧ h' = putBits (codeBits h (symIx b)) h := by
  unfold encSym at e
  split at e
  · simp at e
  split at e
  · simp at e
  · rename_i h1 h2
    exact ⟨by simpa using h1, h2, by simpa using e.symm⟩

theorem encSym_raise {b : Byte} {h : Hufb} {r : Raise} (e : encSym b h = .raise r) :
    r.cause = .invalidArgument := by
  unfold encSym at e
  split at e
  · cases e; rfl
  split at e
  · cases e; rfl
  · simp at e

theorem encSym_not_stuck {b : Byte} {h : Hufb} {f : Fault} : encSym b h ≠ .stuck f := by
  unfold encSym
  split
  · simp
  split <;> simp

theorem encFlush_frame (h : Hufb) :
    encFlush h =
      { h with acc := (encFlush h).acc, pos := (encFlush h).pos, outq := (encFlush h).outq } := by
  unfold encFlush
  split <;> rfl

theorem encFlush_outq (h : Hufb) : h.outq <+: (encFlush h).outq := by
  unfold encFlush
  split
  · exact ⟨_, rfl⟩
  · exact List.prefix_rfl

/-! ## Decoder -/

theorem emitSymbol_ok {i : NodeIx} {h h' : Hufb} (e : emitSymbol i h = .ok h') :
    i.val < Config.symCount ∧
      h' = { emit (BitVec.ofNat 8 i.val) h with remain := h.remain - 1 } := by
  unfold emitSymbol indexByte at e
  split at e
  · simp at e
  · rename_i b hb
    split at hb
    · refine ⟨‹_›, ?_⟩
      simp only [Option.some.injEq] at hb
      subst hb
      simpa using e.symm
    · simp at hb

/-- All one bit can do: emit the single leaf, step to a node with children, or reach a leaf, emit it and go back to the
root. -/
theorem decBit_ok {r : NodeIx} {x : Bool} {h h' : Hufb} (e : decBit r x h = .ok h') :
    ((peek h.node r).left = none ∧ r.val < Config.symCount ∧
        h' = { emit (BitVec.ofNat 8 r.val) h with remain := h.remain - 1 }) ∨
      ∃ d c, (peek h.node r).left ≠ none ∧ h.decPos = some d ∧
        (if x then (peek h.node d).right else (peek h.node d).left) = some c ∧
        (((peek h.node c).left = none ∧ c.val < Config.symCount ∧
            h' = { emit (BitVec.ofNat 8 c.val) h with remain := h.remain - 1, decPos := some r }) ∨
          ((peek h.node c).left ≠ none ∧ h' = { h with decPos := some c })) := by
  unfold decBit at e
  split at e
  · obtain ⟨h1, h2⟩ := emitSymbol_ok e
    exact .inl ⟨‹_›, h1, h2⟩
  · refine .inr ?_
    split at e
    · simp at e
    split at e
    · simp at e
    refine ⟨_, _, ‹_›, ‹_›, ‹_›, ?_⟩
    split at e
    · split at e
      · simp at e
      · obtain ⟨h1, h2⟩ := emitSymbol_ok ‹_›
        refine .inl ⟨‹_›, h1, ?_⟩
        subst h2
        simpa using e.symm
    · exact .inr ⟨‹_›, by simpa using e.symm⟩

theorem decBit_frame {r : NodeIx} {x : Bool} {h h' : Hufb} (e : decBit r x h = .ok h') :
    h' = { h with outq := h'.outq, decPos := h'.decPos, remain := h'.remain } ∧ h.outq <+: h'.outq := by
  rcases decBit_ok e with ⟨-, -, rfl⟩ | ⟨d, c, -, -, -, ⟨-, -, rfl⟩ | ⟨-, rfl⟩⟩
  · exact ⟨rfl, ⟨_, rfl⟩⟩
  · exact ⟨rfl, ⟨_, rfl⟩⟩
  · exact ⟨rfl, List.prefix_rfl⟩

theorem decBits_frame {r : NodeIx} : ∀ {xs : List Bool} {h h' : Hufb}, decBits r xs h = .ok h' →
    h' = { h with outq := h'.outq, decPos := h'.decPos, remain := h'.remain } ∧ h.outq <+: h'.outq
  | [], h, h', e => by
    simp only [decBits, Except.ok.injEq] at e
    subst e
    exact ⟨rfl, List.prefix_rfl⟩
  | x :: xs, h, h', e => by
    unfold decBits at e
    split at e
    · cases e; exact ⟨rfl, List.prefix_rfl⟩
    split at e
    · simp at e
    · obtain ⟨h1, h2⟩ := decBit_frame ‹_›
      obtain ⟨h3, h4⟩ := decBits_frame e
      refine ⟨?_, h2.trans h4⟩
      rw [h1] at h3
      exact h3

theorem decByte_done {b : Byte} {h h' : Hufb} (e : decByte b h = .done h') :
    (h.remain = 0 ∧ h' = h) ∨
      (h.remain ≠ 0 ∧ ∃ r, h.root = some r ∧ decBits r (bitsMsbFirst b) h = .ok h') := by
  unfold decByte at e
  split at e
  · exact .inl ⟨‹_›, by simpa using e.symm⟩
  · refine .inr ⟨‹_›, ?_⟩
    split at e
    · simp at e
    split at e
    · simp at e
    · refine ⟨_, ‹_›, ?_⟩
      simp only [Effect.done.injEq] at e
      subst e
      assumption

theorem decByte_frame {b : Byte} {h h' : Hufb} (e : decByte b h = .done h') :
    h' = { h with outq := h'.outq, decPos := h'.decPos, remain := h'.remain } ∧ h.outq <+: h'.outq := by
  rcases decByte_done e with ⟨-, rfl⟩ | ⟨-, r, -, h2⟩
  · exact ⟨rfl, List.prefix_rfl⟩
  · exact decBits_frame h2

theorem decByte_raise {b : Byte} {h : Hufb} {r : Raise} (e : decByte b h = .raise r) :
    r = ⟨.invalidArgument, 3, byteValue b⟩ := by
  unfold decByte at e
  split at e
  · simp at e
  split at e
  · simpa using e.symm
  · split at e <;> simp at e

/-! ## All commands -/

/-- The effect a command other than RESET concludes with. -/
def effectOf (i : Instr) (h : Hufb) : Effect :=
  match i with
  | .nop => .done h
  | .reset => .done Hufb.reset
  | .histReset => .done (histReset h)
  | .histAdd b => histAdd b h
  | .treeReset => .done (treeReset h)
  | .treeBuild => treeBuild h
  | .treeSerialize => treeSerialize h
  | .treeLoad c => treeLoad c h
  | .tableGen => tableGen h
  | .encSym b => encSym b h
  | .encFlush => .done (encFlush h)
  | .decStart => .done (decStart h)
  | .decByte b => decByte b h

/-- Every command is the conclusion of its effect on the block. -/
theorem exec_eq_conclude (i : Instr) (s : State) : exec i s = Effect.conclude s (effectOf i s.hufb) := by
  cases i <;> rfl

/-- All a command can do when it answers a next state. -/
theorem exec_next {i : Instr} {s t : State} (e : exec i s = .next t) :
    (∃ h, effectOf i s.hufb = .done h ∧ t = { s with hufb := h }) ∨
      ∃ r, effectOf i s.hufb = .raise r ∧ t = { s with hufb := faultEntry r s.hufb } :=
  conclude_next (exec_eq_conclude i s ▸ e)

/-- A command never changes the run's data. -/
theorem exec_env {i : Instr} {s t : State} (e : exec i s = .next t) : t.env = s.env := by
  rcases exec_next e with ⟨h, -, rfl⟩ | ⟨r, -, rfl⟩ <;> rfl

/-- The causes a command can raise (R200, R208). -/
theorem effectOf_raise {i : Instr} {h : Hufb} {r : Raise} (e : effectOf i h = .raise r) :
    r.cause = .invalidArgument ∨ r.cause = .btreeOverflow ∨ r.cause = .btreeCorrupted ∨
      r.cause = .weightOverflow := by
  cases i with
  | histAdd b => simp [histAdd_raise e]
  | treeBuild => simp [(treeBuild_raise e).1]
  | treeSerialize => exact absurd e treeSerialize_not_raise
  | treeLoad c => rcases treeLoad_raise e with h | h <;> simp [h]
  | tableGen => exact absurd e tableGen_not_raise
  | encSym b => simp [encSym_raise e]
  | decByte b => simp [decByte_raise e]
  | _ => simp [effectOf] at e

/-- A command that completes leaves FAULT, CAUSE, FCMD, FINFO, LAST_CMD and the host's own registers alone, unless it is
RESET. -/
theorem effectOf_done_frame {i : Instr} {h h' : Hufb} (hi : i ≠ .reset) (e : effectOf i h = .done h') :
    h'.fault = h.fault ∧ h'.cause = h.cause ∧ h'.fcmd = h.fcmd ∧ h'.finfoSub = h.finfoSub ∧
      h'.finfoValue = h.finfoValue ∧ h'.lastCmd = h.lastCmd ∧ h'.fie = h.fie ∧ h'.decLenLo = h.decLenLo ∧
      h'.decLenHi = h.decLenHi := by
  cases i with
  | reset => exact absurd rfl hi
  | nop => cases e; simp
  | histReset => cases e; simp [histReset]
  | histAdd b => rw [(histAdd_done e).2]; simp
  | treeReset => cases e; simp [treeReset, cleared]
  | treeBuild => rw [treeBuild_done e]; simp [cleared]
  | treeSerialize => obtain ⟨es, -, -, rfl⟩ := treeSerialize_done e; simp
  | treeLoad c => obtain ⟨-, root, w, -, rfl⟩ := treeLoad_done e; simp [cleared]
  | tableGen => obtain ⟨es, -, rfl⟩ := tableGen_done e; simp
  | encSym b => rw [(encSym_done e).2.2, putBits_frame]; simp
  | encFlush =>
    simp only [effectOf, Effect.done.injEq] at e
    rw [← e, encFlush_frame]; simp
  | decStart => cases e; simp [decStart]
  | decByte b => rw [(decByte_frame e).1]; simp

end Sys2Proof.Machine
end

