-- ==== Sys2Proof/Laws/Bus.lean ====
section
/-! SUPPORT. Lemmas about the register interface and the step: which word an access names, where a read or a write of a
word has no value, the bits of the word layouts, and what a CMD write leaves of the run's data. -/

namespace Sys2Proof.Machine

/-! ## Accesses -/

theorem accessLoc_eq_some {a : Addr} {n : Nat} {l : Loc} :
    accessLoc a n = some l ↔ n = 4 ∧ locate a.toNat = some l := by
  unfold accessLoc
  split <;> simp_all [Config.busBytes]

theorem accessLoc_cmdAddr : accessLoc cmdAddr 4 = some (.reg .cmd) := by decide +kernel

theorem isCmdWrite_cmdAddr (w : Word) : isCmdWrite (.write cmdAddr 4 w) = true := by
  simp [isCmdWrite, accessLoc_cmdAddr]

/-- CMD is the one mapped word that cannot be read (R63). -/
theorem readLoc_eq_none {h : Hufb} {l : Loc} : readLoc h l = none ↔ l = .reg .cmd := by
  cases l with
  | reg r => cases r <;> simp [readLoc, readReg]
  | _ => simp [readLoc]

/-- A word is not stored to when it is read-only, or is CMD (R63). -/
theorem writeLoc_eq_none {h : Hufb} {v : Word} {l : Loc} :
    writeLoc h v l = none ↔ ¬ isWritable l ∨ l = .reg .cmd := by
  cases l with
  | reg r => cases r <;> simp [writeLoc, isWritable]
  | _ => simp [writeLoc, isWritable]

/-- All a host write to a stored word can change: CTRL.FIE, DEC_LEN and TBUF. -/
theorem writeLoc_frame {h h' : Hufb} {v : Word} {l : Loc} (e : writeLoc h v l = some h') :
    h' = { h with fie := h'.fie, decLenLo := h'.decLenLo, decLenHi := h'.decLenHi, tbuf := h'.tbuf } := by
  cases l with
  | reg r => cases r <;> simp [writeLoc] at e <;> subst e <;> rfl
  | tbuf k => simp only [writeLoc, Option.some.injEq] at e; subst e; rfl
  | _ => simp [writeLoc] at e

/-- All a write to a word other than CMD can do: the block changes by `writeLoc` alone, one answer is added. -/
theorem storeWrite_frame (a : Addr) (n : Nat) (v : Word) (s : State) :
    (storeWrite a n v s).hufb =
        { s.hufb with
          fie := (storeWrite a n v s).hufb.fie, decLenLo := (storeWrite a n v s).hufb.decLenLo,
          decLenHi := (storeWrite a n v s).hufb.decLenHi, tbuf := (storeWrite a n v s).hufb.tbuf } ∧
      ∃ r, (storeWrite a n v s).env = { s.env with responses := s.env.responses ++ [r] } := by
  unfold storeWrite
  split
  · rename_i h e
    obtain ⟨l, -, hl⟩ := Option.bind_eq_some_iff.1 e
    exact ⟨writeLoc_frame hl, .done, rfl⟩
  · exact ⟨rfl, .error, rfl⟩

/-! ## The CMD write -/

theorem discarded_eq_false {w : Word} {h : Hufb} :
    discarded w h = false ↔ h.fault = false ∨ w = resetWord := by
  unfold discarded
  cases h.fault <;> simp

/-- All that issuing a word can answer: an illegal word enters its fault, a command is executed. -/
theorem issue_cases (w : Word) (s : State) :
    (∃ e, decode w = .error e ∧
        issue w s = .next { s with hufb := faultEntry (illegalRaise e) { s.hufb with lastCmd := w } }) ∨
      ∃ i, decode w = .ok i ∧ issue w s = exec i { s with hufb := { s.hufb with lastCmd := w } } := by
  unfold issue
  cases decode w with
  | error e => exact .inl ⟨e, rfl, rfl⟩
  | ok i => exact .inr ⟨i, rfl, rfl⟩

theorem issue_env {w : Word} {s t : State} (e : issue w s = .next t) : t.env = s.env := by
  rcases issue_cases w s with ⟨x, -, h⟩ | ⟨i, -, h⟩
  · rw [h] at e; cases e; rfl
  · rw [h] at e; exact (exec_env e).trans rfl

theorem cmdWrite_env {w : Word} {s t : State} (e : cmdWrite w s = .next t) :
    t.env = { s.env with responses := s.env.responses ++ [.done] } := by
  unfold cmdWrite at e
  split at e
  · cases e; rfl
  · exact issue_env e

/-! ## What a step can do -/

/-- All a step can do when it answers a next state, read by what becomes of the block: it is unchanged; a host write
stores to a word; the sink takes the head byte of OUTQ or enters READ_WRITE; the block is reset; or a CMD write, with
OUTQ empty, is let through and runs as `issue`. -/
theorem step_cases {s t : State} (e : step s = .next t) :
    t.hufb = s.hufb ∨
      (∃ l v, writeLoc s.hufb v l = some t.hufb) ∨
      (∃ b q, s.hufb.outq = b :: q ∧ t.hufb = { s.hufb with outq := q }) ∨
      (s.hufb.outq ≠ [] ∧ t.hufb = { faultEntry (readWriteRaise s.hufb) s.hufb with outq := [] }) ∨
      t.hufb = Hufb.reset ∨
      ∃ (w : Word) (u : State), s.hufb.outq = [] ∧ (s.hufb.fault = false ∨ w = resetWord) ∧ u.hufb = s.hufb ∧
        issue w u = .next t := by
  unfold step at e
  split at e
  · cases e; exact .inl rfl
  rename_i tn ts _
  cases tn with
  | reset => cases e; exact .inr (.inr (.inr (.inr (.inl rfl))))
  | sinkAccept =>
    cases e
    unfold sinkAccept
    split
    · exact .inl rfl
    · rename_i b q hq
      exact .inr (.inr (.inl ⟨b, q, hq, rfl⟩))
  | sinkError =>
    cases e
    unfold sinkError
    split
    · rename_i hb
      refine .inr (.inr (.inr (.inl ⟨?_, rfl⟩)))
      intro h0
      have : s.hufb.outq = [] := h0
      simp [busy, this] at hb
    · exact .inl rfl
  | host =>
    simp only [agentTurn, hostTurn] at e
    split at e
    · cases e; exact .inl rfl
    rename_i op ops _
    split at e
    · cases e; exact .inl rfl
    rename_i hh
    cases op with
    | read a n => cases e; exact .inl rfl
    | write a n v =>
      simp only [busAccess] at e
      split at e
      · rename_i hc
        have hq : s.hufb.outq = [] := by simpa [held, hc, busy] using hh
        unfold cmdWrite at e
        split at e
        · cases e; exact .inl rfl
        · rename_i hd
          have hd := discarded_eq_false.1 (Bool.eq_false_iff.2 hd)
          refine .inr (.inr (.inr (.inr (.inr ⟨v, _, hq, hd, ?_, e⟩))))
          rfl
      · cases e
        unfold storeWrite
        split
        · rename_i h hw
          obtain ⟨l, -, hl⟩ := Option.bind_eq_some_iff.1 hw
          exact .inr (.inl ⟨l, v, hl⟩)
        · exact .inl rfl

/-! ## Word layouts -/

/-- An optional index in a NODE word shows the index in its low 9 bits, 0 when there is none (R49, R61). -/
theorem optIndexBits_index (o : Option NodeIx) {k : Nat} (hk : k < 9) :
    (optIndexBits o).getLsbD k = (BitVec.ofNat 9 ((o.map Fin.val).getD 0)).getLsbD k := by
  cases o with
  | none => simp [optIndexBits]
  | some i =>
    simp only [optIndexBits, BitVec.getLsbD_append]
    simp [hk]

theorem optIndexBits_present (o : Option NodeIx) : (optIndexBits o).getLsbD 9 = o.isSome := by
  cases o with
  | none => simp [optIndexBits]
  | some i =>
    simp only [optIndexBits, BitVec.getLsbD_append]
    simp

/-- Bit `k` of a word made from a function of the bit number. -/
theorem wordOfBits_getLsbD (f : Nat → Bool) {n k : Nat} (hn : n ≤ 32) :
    (wordOfBits f n).getLsbD k = (decide (k < n) && f k) := by
  induction n with
  | zero => simp [wordOfBits]
  | succ n ih =>
    rw [wordOfBits, BitVec.getLsbD_or, ih (by omega)]
    by_cases hk : k = n
    · subst hk
      have : k < 32 := by omega
      cases hf : f k <;> simp [this]
    · have h1 : (if f n then 1#32 <<< n else 0).getLsbD k = false := by
        split
        · simp only [BitVec.getLsbD_shiftLeft, BitVec.getLsbD_one]
          simp
          omega
        · simp
      have h2 : (k < n + 1) = (k < n) := by
        simp only [eq_iff_iff]
        omega
      simp only [h1, h2, Bool.or_false]

end Sys2Proof.Machine
end

