-- ==== Sys2Proof/Laws/Trees.lean ====
section
/-! SUPPORT. Trees of node indices and the slots that hold them; what the serializer answers on a tree that is held, and
all that the walk of TREE_LOAD can do when it succeeds (10_state.md rule R47, 43_tree_codec.md rules R150, R152). -/

namespace Sys2Proof.Machine

variable {nodes nodes' : Vector Node Config.nodeSlots}

/-! ## Trees -/

@[simp] theorem Tree.root_leaf (i : NodeIx) : (Tree.leaf i).root = i := rfl
@[simp] theorem Tree.root_node (i : NodeIx) (l r : Tree) : (Tree.node i l r).root = i := rfl

theorem Tree.root_mem_indices (t : Tree) : t.root ∈ t.indices := by
  cases t <;> simp [Tree.root, Tree.indices]

theorem Tree.leaves_subset_indices : ∀ {t : Tree} {i : NodeIx}, i ∈ t.leaves → i ∈ t.indices
  | .leaf _, _, h => h
  | .node _ l r, i, h => by
    simp only [Tree.leaves, List.mem_append] at h
    simp only [Tree.indices, List.mem_cons, List.mem_append]
    exact .inr (h.imp Tree.leaves_subset_indices Tree.leaves_subset_indices)

/-- R151's arithmetic, without the subtraction: three elements per leaf, one per internal node, and one more leaf than
internal nodes. -/
theorem Tree.preorder_length_add_one : ∀ t : Tree, t.preorder.length + 1 = 4 * t.leaves.length
  | .leaf _ => by simp [Tree.preorder, Tree.leaves]
  | .node _ l r => by
    have := Tree.preorder_length_add_one l
    have := Tree.preorder_length_add_one r
    simp only [Tree.preorder, Tree.leaves, List.length_cons, List.length_append]
    omega

theorem Tree.indices_length_add_one : ∀ t : Tree, t.indices.length + 1 = 2 * t.leaves.length
  | .leaf _ => by simp [Tree.indices, Tree.leaves]
  | .node _ l r => by
    have := Tree.indices_length_add_one l
    have := Tree.indices_length_add_one r
    simp only [Tree.indices, Tree.leaves, List.length_cons, List.length_append]
    omega

theorem Tree.height_lt_indices_length : ∀ t : Tree, t.height < t.indices.length
  | .leaf _ => by simp [Tree.height, Tree.indices]
  | .node _ l r => by
    have := Tree.height_lt_indices_length l
    have := Tree.height_lt_indices_length r
    simp only [Tree.height, Tree.indices, List.length_cons, List.length_append]
    omega

/-- A tree without repeated indices is not deeper than there are slots. -/
theorem Tree.height_lt_slots {t : Tree} (h : t.indices.Nodup) : t.height < Config.nodeSlots := by
  have h1 := Tree.height_lt_indices_length t
  have h2 := h.length_le_card
  simp only [Fintype.card_fin] at h2
  omega

/-! ## Held trees -/

/-- Holding a tree is a matter of the tree's own slots. -/
theorem held_congr : ∀ {t : Tree} {p : Option NodeIx}, (∀ i ∈ t.indices, peek nodes' i = peek nodes i) →
    Tree.Held nodes p t → Tree.Held nodes' p t
  | .leaf i, p, h, e => by
    simp only [Tree.Held] at *
    rw [h i (by simp [Tree.indices]), e]
  | .node i l r, p, h, e => by
    simp only [Tree.Held] at *
    refine ⟨by rw [h i (by simp [Tree.indices]), e.1], held_congr (fun j hj => h j ?_) e.2.1,
      held_congr (fun j hj => h j ?_) e.2.2⟩ <;> simp [Tree.indices, hj]

theorem held_root {t : Tree} {p : Option NodeIx} (h : Tree.Held nodes p t) :
    (peek nodes t.root).valid = true ∧ (peek nodes t.root).parent = p := by
  cases t with
  | leaf i => simp only [Tree.Held] at h; simp [Tree.root, h, Node.leaf]
  | node i l r => simp only [Tree.Held] at h; simp [Tree.root, h.1, Node.internal]

theorem held_valid : ∀ {t : Tree} {p : Option NodeIx} {i : NodeIx}, Tree.Held nodes p t → i ∈ t.indices →
    (peek nodes i).valid = true
  | .leaf j, p, i, h, hi => by
    simp only [Tree.indices, List.mem_singleton] at hi
    subst hi
    exact (held_root h).1
  | .node j l r, p, i, h, hi => by
    simp only [Tree.indices, List.mem_cons, List.mem_append] at hi
    rcases hi with rfl | hi | hi
    · exact (held_root h).1
    · exact held_valid h.2.1 hi
    · exact held_valid h.2.2 hi

/-! ## The serializer -/

/-- On a held tree the serializer answers its preorder, when its bound is above the height. -/
theorem serialize_held : ∀ {t : Tree} {p : Option NodeIx} {depth : Nat}, Tree.Held nodes p t → t.height < depth →
    serialize nodes depth (some t.root) = some t.preorder
  | .leaf i, p, 0, _, h => absurd h (by simp)
  | .leaf i, p, depth + 1, e, _ => by
    simp only [Tree.Held] at e
    cases depth <;> simp [serialize, Tree.root, Tree.preorder, e, Node.leaf]
  | .node i l r, p, 0, _, h => absurd h (by simp)
  | .node i l r, p, depth + 1, e, h => by
    simp only [Tree.Held, Tree.height] at e h
    rw [Tree.root_node]
    simp [serialize, Tree.preorder, e.1, Node.internal, serialize_held (depth := depth) e.2.1 (by omega),
      serialize_held (depth := depth) e.2.2 (by omega)]

/-! ## The walk of TREE_LOAD -/

/-- The shape checks pass for a leaf that is a symbol and for an internal node with an index from 256 on. -/
theorem shapeCheck_eq_none {v : NodeIx} {q : Nat} {l r : Option NodeIx} :
    shapeCheck v q l r = none ↔
      (l = none ∧ r = none ∧ v.val < 256) ∨ (∃ a b, l = some a ∧ r = some b ∧ 256 ≤ v.val) := by
  unfold shapeCheck
  cases l <;> cases r <;> simp [Config.firstInternal]

theorem elemIndex_eq_some {v : Elem} {i : NodeIx} : elemIndex v = some i ↔ v.toNat = i.val := by
  unfold elemIndex
  split
  · simp only [Option.some.injEq, Fin.ext_iff]
  · have := i.isLt
    simp only [reduceCtorEq, false_iff]
    omega

theorem elemIndex_indexElem (i : NodeIx) : elemIndex (indexElem i) = some i := by
  rw [elemIndex_eq_some, indexElem, BitVec.toNat_ofNat]
  have := i.isLt
  simp only [Config.nodeSlots] at this
  omega

theorem indexElem_ne_sentinel (i : NodeIx) : indexElem i ≠ Config.sentinel := by
  intro h
  have h1 := congrArg BitVec.toNat h
  have := i.isLt
  simp only [indexElem, BitVec.toNat_ofNat, Config.sentinel, Config.nodeSlots] at *
  omega

/-- All the walk can do when it succeeds: it read a sentinel, or it read a tree with fresh, distinct indices and stored
it under the given parent, changing no other slot. -/
theorem deserialize_ok {tbuf : Vector Elem Config.tbufLen} {c : Nat} :
    ∀ {depth : Nat} {parent root : Option NodeIx} {w w' : Walk},
      deserialize tbuf c depth parent w = .ok (root, w') →
      w'.pos ≤ c ∧
        ((root = none ∧ w' = { w with pos := w.pos + 1 }) ∨
          ∃ t : Tree, root = some t.root ∧ t.Valid ∧ (∀ i ∈ t.indices, (peek w.node i).valid = false) ∧
            Tree.Held w'.node parent t ∧ (∀ i, i ∉ t.indices → peek w'.node i = peek w.node i) ∧
            w'.pos = w.pos + t.preorder.length)
  | 0, parent, root, w, w', e => by simp [deserialize] at e
  | depth + 1, parent, root, w, w', e => by
    unfold deserialize at e
    split at e
    · simp at e
    rename_i hpos
    split at e
    · simp only [Except.ok.injEq, Prod.mk.injEq] at e
      obtain ⟨rfl, rfl⟩ := e
      exact ⟨by simp; omega, .inl ⟨rfl, rfl⟩⟩
    split at e
    · simp at e
    rename_i v hv
    split at e
    · simp at e
    rename_i hfresh
    split at e
    · simp at e
    rename_i l w₁ el
    split at e
    · simp at e
    rename_i r w₂ er
    split at e
    · simp at e
    rename_i hs
    simp only [Except.ok.injEq, Prod.mk.injEq] at e
    obtain ⟨rfl, rfl⟩ := e
    have il := deserialize_ok el
    have ir := deserialize_ok er
    dsimp only at il ir ⊢
    refine ⟨ir.1, .inr ?_⟩
    rcases shapeCheck_eq_none.1 hs with ⟨rfl, rfl, hlt⟩ | ⟨a, b, rfl, rfl, hge⟩
    · obtain ⟨-, ⟨-, rfl⟩ | ⟨t, h, -⟩⟩ := il
      · obtain ⟨-, ⟨-, rfl⟩ | ⟨t, h, -⟩⟩ := ir
        · refine ⟨.leaf v, rfl, ⟨by simpa [Tree.shaped, Config.firstInternal] using hlt, by simp [Tree.indices]⟩,
            by simpa [Tree.indices] using hfresh, ?_, ?_, by simp [Tree.preorder]⟩
          · simp [Tree.Held, setChildren, Node.leaf]
          · intro i hi
            simp only [Tree.indices, List.mem_singleton] at hi
            simp [setChildren, peek_poke_of_ne, hi]
        · simp at h
      · simp at h
    · obtain ⟨-, ⟨h, -⟩ | ⟨tl, hlr, ⟨hls, hln⟩, hlf, hlh, hlo, hlp⟩⟩ := il
      · simp at h
      obtain ⟨-, ⟨h, -⟩ | ⟨tr, hrr, ⟨hrs, hrn⟩, hrf, hrh, hro, hrp⟩⟩ := ir
      · simp at h
      simp only [Option.some.injEq] at hlr hrr
      subst hlr hrr
      have hvl : v ∉ tl.indices := fun h => by simpa [Node.leaf] using hlf v h
      have hvr : v ∉ tr.indices := fun h => by
        have := hrf v h
        rw [hlo v hvl] at this
        simp [Node.leaf] at this
      have hdis : ∀ i ∈ tl.indices, i ∉ tr.indices := fun i hi hr => by
        have h1 := held_valid hlh hi
        rw [hrf i hr] at h1
        simp at h1
      have hpv : peek w₂.node v = Node.leaf parent := by rw [hro v hvr, hlo v hvl, peek_poke_self]
      have hset : ∀ i, i ≠ v → peek (setChildren v (some tl.root) (some tr.root) w₂.node) i = peek w₂.node i :=
        fun i hi => peek_poke_of_ne _ _ hi
      refine ⟨.node v tl tr, rfl, ⟨?_, ?_⟩, ?_, ⟨?_, ?_, ?_⟩, ?_, ?_⟩
      · simp [Tree.shaped, hls, hrs, Config.firstInternal, hge]
      · simp only [Tree.indices, List.nodup_cons, List.mem_append, not_or, List.nodup_append]
        exact ⟨⟨hvl, hvr⟩, hln, hrn, fun a ha b hb hab => hdis a ha (hab ▸ hb)⟩
      · intro i hi
        simp only [Tree.indices, List.mem_cons, List.mem_append] at hi
        by_cases hiv : i = v
        · subst hiv; simpa using hfresh
        rcases hi with rfl | hi | hi
        · exact absurd rfl hiv
        · have := hlf i hi
          rwa [peek_poke_of_ne _ _ hiv] at this
        · have := hrf i hi
          rwa [hlo i (fun h => hdis i h hi), peek_poke_of_ne _ _ hiv] at this
      · simp [setChildren, hpv, Node.leaf, Node.internal]
      · exact held_congr
          (fun i hi => by rw [hset i (fun h => hvl (h ▸ hi)), hro i (hdis i hi)]) hlh
      · exact held_congr (fun i hi => hset i (fun h => hvr (h ▸ hi))) hrh
      · intro i hi
        simp only [Tree.indices, List.mem_cons, List.mem_append, not_or] at hi
        rw [hset i hi.1, hro i hi.2.2, hlo i hi.2.1, peek_poke_of_ne _ _ hi.1]
      · simp only [Tree.preorder, List.length_cons, List.length_append]
        omega

/-- The elements from position `p` on are these. -/
def ReadsAt (tbuf : Vector Elem Config.tbufLen) (p : Nat) (es : List Elem) : Prop :=
  ∀ k (h : k < es.length), elemAt tbuf (p + k) = es[k]

theorem readsAt_cons {tbuf : Vector Elem Config.tbufLen} {p : Nat} {e : Elem} {es : List Elem} :
    ReadsAt tbuf p (e :: es) ↔ elemAt tbuf p = e ∧ ReadsAt tbuf (p + 1) es := by
  constructor
  · intro h
    refine ⟨h 0 (by simp), fun k hk => ?_⟩
    have := h (k + 1) (by simpa using hk)
    rwa [show p + (k + 1) = p + 1 + k by omega] at this
  · rintro ⟨h1, h2⟩ k hk
    cases k with
    | zero => exact h1
    | succ k =>
      have := h2 k (by simpa using hk)
      rwa [show p + 1 + k = p + (k + 1) by omega] at this

theorem readsAt_append {tbuf : Vector Elem Config.tbufLen} {es fs : List Elem} : ∀ {p : Nat},
    ReadsAt tbuf p (es ++ fs) ↔ ReadsAt tbuf p es ∧ ReadsAt tbuf (p + es.length) fs := by
  induction es with
  | nil => intro p; simp [ReadsAt]
  | cons e es ih =>
    intro p
    simp only [List.cons_append, readsAt_cons, ih, and_assoc, List.length_cons]
    rw [show p + 1 + es.length = p + (es.length + 1) by omega]

theorem readsAt_of_startsWith {tbuf : Vector Elem Config.tbufLen} {es : List Elem} (h : StartsWith tbuf es)
    (hl : es.length ≤ Config.tbufLen) : ReadsAt tbuf 0 es := by
  intro k hk
  have h1 : k < Config.tbufLen := by omega
  have := h ⟨k, h1⟩ hk
  simpa [elemAt, Fin.ofNat, Nat.mod_eq_of_lt h1] using this

/-- The walk succeeds where it meets the preorder of a tree R47 allows, with fresh indices: it consumes exactly that
preorder and stores exactly that tree. -/
theorem deserialize_preorder {tbuf : Vector Elem Config.tbufLen} {c : Nat} :
    ∀ {t : Tree} {depth : Nat} {parent : Option NodeIx} {w : Walk}, t.Valid →
      (∀ i ∈ t.indices, (peek w.node i).valid = false) → ReadsAt tbuf w.pos t.preorder →
      w.pos + t.preorder.length ≤ c → c ≤ depth + w.pos →
      ∃ w', deserialize tbuf c depth parent w = .ok (some t.root, w') ∧ w'.pos = w.pos + t.preorder.length ∧
        Tree.Held w'.node parent t ∧ ∀ i, i ∉ t.indices → peek w'.node i = peek w.node i
  | .leaf i, 0, parent, w, _, _, _, hc, hd => by simp [Tree.preorder] at hc; omega
  | .leaf i, 1, parent, w, _, _, _, hc, hd => by simp [Tree.preorder] at hc; omega
  | .leaf i, depth + 2, parent, w, hv, hf, hr, hc, hd => by
    simp only [Tree.preorder, readsAt_cons] at hr
    simp only [Tree.preorder, List.length_cons, List.length_nil] at hc
    have hlt : i.val < 256 := by simpa [Tree.shaped, Config.firstInternal] using hv.1
    have h1 : ¬ c ≤ w.pos := by omega
    have h2 : ¬ c ≤ w.pos + 1 := by omega
    have h3 : ¬ c ≤ w.pos + 1 + 1 := by omega
    have h4 := hf i (by simp [Tree.indices])
    refine ⟨{ pos := w.pos + 3, node := setChildren i none none (poke w.node i (Node.leaf parent)) }, ?_, ?_, ?_, ?_⟩
    · simp [deserialize, h1, h2, h3, hr, indexElem_ne_sentinel, elemIndex_indexElem, h4,
        shapeCheck_eq_none.2 (.inl ⟨rfl, rfl, hlt⟩), Tree.root]
    · simp [Tree.preorder]
    · simp [Tree.Held, setChildren, Node.leaf]
    · intro j hj
      simp only [Tree.indices, List.mem_singleton] at hj
      simp [setChildren, peek_poke_of_ne, hj]
  | .node i l r, 0, parent, w, _, _, _, hc, hd => by
    simp only [Tree.preorder, List.length_cons, List.length_append] at hc; omega
  | .node i l r, depth + 1, parent, w, hv, hf, hr, hc, hd => by
    simp only [Tree.preorder, readsAt_cons, readsAt_append] at hr
    simp only [Tree.preorder, List.length_cons, List.length_append] at hc
    obtain ⟨hs, hn⟩ := hv
    simp only [Tree.shaped, Bool.and_eq_true, decide_eq_true_eq] at hs
    simp only [Tree.indices, List.nodup_cons, List.mem_append, not_or, List.nodup_append] at hn
    obtain ⟨⟨hil, hir⟩, hnl, hnr, hdis⟩ := hn
    have h1 : ¬ c ≤ w.pos := by omega
    have h4 := hf i (by simp [Tree.indices])
    have hfl : ∀ j ∈ l.indices, (peek (poke w.node i (Node.leaf parent)) j).valid = false := fun j hj => by
      have hji : j ≠ i := fun h => hil (h ▸ hj)
      rw [peek_poke_of_ne _ _ hji]
      exact hf j (by simp [Tree.indices, hj])
    obtain ⟨w₁, e₁, p₁, held₁, o₁⟩ := deserialize_preorder (c := c) (t := l) (depth := depth) (parent := some i)
      (w := { pos := w.pos + 1, node := poke w.node i (Node.leaf parent) }) ⟨hs.1.2, hnl⟩ hfl hr.2.1
      (by dsimp only; omega) (by dsimp only; omega)
    dsimp only at p₁ o₁
    have hfr : ∀ j ∈ r.indices, (peek w₁.node j).valid = false := fun j hj => by
      have hji : j ≠ i := fun h => hir (h ▸ hj)
      rw [o₁ j (fun h => hdis j h j hj rfl), peek_poke_of_ne _ _ hji]
      exact hf j (by simp [Tree.indices, hj])
    obtain ⟨w₂, e₂, p₂, held₂, o₂⟩ := deserialize_preorder (c := c) (t := r) (depth := depth) (parent := some i)
      (w := w₁) ⟨hs.2, hnr⟩ hfr (by rw [p₁]; exact hr.2.2) (by omega) (by omega)
    have hset : ∀ j, j ≠ i → peek (setChildren i (some l.root) (some r.root) w₂.node) j = peek w₂.node j :=
      fun j hj => peek_poke_of_ne _ _ hj
    refine ⟨{ w₂ with node := setChildren i (some l.root) (some r.root) w₂.node }, ?_, ?_, ⟨?_, ?_, ?_⟩, ?_⟩
    · have hs' := shapeCheck_eq_none (v := i) (q := w.pos).2
        (.inr ⟨l.root, r.root, rfl, rfl, by simpa [Config.firstInternal] using hs.1.1⟩)
      rw [deserialize, if_neg h1, if_neg (by rw [hr.1]; exact indexElem_ne_sentinel i)]
      simp only [hr.1, elemIndex_indexElem, h4, e₁, e₂, hs', Bool.false_eq_true, if_false, Tree.root_node]
    · simp only [Tree.preorder, List.length_cons, List.length_append]; omega
    · have : peek w₂.node i = Node.leaf parent := by rw [o₂ i hir, o₁ i hil, peek_poke_self]
      simp [setChildren, this, Node.leaf, Node.internal]
    · exact held_congr (fun j hj => by
        rw [hset j (fun h => hil (h ▸ hj)), o₂ j (fun h => hdis j hj j h rfl)]) held₁
    · exact held_congr (fun j hj => hset j (fun h => hir (h ▸ hj))) held₂
    · intro j hj
      simp only [Tree.indices, List.mem_cons, List.mem_append, not_or] at hj
      dsimp only
      rw [hset j hj.1, o₂ j hj.2.2, o₁ j hj.2.1, peek_poke_of_ne _ _ hj.1]

/-! ## The way down (R152) -/

theorem valid_poke_leaf {i j : NodeIx} {p : Option NodeIx} :
    (peek (poke nodes i (Node.leaf p)) j).valid = true ↔ (peek nodes j).valid = true ∨ j = i := by
  by_cases h : j = i
  · subst h; simp [Node.leaf]
  · simp [peek_poke_of_ne, h]

/-- A call of `des` that reads the element of a fresh node: its two subtrees, then the checks on it. -/
theorem deserialize_fresh {tbuf : Vector Elem Config.tbufLen} {c depth : Nat} {parent : Option NodeIx} {w : Walk}
    {n : NodeIx} (h1 : w.pos < c) (h2 : elemAt tbuf w.pos = indexElem n) (h3 : (peek w.node n).valid = false) :
    deserialize tbuf c (depth + 1) parent w =
      match deserialize tbuf c depth (some n) { pos := w.pos + 1, node := poke w.node n (Node.leaf parent) } with
      | .error e => .error e
      | .ok (l, w₁) =>
        match deserialize tbuf c depth (some n) w₁ with
        | .error e => .error e
        | .ok (r, w₂) =>
          match shapeCheck n w.pos l r with
          | some e => .error e
          | none => .ok (some n, { w₂ with node := setChildren n l r w₂.node }) := by
  rw [deserialize, if_neg (by omega), h2, if_neg (indexElem_ne_sentinel n)]
  simp only [elemIndex_indexElem, h3]
  rfl

/-- The walk reads a subtree, absent or well shaped and fresh: it consumes exactly its elements, and exactly its indices
become valid. -/
theorem deserialize_subtree {tbuf : Vector Elem Config.tbufLen} {c depth : Nat} {parent : Option NodeIx} {w : Walk}
    (t : Option Tree) (hs : ∀ x, t = some x → x.shaped = true) (hn : (subtreeIndices t).Nodup)
    (hf : ∀ i ∈ subtreeIndices t, (peek w.node i).valid = false) (hr : ReadsAt tbuf w.pos (subtreeElems t))
    (hc : w.pos + (subtreeElems t).length ≤ c) (hd : c ≤ depth + w.pos) :
    ∃ w', deserialize tbuf c depth parent w = .ok (t.map Tree.root, w') ∧
      w'.pos = w.pos + (subtreeElems t).length ∧
      ∀ i, (peek w'.node i).valid = true ↔ (peek w.node i).valid = true ∨ i ∈ subtreeIndices t := by
  cases t with
  | none =>
    simp only [subtreeElems, readsAt_cons, List.length_singleton] at *
    obtain ⟨d, rfl⟩ : ∃ d, depth = d + 1 := ⟨depth - 1, by omega⟩
    refine ⟨{ w with pos := w.pos + 1 }, ?_, rfl, by simp [subtreeIndices]⟩
    rw [deserialize, if_neg (by omega), if_pos hr.1]
    rfl
  | some t =>
    obtain ⟨w', e, p, held, o⟩ := deserialize_preorder (parent := parent) ⟨hs t rfl, hn⟩ hf hr hc hd
    refine ⟨w', e, p, fun i => ?_⟩
    by_cases hi : i ∈ t.indices
    · simp [held_valid held hi, subtreeIndices, hi]
    · simp [o i hi, subtreeIndices, hi]

end Sys2Proof.Machine
end

