-- ==== Sys2Proof/Laws/Codes.lean ====
section
/-! SUPPORT. Codes and the packed stream: the path to a leaf read downwards (`pathTo`, `follow`) and upwards (`pathUp`),
the code bits of a path (44_symbol_table.md rule R170), the bits of a packed byte, and what one `put_bit` does to the
bits that wait in the accumulator (45_bit_codec.md rule R180). -/

namespace Sys2Proof.Machine

variable {nodes : Vector Node Config.nodeSlots}

/-! ## Paths downwards -/

theorem Tree.follow_pathTo : ∀ {t : Tree} {i : NodeIx} {p : List Bool}, t.pathTo i = some p →
    t.follow p = some (.leaf i)
  | .leaf j, i, p, h => by
    simp only [Tree.pathTo] at h
    split at h
    · subst_vars
      cases h
      rfl
    · simp at h
  | .node j l r, i, p, h => by
    simp only [Tree.pathTo] at h
    split at h
    · rename_i q hq
      cases h
      simp [Tree.follow, Tree.follow_pathTo hq]
    · obtain ⟨q, hq, rfl⟩ := Option.map_eq_some_iff.1 h
      simp [Tree.follow, Tree.follow_pathTo hq]

theorem Tree.pathTo_of_mem : ∀ {t : Tree} {i : NodeIx}, i ∈ t.leaves → ∃ p, t.pathTo i = some p
  | .leaf j, i, h => by
    simp only [Tree.leaves, List.mem_singleton] at h
    exact ⟨[], by simp [Tree.pathTo, h]⟩
  | .node j l r, i, h => by
    simp only [Tree.leaves, List.mem_append] at h
    simp only [Tree.pathTo]
    cases e : l.pathTo i with
    | some p => exact ⟨_, rfl⟩
    | none =>
      rcases h with h | h
      · obtain ⟨p, hp⟩ := Tree.pathTo_of_mem h
        rw [e] at hp
        simp at hp
      · obtain ⟨p, hp⟩ := Tree.pathTo_of_mem h
        exact ⟨true :: p, by simp [hp]⟩

theorem Tree.follow_append : ∀ {t : Tree} {p q : List Bool}, t.follow (p ++ q) = (t.follow p).bind (·.follow q)
  | t, [], q => by cases t <;> simp [Tree.follow]
  | .leaf _, _ :: _, q => by simp [Tree.follow]
  | .node _ l r, x :: p, q => by
    simp only [List.cons_append, Tree.follow]
    cases x
    · simpa using Tree.follow_append (t := l)
    · simpa using Tree.follow_append (t := r)

/-- A path down a tree is not longer than the tree is high. -/
theorem Tree.follow_length : ∀ {t cur : Tree} {p : List Bool}, t.follow p = some cur → p.length ≤ t.height
  | t, cur, [], _ => by simp
  | .leaf _, cur, _ :: _, h => by simp [Tree.follow] at h
  | .node _ l r, cur, x :: p, h => by
    simp only [Tree.follow] at h
    simp only [List.length_cons, Tree.height]
    cases x
    · have := Tree.follow_length (by simpa using h : l.follow p = some cur); omega
    · have := Tree.follow_length (by simpa using h : r.follow p = some cur); omega

/-- A part of a tree without repeated indices has none. -/
theorem Tree.follow_nodup : ∀ {t cur : Tree} {p : List Bool}, t.indices.Nodup → t.follow p = some cur →
    cur.indices.Nodup
  | t, cur, [], hn, h => by
    have : t = cur := by cases t <;> simpa [Tree.follow] using h
    exact this ▸ hn
  | .leaf _, cur, _ :: _, _, h => by simp [Tree.follow] at h
  | .node _ l r, cur, x :: p, hn, h => by
    simp only [Tree.follow] at h
    simp only [Tree.indices, List.nodup_cons, List.nodup_append] at hn
    cases x
    · exact Tree.follow_nodup hn.2.1 (by simpa using h : l.follow p = some cur)
    · exact Tree.follow_nodup hn.2.2.1 (by simpa using h : r.follow p = some cur)

/-- A part of a held tree is held, under some parent. -/
theorem follow_held : ∀ {t cur : Tree} {p : List Bool} {parent : Option NodeIx}, Tree.Held nodes parent t →
    t.follow p = some cur → ∃ q, Tree.Held nodes q cur
  | t, cur, [], parent, hh, h => by
    have : t = cur := by cases t <;> simpa [Tree.follow] using h
    exact ⟨parent, this ▸ hh⟩
  | .leaf _, cur, _ :: _, _, _, h => by simp [Tree.follow] at h
  | .node _ l r, cur, x :: p, parent, hh, h => by
    simp only [Tree.follow] at h
    cases x
    · exact follow_held hh.2.1 (by simpa using h : l.follow p = some cur)
    · exact follow_held hh.2.2 (by simpa using h : r.follow p = some cur)

/-! ## Paths upwards (R170) -/

/-- From any part of a held tree, the walk up to the root finds the path that leads down to it, reversed. -/
theorem pathUp_follow {t : Tree} (hh : Tree.Held nodes none t) (hn : t.indices.Nodup) :
    ∀ {p : List Bool} {cur : Tree} {room : Nat}, t.follow p = some cur → p.length ≤ room →
      pathUp nodes room cur.root = some p.reverse := by
  intro p
  induction p using List.reverseRecOn with
  | nil =>
    intro cur room h _
    have : t = cur := by cases t <;> simpa [Tree.follow] using h
    subst this
    have := (held_root hh).2
    cases room <;> simp [pathUp, this]
  | append_singleton p x ih =>
    intro cur room h hl
    simp only [List.length_append, List.length_cons, List.length_nil] at hl
    rw [Tree.follow_append] at h
    obtain ⟨up, hup, hx⟩ := Option.bind_eq_some_iff.1 h
    obtain ⟨q, hheld⟩ := follow_held hh hup
    have hnd := Tree.follow_nodup hn hup
    cases up with
    | leaf i => simp [Tree.follow] at hx
    | node i l r =>
      have hroots : l.root ≠ r.root := by
        intro e
        simp only [Tree.indices, List.nodup_cons, List.nodup_append] at hnd
        exact hnd.2.2.2 _ l.root_mem_indices _ r.root_mem_indices e
      obtain ⟨room, rfl⟩ : ∃ k, room = k + 1 := ⟨room - 1, by omega⟩
      have ih' := ih hup (room := room) (by omega)
      rw [Tree.root_node] at ih'
      have key : (peek nodes cur.root).parent = some i ∧ stepBit nodes i cur.root = x := by
        cases x
        · have hc : l = cur := by cases l <;> simpa [Tree.follow] using hx
          subst hc
          exact ⟨(held_root hheld.2.1).2, by simp [stepBit, hheld.1, Node.internal, Ne.symm hroots]⟩
        · have hc : r = cur := by cases r <;> simpa [Tree.follow] using hx
          subst hc
          exact ⟨(held_root hheld.2.2).2, by simp [stepBit, hheld.1, Node.internal]⟩
      simp [pathUp, key.1, key.2, ih']

/-! ## Code bits (R43, R170) -/

/-- Bit `k` of the code of a path is its step `k`, and 0 from the path's length on. -/
theorem codeOfPath_getLsbD : ∀ {xs : List Bool} {k : Nat}, xs.length ≤ Config.maxCodeLen →
    (codeOfPath xs).getLsbD k = (xs[k]?).getD false
  | [], k, _ => by simp [codeOfPath]
  | x :: xs, k, h => by
    simp only [List.length_cons] at h
    have ih := fun j => codeOfPath_getLsbD (xs := xs) (k := j) (by omega)
    simp only [codeOfPath, BitVec.getLsbD_or, BitVec.getLsbD_shiftLeft]
    cases k with
    | zero => cases x <;> simp
    | succ k =>
      have h1 : (if x then (1 : CodeBits) else 0).getLsbD (k + 1) = false := by
        cases x <;> simp [BitVec.getLsbD_one]
      rw [h1, Bool.or_false]
      by_cases hk : k + 1 < Config.maxCodeLen
      · simp [hk, ih]
      · have : xs[k]? = none := by
          rw [List.getElem?_eq_none_iff]
          omega
        simp [hk, this]

/-- Reading the stored bits of a path back gives the path (R181). -/
theorem codeOfPath_bits {xs : List Bool} (h : xs.length ≤ Config.maxCodeLen) :
    ((List.range xs.length).map fun k => (codeOfPath xs).getLsbD k) = xs := by
  apply List.ext_getElem
  · simp
  · intro k h1 h2
    simp [codeOfPath_getLsbD h, h2]

/-! ## Packed bytes (R65, R180) -/

/-- Bits put from position `k` down: position `j` holds the one put `k - j` places after the first. -/
theorem packFrom_getLsbD : ∀ {xs : List Bool} {k j : Nat}, k < 8 → xs.length ≤ k + 1 →
    (packFrom k xs).getLsbD j = (decide (j ≤ k) && (xs[k - j]?).getD false)
  | [], k, j, _, _ => by simp [packFrom]
  | x :: xs, k, j, hk, hl => by
    simp only [List.length_cons] at hl
    have h1 : ((if x then 1#8 else 0#8) <<< k).getLsbD j = (decide (j = k) && x) := by
      cases x
      · simp
      · simp only [if_true, BitVec.getLsbD_shiftLeft, BitVec.getLsbD_one, Bool.and_true]
        rcases Nat.lt_trichotomy j k with h | h | h
        · simp [h, Nat.ne_of_lt h]
        · subst h; simp [hk]
        · have h2 : j ≠ k := Nat.ne_of_gt h
          simp only [h2, decide_false]
          simp
          omega
    simp only [packFrom, BitVec.getLsbD_or, h1]
    cases k with
    | zero =>
      have : xs = [] := List.length_eq_zero_iff.1 (by omega)
      subst this
      by_cases hj : j = 0 <;> simp [hj, packFrom]
    | succ k =>
      rw [show k + 1 - 1 = k by omega, packFrom_getLsbD (by omega) (by omega)]
      rcases Nat.lt_trichotomy j (k + 1) with h | h | h
      · have h2 : k + 1 - j = (k - j) + 1 := by omega
        have h3 : j ≤ k := by omega
        have h4 : j ≤ k + 1 := by omega
        simp [Nat.ne_of_lt h, h2, h3, h4]
      · subst h; simp
      · have h3 : ¬ j ≤ k := by omega
        have h4 : ¬ j ≤ k + 1 := by omega
        simp [Nat.ne_of_gt h, h3, h4]

/-! ## One `put_bit` -/

/-- How many bits wait. -/
theorem pendingBits_length (h : Hufb) : (pendingBits h).length = 8 - h.pos.toNat := by
  simp [pendingBits]

theorem pos_pred {h : Hufb} (hp : PackerOk h) : (h.pos - 1).toNat = h.pos.toNat - 1 := by
  have h1 := hp.posLow
  have h2 := hp.posHigh
  rw [BitVec.toNat_sub]
  simp
  omega

/-- The bits of the accumulator after the OR of R180. -/
theorem putBit_acc {h : Hufb} (hp : PackerOk h) (x : Bool) (j : Nat) :
    (h.acc ||| ((if x then 1#8 else 0#8) <<< (h.pos - 1).toNat)).getLsbD j =
      if j = h.pos.toNat - 1 then x else h.acc.getLsbD j := by
  have h1 := hp.posLow
  have h2 := hp.posHigh
  rw [pos_pred hp, BitVec.getLsbD_or]
  have h3 : ((if x then 1#8 else 0#8) <<< (h.pos.toNat - 1)).getLsbD j =
      (decide (j = h.pos.toNat - 1) && x) := by
    cases x
    · simp
    · simp only [if_true, BitVec.getLsbD_shiftLeft, BitVec.getLsbD_one, Bool.and_true]
      rcases Nat.lt_trichotomy j (h.pos.toNat - 1) with hj | hj | hj
      · simp [hj, Nat.ne_of_lt hj]
      · have : j < 8 := by omega
        simp [← hj, this]
      · simp only [Nat.ne_of_gt hj, decide_false]
        simp
        omega
  rw [h3]
  split
  · subst_vars
    rw [hp.accLow _ (by omega)]
    simp
  · simp [*]

/-- R180 with room left: the bit joins those that wait, and nothing goes out. -/
theorem putBit_room {h : Hufb} (hp : PackerOk h) (hr : 2 ≤ h.pos.toNat) (x : Bool) :
    PackerOk (putBit h x) ∧ pendingBits (putBit h x) = pendingBits h ++ [x] ∧
      (putBit h x).outq = h.outq ∧ (putBit h x).pos.toNat = h.pos.toNat - 1 := by
  have h2 := hp.posHigh
  have hpos := pos_pred hp
  have hne : h.pos - 1 ≠ 0 := fun e => by
    rw [e] at hpos
    simp at hpos
    omega
  have e : putBit h x =
      { h with acc := h.acc ||| ((if x then 1#8 else 0#8) <<< (h.pos - 1).toNat), pos := h.pos - 1 } := by
    unfold putBit
    simp only [hne, if_false]
  rw [e]
  refine ⟨⟨?_, ?_, ?_⟩, ?_, rfl, hpos⟩
  · dsimp only; omega
  · dsimp only; omega
  · intro k hk
    dsimp only at hk ⊢
    rw [putBit_acc hp, if_neg (by omega)]
    exact hp.accLow k (by omega)
  · have hacc := putBit_acc hp x
    rw [hpos] at hacc
    unfold pendingBits
    dsimp only
    rw [hpos, show 8 - (h.pos.toNat - 1) = 8 - h.pos.toNat + 1 by omega, List.range_succ, List.map_append]
    congr 1
    · apply List.map_congr_left
      intro j hj
      rw [List.mem_range] at hj
      rw [hacc, if_neg (by omega)]
    · simp only [List.map_cons, List.map_nil, List.cons.injEq, and_true]
      rw [hacc, if_pos (by omega)]

/-- R180 with one place left: the byte goes out, and the accumulator is empty. -/
theorem putBit_full {h : Hufb} (hp : PackerOk h) (hf : h.pos.toNat = 1) (x : Bool) :
    PackerOk (putBit h x) ∧ pendingBits (putBit h x) = [] ∧
      (putBit h x).outq = h.outq ++ [packByte (pendingBits h ++ [x])] ∧ (putBit h x).pos = 8 := by
  have hz : h.pos - 1 = 0 := by
    apply BitVec.eq_of_toNat_eq
    rw [pos_pred hp, hf]
    rfl
  have e : putBit h x =
      { emit (h.acc ||| ((if x then 1#8 else 0#8) <<< (h.pos - 1).toNat)) h with acc := 0, pos := 8 } := by
    unfold putBit
    simp only [hz, if_true]
  rw [e]
  refine ⟨⟨by simp, by simp, by simp⟩, by simp [pendingBits], ?_, rfl⟩
  show h.outq ++ [_] = h.outq ++ [_]
  congr 2
  apply BitVec.eq_of_getLsbD_eq
  intro j hj
  rw [putBit_acc hp, hf, packByte, packFrom_getLsbD (by omega) (by simp [pendingBits_length, hf])]
  by_cases h0 : j = 0
  · subst h0
    simp [pendingBits_length, hf]
  · have h3 : 7 - j < (pendingBits h).length := by rw [pendingBits_length, hf]; omega
    rw [if_neg (by omega), List.getElem?_append_left h3, List.getElem?_eq_getElem h3]
    have h4 : 7 - (7 - j) = j := by omega
    have h5 : j ≤ 7 := by omega
    simp [pendingBits, h4, h5]

end Sys2Proof.Machine
end

