-- ==== Sys2Proof/Laws/PerInstr.lean ====
section
/-! SUPPORT. A family of lemmas made once per constructor of `Instr`: the word the encoder gives a command has, under
the mask of the command's row of spec/opcode_table.json, exactly the row's match (30_encoding.md rule R93). -/

namespace Sys2Proof.Laws

/-- The mask column of the table (R93: by the format). -/
def tableMask : Instr → Word
  | .nop => 0xFFFFFFFF#32
  | .reset => 0xFFFFFFFF#32
  | .histReset => 0xFFFFFFFF#32
  | .histAdd _ => 0xFFFF00FF#32
  | .treeReset => 0xFFFFFFFF#32
  | .treeBuild => 0xFFFFFFFF#32
  | .treeSerialize => 0xFFFFFFFF#32
  | .treeLoad _ => 0xFF0000FF#32
  | .tableGen => 0xFFFFFFFF#32
  | .encSym _ => 0xFFFF00FF#32
  | .encFlush => 0xFFFFFFFF#32
  | .decStart => 0xFFFFFFFF#32
  | .decByte _ => 0xFFFF00FF#32

/-- The match column of the table. -/
def tableMatch : Instr → Word
  | .nop => 0x00000000#32
  | .reset => 0x00000001#32
  | .histReset => 0x00000010#32
  | .histAdd _ => 0x00000011#32
  | .treeReset => 0x00000020#32
  | .treeBuild => 0x00000021#32
  | .treeSerialize => 0x00000030#32
  | .treeLoad _ => 0x00000031#32
  | .tableGen => 0x00000040#32
  | .encSym _ => 0x00000050#32
  | .encFlush => 0x00000051#32
  | .decStart => 0x00000060#32
  | .decByte _ => 0x00000061#32

/-- The encoder's word of a command fits the command's row of the table. -/
def TableRow.Statement (i : Instr) : Prop := encode i &&& tableMask i = tableMatch i

/-- A format B word under its mask is its OPC. -/
theorem encodeB_mask (b o : Byte) : encodeB b o &&& 0xFFFF00FF#32 = o.setWidth 32 := by
  apply BitVec.eq_of_getLsbD_eq
  intro k hk
  simp only [encodeB, BitVec.getLsbD_and, BitVec.getLsbD_append, BitVec.getLsbD_setWidth]
  interval_cases k <;> simp

/-- A format C word under its mask is its OPC. -/
theorem encodeC_mask (c : BitVec 16) (o : Byte) : encodeC c o &&& 0xFF0000FF#32 = o.setWidth 32 := by
  apply BitVec.eq_of_getLsbD_eq
  intro k hk
  simp only [encodeC, BitVec.getLsbD_and, BitVec.getLsbD_append, BitVec.getLsbD_setWidth]
  interval_cases k <;> simp

theorem TableRow.nop : TableRow.Statement .nop := by unfold TableRow.Statement; decide
theorem TableRow.reset : TableRow.Statement .reset := by unfold TableRow.Statement; decide
theorem TableRow.histReset : TableRow.Statement .histReset := by unfold TableRow.Statement; decide
theorem TableRow.histAdd (b : Byte) : TableRow.Statement (.histAdd b) := encodeB_mask b _
theorem TableRow.treeReset : TableRow.Statement .treeReset := by unfold TableRow.Statement; decide
theorem TableRow.treeBuild : TableRow.Statement .treeBuild := by unfold TableRow.Statement; decide
theorem TableRow.treeSerialize : TableRow.Statement .treeSerialize := by unfold TableRow.Statement; decide
theorem TableRow.treeLoad (c : BitVec 16) : TableRow.Statement (.treeLoad c) := encodeC_mask c _
theorem TableRow.tableGen : TableRow.Statement .tableGen := by unfold TableRow.Statement; decide
theorem TableRow.encSym (s : Byte) : TableRow.Statement (.encSym s) := encodeB_mask s _
theorem TableRow.encFlush : TableRow.Statement .encFlush := by unfold TableRow.Statement; decide
theorem TableRow.decStart : TableRow.Statement .decStart := by unfold TableRow.Statement; decide
theorem TableRow.decByte (b : Byte) : TableRow.Statement (.decByte b) := encodeB_mask b _

end Sys2Proof.Laws
end

