-- ==== Sys2Proof/Laws/TreeBuilder.lean ====
section
/-! SUPPORT. The tree builder's loop: what a candidate is, what `argmin` can answer, how a merge changes the
candidates, and that the loop ends within its 256 passes with NEXT_ID at most 511 (42_tree_builder.md rule R138), so
that `Fault.buildUnfinished` is raised in no state. -/

namespace Sys2Proof.Machine

/-! ## Candidates -/

theorem mem_candidates {h : Hufb} {c : Candidate} :
    c ∈ candidates h ↔ IsCandidate h c.1 ∧ c.2 = peek h.hist c.1 := by
  obtain ⟨i, w⟩ := c
  unfold candidates IsCandidate
  cases e : h.hstart with
  | none => simp
  | some st =>
    have hw : (w.toNat != 0) = true ↔ w ≠ 0 := by
      simp only [bne_iff_ne, ne_eq, not_iff_not]
      exact ⟨fun h => BitVec.eq_of_toNat_eq (by simpa using h), fun h => by simp [h]⟩
    simp only [List.mem_filter, mem_entries, Bool.and_eq_true, decide_eq_true_eq, hw, Option.some.injEq,
      exists_eq_left']
    constructor
    · rintro ⟨rfl, ⟨h1, h2⟩, h3⟩; exact ⟨⟨h1, h2, h3⟩, rfl⟩
    · rintro ⟨⟨h1, h2, h3⟩, rfl⟩; exact ⟨rfl, ⟨h1, h2⟩, h3⟩

theorem mem_without {a c : Candidate} {cs : List Candidate} : c ∈ without a cs ↔ c ∈ cs ∧ c.1 ≠ a.1 := by
  simp [without]

/-- The candidates depend on HIST, HSTART and NEXT_ID alone. -/
theorem candidates_congr {h h' : Hufb} (e1 : h'.hist = h.hist) (e2 : h'.hstart = h.hstart)
    (e3 : h'.nextId = h.nextId) : candidates h' = candidates h := by
  simp only [candidates, e1, e2, e3]

/-! ## `argmin` -/

theorem lighter_iff {a b : Candidate} : lighter a b = true ↔ Before a b := by
  simp [lighter, Before]

theorem Before.asymm {a b : Candidate} (h : Before a b) : ¬ Before b a := by
  unfold Before at *
  omega

theorem argmin_eq_none : ∀ {cs : List Candidate}, argmin cs = none ↔ cs = []
  | [] => by simp [argmin]
  | c :: cs => by
    unfold argmin
    split <;> simp
    split <;> simp

theorem argmin_mem : ∀ {cs : List Candidate} {a : Candidate}, argmin cs = some a → a ∈ cs
  | [], a, e => by simp [argmin] at e
  | c :: cs, a, e => by
    unfold argmin at e
    split at e
    · simp_all
    · split at e
      · simp only [Option.some.injEq] at e
        subst e
        exact List.mem_cons_of_mem _ (argmin_mem ‹_›)
      · simp_all

/-! ## The loop ends -/

/-- The candidates as a set of indices. -/
def candidateSet (h : Hufb) : Finset NodeIx := ((candidates h).map Prod.fst).toFinset

theorem mem_candidateSet {h : Hufb} {i : NodeIx} : i ∈ candidateSet h ↔ IsCandidate h i := by
  simp only [candidateSet, List.mem_toFinset, List.mem_map, mem_candidates]
  constructor
  · rintro ⟨c, ⟨h1, -⟩, rfl⟩; exact h1
  · intro h1; exact ⟨(i, peek h.hist i), ⟨h1, rfl⟩, rfl⟩

theorem nextNode_val {h : Hufb} (hn : h.nextId.toNat < 512) : (nextNode h).val = h.nextId.toNat := by
  simp [nextNode, Fin.ofNat, Config.nodeSlots, Nat.mod_eq_of_lt hn]

/-- NEXT_ID after a merge. -/
theorem merge_nextId {a b : Candidate} {h : Hufb} (hn : h.nextId.toNat < 512) :
    (merge a b h).nextId.toNat = h.nextId.toNat + 1 := by
  show (h.nextId + 1).toNat = _
  rw [BitVec.toNat_add]
  simp
  omega

/-- HIST after a merge: the sum at the new index, 0 at the two merged ones (R136). -/
theorem merge_hist {a b : Candidate} {h : Hufb} (i : NodeIx) :
    peek (merge a b h).hist i =
      if i = b.1 then 0 else if i = a.1 then 0 else if i = nextNode h then a.2 + b.2 else peek h.hist i := by
  show peek (poke (poke (poke h.hist (nextNode h) (a.2 + b.2)) a.1 0) b.1 0) i = _
  simp only [peek_poke]

/-- "record leaf" touches the selected slot only (R136). -/
theorem peek_recordLeaf_of_ne {node : Vector Node Config.nodeSlots} {x i : NodeIx} (h : i ≠ x) :
    peek (recordLeaf x node) i = peek node i := by
  unfold recordLeaf
  split <;> simp [peek_poke_of_ne, h]

theorem peek_recordLeaf_self {node : Vector Node Config.nodeSlots} {x : NodeIx} :
    peek (recordLeaf x node) x =
      if x.val < 256 ∧ (peek node x).valid = false then Node.leaf none else peek node x := by
  unfold recordLeaf
  by_cases h : x.val < 256 <;> cases h2 : (peek node x).valid <;> simp [Config.firstInternal, h]

/-! NODE after a merge, slot by slot (R136). -/

theorem merge_node_of_ne {a b : Candidate} {h : Hufb} {i : NodeIx} (h1 : i ≠ a.1) (h2 : i ≠ b.1)
    (h3 : i ≠ nextNode h) : peek (merge a b h).node i = peek h.node i := by
  simp only [merge, setParent]
  rw [peek_poke_of_ne _ _ h2, peek_poke_of_ne _ _ h1, peek_poke_of_ne _ _ h3, peek_recordLeaf_of_ne h2,
    peek_recordLeaf_of_ne h1]

theorem merge_node_new {a b : Candidate} {h : Hufb} (h1 : nextNode h ≠ a.1) (h2 : nextNode h ≠ b.1) :
    peek (merge a b h).node (nextNode h) = Node.internal a.1 b.1 none := by
  simp only [merge, setParent]
  rw [peek_poke_of_ne _ _ h2, peek_poke_of_ne _ _ h1, peek_poke_self]

theorem merge_node_left {a b : Candidate} {h : Hufb} (h1 : a.1 ≠ nextNode h) (h2 : a.1 ≠ b.1) :
    peek (merge a b h).node a.1 =
      { (if a.1.val < 256 ∧ (peek h.node a.1).valid = false then Node.leaf none else peek h.node a.1) with
        parent := some (nextNode h) } := by
  simp only [merge, setParent]
  rw [peek_poke_of_ne _ _ h2, peek_poke_self, peek_poke_of_ne _ _ h1, peek_recordLeaf_of_ne h2,
    peek_recordLeaf_self]

theorem merge_node_right {a b : Candidate} {h : Hufb} (h1 : b.1 ≠ nextNode h) (h2 : b.1 ≠ a.1) :
    peek (merge a b h).node b.1 =
      { (if b.1.val < 256 ∧ (peek h.node b.1).valid = false then Node.leaf none else peek h.node b.1) with
        parent := some (nextNode h) } := by
  simp only [merge, setParent]
  rw [peek_poke_self, peek_poke_of_ne _ _ h2, peek_poke_of_ne _ _ h1, peek_recordLeaf_self,
    peek_recordLeaf_of_ne h2]

/-- After a merge the candidates are among the new index and those that were not merged. -/
theorem isCandidate_merge {a b : Candidate} {h : Hufb} (hn : h.nextId.toNat < 512) {i : NodeIx}
    (hi : IsCandidate (merge a b h) i) :
    i = nextNode h ∨ (IsCandidate h i ∧ i ≠ a.1 ∧ i ≠ b.1) := by
  obtain ⟨hs, hlt, hne⟩ := hi
  rw [merge_nextId hn] at hlt
  rw [merge_hist] at hne
  by_cases hin : i = nextNode h
  · exact .inl hin
  have hv : i.val ≠ h.nextId.toNat := fun e => hin (Fin.ext (e.trans (nextNode_val hn).symm))
  by_cases hb : i = b.1
  · simp [hb] at hne
  by_cases ha : i = a.1
  · simp [ha] at hne
  simp only [hb, ha, hin, if_false] at hne
  exact .inr ⟨⟨hs, by omega, hne⟩, ha, hb⟩

/-- A merge leaves one candidate fewer, at least. -/
theorem card_merge {a b : Candidate} {h : Hufb} (hn : h.nextId.toNat < 512)
    (ha : argmin (candidates h) = some a) (hb : argmin (without a (candidates h)) = some b) :
    (candidateSet (merge a b h)).card + 1 ≤ (candidateSet h).card := by
  have hac : a.1 ∈ candidateSet h := mem_candidateSet.2 (mem_candidates.1 (argmin_mem ha)).1
  obtain ⟨hb1, hab⟩ := mem_without.1 (argmin_mem hb)
  have hbc : b.1 ∈ candidateSet h := mem_candidateSet.2 (mem_candidates.1 hb1).1
  have hsub : candidateSet (merge a b h) ⊆ insert (nextNode h) (((candidateSet h).erase a.1).erase b.1) := by
    intro i hi
    rcases isCandidate_merge hn (mem_candidateSet.1 hi) with rfl | ⟨h1, h2, h3⟩
    · exact Finset.mem_insert_self _ _
    · exact Finset.mem_insert_of_mem
        (Finset.mem_erase.2 ⟨h3, Finset.mem_erase.2 ⟨h2, mem_candidateSet.2 h1⟩⟩)
  have h1 := (Finset.card_le_card hsub).trans (Finset.card_insert_le _ _)
  rw [Finset.card_erase_of_mem (Finset.mem_erase.2 ⟨hab, hbc⟩), Finset.card_erase_of_mem hac] at h1
  have h2 : 2 ≤ (candidateSet h).card := by
    have : ({a.1, b.1} : Finset NodeIx) ⊆ candidateSet h := by
      intro i hi
      simp only [Finset.mem_insert, Finset.mem_singleton] at hi
      rcases hi with rfl | rfl <;> assumption
    have h3 := Finset.card_le_card this
    rwa [Finset.card_pair (Ne.symm hab)] at h3
  omega

/-- What the loop can do: from at most as many candidates as passes it ends, and every merge it makes takes one index
below 511. -/
theorem buildLoop_ends : ∀ {fuel : Nat} {h : Hufb}, (candidateSet h).card ≤ fuel → 1 ≤ fuel →
    h.nextId.toNat + (candidateSet h).card ≤ 512 → h.nextId.toNat ≤ 511 →
    (∀ f, buildLoop fuel h ≠ .stuck f) ∧
      ∀ h', buildLoop fuel h = .done h' → h.nextId.toNat ≤ h'.nextId.toNat ∧ h'.nextId.toNat ≤ 511
  | 0, h, _, h1, _, _ => absurd h1 (by simp)
  | fuel + 1, h, hc, _, hs, hn => by
    unfold buildLoop
    split
    · refine ⟨by simp, fun h' e => ?_⟩
      cases e; exact ⟨le_refl _, hn⟩
    · rename_i a ha
      split
      · refine ⟨by simp, fun h' e => ?_⟩
        cases e; exact ⟨le_refl _, hn⟩
      · rename_i b hb
        have hac : a.1 ∈ candidateSet h := mem_candidateSet.2 (mem_candidates.1 (argmin_mem ha)).1
        have hlt : h.nextId.toNat < 512 := by omega
        have hm := card_merge hlt ha hb
        split
        · exact ⟨by simp, by simp⟩
        · have hnx := merge_nextId (a := a) (b := b) hlt
          have hbc : b.1 ∈ (candidateSet h).erase a.1 := by
            obtain ⟨hb1, hab⟩ := mem_without.1 (argmin_mem hb)
            exact Finset.mem_erase.2 ⟨hab, mem_candidateSet.2 (mem_candidates.1 hb1).1⟩
          have h2 : 2 ≤ (candidateSet h).card := by
            have h3 := Finset.card_pos.2 ⟨_, hbc⟩
            rw [Finset.card_erase_of_mem hac] at h3
            omega
          have ih := buildLoop_ends (fuel := fuel) (h := merge a b h) (by omega) (by omega) (by omega) (by omega)
          exact ⟨ih.1, fun h' e => ⟨by have := (ih.2 h' e).1; omega, (ih.2 h' e).2⟩⟩

/-- Before the first merge there are at most 256 candidates, whatever the state. -/
theorem card_candidateSet_treeClear (h : Hufb) : (candidateSet (treeClear h)).card ≤ 256 := by
  have hsub : (candidateSet (treeClear h)).image Fin.val ⊆ Finset.range 256 := by
    intro k hk
    obtain ⟨i, hi, rfl⟩ := Finset.mem_image.1 hk
    have := (mem_candidateSet.1 hi).2.1
    simpa using this
  have h1 := Finset.card_le_card hsub
  rwa [Finset.card_image_of_injective _ Fin.val_injective, Finset.card_range] at h1

/-- R138: TREE_BUILD ends in every state. -/
theorem treeBuild_not_stuck (h : Hufb) (f : Fault) : treeBuild h ≠ .stuck f :=
  (buildLoop_ends (h := treeClear h) (card_candidateSet_treeClear h) (by simp)
    (by have := card_candidateSet_treeClear h; simp only [treeClear_eq_cleared, cleared_nextId] at *; simp; omega)
    (by simp)).1 f

/-- R138: a build leaves NEXT_ID in 256..511. -/
theorem treeBuild_nextId {h h' : Hufb} (e : treeBuild h = .done h') :
    256 ≤ h'.nextId.toNat ∧ h'.nextId.toNat ≤ 511 := by
  have := (buildLoop_ends (h := treeClear h) (card_candidateSet_treeClear h) (by simp)
    (by have := card_candidateSet_treeClear h; simp only [treeClear_eq_cleared, cleared_nextId] at *; simp; omega)
    (by simp)).2 h' e
  simpa using this

/-- TREE_BUILD always answers a next state: a build, or its fault. -/
theorem execTreeBuild_next (s : State) : ∃ t, exec .treeBuild s = .next t := by
  rw [exec_eq_conclude]
  cases e : effectOf .treeBuild s.hufb with
  | done h => exact ⟨_, rfl⟩
  | raise r => exact ⟨_, rfl⟩
  | stuck f => exact absurd e (treeBuild_not_stuck _ f)

end Sys2Proof.Machine
end

