-- ==== Sys2Proof/Tests/Slice0.lean ====
section
/-! SUPPORT. Tests: ill-formed lines refused, words of the table decoded, small vectors of spec/95_test_vectors.md (each
test names its vector), and for each statement with hypotheses a witness that meets them. The expected results are
the spec's; no test takes its result from the model. -/

namespace Sys2Proof.Tests

open Sys2Proof.Machine

/-! ## Helpers -/

/-- The result is a next state in which the check holds. -/
def ok (r : Result) (check : State → Bool) : Bool :=
  match r with
  | .next t => check t
  | .fault _ => false
  | .refused _ => false

theorem next_of_ok {r : Result} {check : State → Bool} (h : ok r check = true) :
    ∃ t, r = .next t ∧ check t = true := by
  cases r with
  | next t => exact ⟨t, rfl, h⟩
  | fault f => simp [ok] at h
  | refused f => simp [ok] at h

/-- The word the host reads at an address, `none` for a bus error. -/
def rd (h : Hufb) (a : Nat) : Option Word := (accessLoc (BitVec.ofNat 16 a) 4).bind (readLoc h)

/-- The result is a next state whose words at the given addresses read as given. -/
def reads (r : Result) (words : List (Nat × Word)) : Bool :=
  ok r fun t => words.all fun c => rd t.hufb c.1 == some c.2

/-- The block right after reset with a change. -/
def from' (h : Hufb) : State := { State.reset with hufb := h }

/-- A histogram with two entries. -/
def histOf (i : NodeIx) (a : Weight) (j : NodeIx) (b : Weight) : Vector Weight Config.nodeSlots :=
  poke (poke (Vector.replicate Config.nodeSlots 0) i a) j b

/-- TBUF with the given first elements. -/
def tbufOf (es : List Elem) : Vector Elem Config.tbufLen := storeElems es (Vector.replicate Config.tbufLen 0)

/-- The block with the given first elements in TBUF, from reset. -/
def withTbuf (es : List Elem) : State := from' { Hufb.reset with tbuf := tbufOf es }

/-- After `HIST_ADDS "aab"`. -/
def aabHist : Hufb := { Hufb.reset with hist := histOf 0x61 2 0x62 1, hstart := some 0x61 }

/-- The tree of "aab" (V-TB-2). -/
def aabTree : Tree := .node 256 (.leaf 0x62) (.leaf 0x61)

/-- The slots that hold it. -/
def aabNodes : Vector Node Config.nodeSlots :=
  poke (poke (poke (Vector.replicate Config.nodeSlots Node.empty) 0x61 (Node.leaf (some 256)))
    0x62 (Node.leaf (some 256))) 256 (Node.internal 0x62 0x61 none)

/-- After V-TB-2. -/
def aabBuilt : Hufb :=
  { Hufb.reset with
    node := aabNodes, root := some 256, decPos := some 256, nextId := 257,
    hist := histOf 0x61 0 256 3, hstart := some 0x61 }

/-- After V-ST-1: code "1" for 'a', code "0" for 'b'. -/
def aabTable : Hufb :=
  { aabBuilt with
    len := poke (poke (Vector.replicate Config.symCount 0) 0x61 1) 0x62 1
    code := poke (Vector.replicate Config.symCount 0) 0x61 1
    tableV := true }

/-- The elements of V-TC-1. -/
def aabElems : List Elem := [0x100#16, 0x62#16, 0xFFFF#16, 0xFFFF#16, 0x61#16, 0xFFFF#16, 0xFFFF#16]

/-- A block with FAULT = 1, as V-CTL-3 leaves it. -/
def faultedBlock : Hufb :=
  { Hufb.reset with
    fault := true, cause := .illegalCommand, fcmd := 2, lastCmd := 2, finfoSub := 1, finfoValue := 2 }

/-- A state in which the given agent acts next, with the given accesses still to be made. -/
def acting (t : Turn) (ops : List BusOp) (h : Hufb) : State :=
  { hufb := h, env := { Env.idle with turns := [t], hostOps := ops } }

/-! ## Ill-formed lines are refused (R92, R95, R96) -/

theorem test_wf_missing_operand : (Line.cmd .histAdd none).ops = none := by decide
theorem test_wf_extra_operand : (Line.cmd .nop (some 1)).ops = none := by decide
theorem test_wf_byte_too_big : (Line.cmd .encSym (some 256)).ops = none := by decide
theorem test_wf_byte_negative : (Line.cmd .decByte (some (-1))).ops = none := by decide
theorem test_wf_count_too_big : (Line.cmd .treeLoad (some 32768)).ops = none := by decide
theorem test_wf_count_too_small : (Line.cmd .treeLoad (some (-32769))).ops = none := by decide
theorem test_wf_count_missing : (Line.cmd .treeLoad none).ops = none := by decide
theorem test_wf_write_address : (Line.wr 0x10000 0).ops = none := by decide
theorem test_wf_write_value : (Line.wr 0x0014 (2 ^ 32)).ops = none := by decide
theorem test_wf_read_address : (Line.rd 0x10000 none).ops = none := by decide
theorem test_wf_read_expected : (Line.rd 0x0008 (some (2 ^ 32))).ops = none := by decide
theorem test_wf_length : (Line.decSetlen (2 ^ 64)).ops = none := by decide
theorem test_wf_element : (Line.tbufFill 0 [2 ^ 32]).ops = none := by decide
theorem test_wf_fill_address : (Line.tbufFill 13311 [1, 2]).ops = none := by decide
theorem test_wf_load_tree : (Line.loadTree [0x31, 2 ^ 32]).ops = none := by decide
theorem test_wf_hist_adds : (Line.histAdds [0x61, 256]).ops = none := by decide
theorem test_wf_enc_syms : (Line.encSyms [300]).ops = none := by decide
theorem test_wf_dec_bytes : (Line.decBytes [256]).ops = none := by decide
theorem test_wf_encode_chunk : (Line.encodeChunk [999]).ops = none := by decide

/-- Lines that are well formed, with the words of 95_test_vectors.md P1, P2 and P4. -/
theorem test_lines :
    (Line.cmd .histAdd (some 0x30)).ops = some [.write 0x0004#16 4 0x00003011#32] ∧
    (Line.cmd .treeLoad (some (-1))).ops = some [.write 0x0004#16 4 0x00FFFF31#32] ∧
    (Line.loadTree [0x31, 0xFFFF, 0xFFFF]).ops =
      some [.write 0x3000#16 4 0x31#32, .write 0x3004#16 4 0xFFFF#32, .write 0x3008#16 4 0xFFFF#32,
        .write 0x0004#16 4 0x00000331#32] ∧
    (Line.decSetlen 0x100000005).ops =
      some [.write 0x002C#16 4 5#32, .write 0x0030#16 4 1#32, .write 0x0004#16 4 0x00000060#32] := by
  decide

/-- R96 sets no bound of 16 bits or of TBUF's end: the writes are made, the first keeps bits [15:0] (V-BUS-5), the second
ends in a bus error. -/
theorem test_fill_past_tbuf :
    (Line.tbufFill 1023 [0xABCD1234, 5]).ops = some [.write 0x3FFC#16 4 0xABCD1234#32, .write 0x4000#16 4 5#32] ∧
    reads (busAccess (.write 0x3FFC#16 4 0xABCD1234#32) State.reset) [(0x3FFC, 0x1234#32)] = true ∧
    ok (busAccess (.write 0x4000#16 4 5#32) State.reset) (fun t => t.env.responses == [.error]) = true := by
  decide +kernel

/-- V-BUS-3: a misaligned address can be written in a line. -/
theorem test_line_misaligned : (Line.rd 0x0002 none).ops = some [.read 0x0002#16 4] := by decide

/-- `ENCODE_CHUNK "1"` (W2, R96). -/
theorem test_encode_chunk :
    (Line.encodeChunk [0x31]).ops = some
      ([0x00000010#32, 0x00003111#32, 0x00000021#32, 0x00000030#32, 0x00000040#32, 0x00003150#32,
        0x00000051#32].map fun w => .write 0x0004#16 4 w) := by
  decide

/-! ## Decoding (R90, R93), the words written out from the encoding column of spec/opcode_table.json -/

theorem test_decode_nop : decode 0b00000000000000000000000000000000#32 = .ok .nop := by decide
theorem test_decode_reset : decode 0b00000000000000000000000000000001#32 = .ok .reset := by decide
theorem test_decode_hist_reset : decode 0b00000000000000000000000000010000#32 = .ok .histReset := by decide
theorem test_decode_hist_add : decode 0b00000000000000000110000100010001#32 = .ok (.histAdd 0x61#8) := by decide
theorem test_decode_tree_reset : decode 0b00000000000000000000000000100000#32 = .ok .treeReset := by decide
theorem test_decode_tree_build : decode 0b00000000000000000000000000100001#32 = .ok .treeBuild := by decide
theorem test_decode_tree_serialize : decode 0b00000000000000000000000000110000#32 = .ok .treeSerialize := by decide
theorem test_decode_tree_load :
    decode 0b00000000000000111111111100110001#32 = .ok (.treeLoad 1023#16) := by decide
theorem test_decode_table_gen : decode 0b00000000000000000000000001000000#32 = .ok .tableGen := by decide
theorem test_decode_enc_sym : decode 0b00000000000000001111111101010000#32 = .ok (.encSym 0xFF#8) := by decide
theorem test_decode_enc_flush : decode 0b00000000000000000000000001010001#32 = .ok .encFlush := by decide
theorem test_decode_dec_start : decode 0b00000000000000000000000001100000#32 = .ok .decStart := by decide
theorem test_decode_dec_byte : decode 0b00000000000000001100110101100001#32 = .ok (.decByte 0xCD#8) := by decide

/-- V-CTL-2 to V-CTL-5: why each word is illegal. -/
theorem test_decode_illegal :
    decode 0x00000100#32 = .error (.reservedBits 0x00#8) ∧ decode 0x00000002#32 = .error (.unknownOpc 0x02#8) ∧
    decode 0x01000011#32 = .error (.reservedBits 0x11#8) ∧ decode 0x12345631#32 = .error (.reservedBits 0x31#8) ∧
    decode 0x00010050#32 = .error (.reservedBits 0x50#8) ∧ decode 0xFFFFFFFF#32 = .error (.unknownOpc 0xFF#8) := by
  decide

/-- A count is read as a signed number (R92, V "count -1" of W8). -/
theorem test_count_sign : decode 0x00FFFF31#32 = .ok (.treeLoad 0xFFFF#16) ∧ count 0xFFFF#16 = -1 := by decide

theorem test_decode_table_word :
    decodeTableWord 32 0x00003150 = some (.encSym 0x31#8) ∧ decodeTableWord 32 0x00000022 = none := by decide

/-! ## Commands -/

/-- V-CTL-1, as the first command after reset. -/
theorem test_nop : reads (step (State.reset.withFetchWord 32 0x00000000)) [(0x0008, 0x60#32)] = true := by
  decide +kernel

/-- V-CTL-6. -/
theorem test_reset :
    reads (step ((from' faultedBlock).withFetchWord 32 0x00000001))
      [(0x0008, 0x60#32), (0x000C, 0#32), (0x0010, 0#32), (0x0014, 0#32)] = true := by decide +kernel

/-- V-HIST-3. -/
theorem test_hist_reset :
    reads (step ((from' aabHist).withFetchWord 32 0x00000010))
      [(0x1308, 0#32), (0x0018, 0#32), (0x0008, 0x60#32)] = true := by decide +kernel

/-- V-HIST-2: the minimum, not the first. -/
theorem test_hist_add_minimum :
    reads (exec (.histAdd 0x61#8) (from' { Hufb.reset with hist := histOf 0x62 1 0 0, hstart := some 0x62 }))
      [(0x1308, 1#32), (0x130C, 0#32), (0x1310, 1#32), (0x0018, 0x80000061#32)] = true := by decide +kernel

/-- V-HIST-5. -/
theorem test_hist_add_full :
    reads (step ((from' { Hufb.reset with hist := histOf 0x41 0xFFFFFFFFFFFFFFFF#64 0 0 }).withFetchWord 32 0x00004111))
      [(0x0008, 0x761#32), (0x0010, 0x00010041#32), (0x1208, 0xFFFFFFFF#32), (0x120C, 0xFFFFFFFF#32)] = true := by
  decide +kernel

/-- V-ST-5. -/
theorem test_tree_reset :
    reads (exec .treeReset (from' aabTable))
      [(0x0008, 0x70#32), (0x001C, 0#32), (0x0020, 256#32), (0x6184, 0#32), (0x2400, 0#32), (0x003C, 0#32)] = true := by
  decide +kernel

/-- After `HIST_ADDS "ABCCDD"`. -/
def abccddHist : Hufb :=
  { Hufb.reset with hist := poke (poke (histOf 0x41 1 0x42 1) 0x43 2) 0x44 2, hstart := some 0x41 }

/-- The NODE word of an internal node, from the fields of R61; no parent is 0. -/
def nodeInternal (left right parent : Nat) : Word :=
  BitVec.ofNat 32 (2 ^ 31 + (if parent = 0 then 0 else 2 ^ 29 + parent * 2 ^ 20) + 2 ^ 19 + right * 2 ^ 10 + 2 ^ 9 + left)

/-- V-TB-6, for the merges after the first (256 over A and B, 257 over C and D, 258 over 256 and 257), and V-TB-2. -/
theorem test_tree_build :
    reads (exec .treeBuild (from' abccddHist))
      [(0x2400, nodeInternal 0x41 0x42 258), (0x2404, nodeInternal 0x43 0x44 258), (0x2408, nodeInternal 256 257 0),
       (0x2104, 0xF0000000#32), (0x210C, 0xF0100000#32), (0x001C, 0x80000102#32), (0x1810, 6#32)] = true ∧
    reads (exec .treeBuild (from' aabHist))
      [(0x2400, 0x80098662#32), (0x2184, 0xF0000000#32), (0x2188, 0xF0000000#32), (0x001C, 0x80000100#32),
       (0x0020, 257#32), (0x1800, 3#32), (0x1308, 0#32), (0x1310, 0#32), (0x0008, 0x74#32)] = true := by
  decide +kernel

/-- V-TB-10. -/
theorem test_tree_build_overflow :
    reads (exec .treeBuild
        (from' { Hufb.reset with hist := histOf 0x41 0x8000000000000000#64 0x42 0x8000000000000000#64, hstart := some 0x41 }))
      [(0x0008, 0x771#32), (0x0010, 0x00020100#32), (0x001C, 0#32), (0x2400, 0#32), (0x120C, 0x80000000#32)] = true := by
  decide +kernel

/-- V-TC-1. -/
theorem test_tree_serialize :
    reads (exec .treeSerialize (from' aabBuilt))
      [(0x3000, 0x100#32), (0x3004, 0x62#32), (0x3008, 0xFFFF#32), (0x3010, 0x61#32), (0x3018, 0xFFFF#32),
       (0x301C, 0#32), (0x0024, 7#32)] = true := by decide +kernel

/-- V-TC-3: elements beyond the tree are ignored. -/
theorem test_tree_load_trailing :
    reads (exec (.treeLoad 5#16) (withTbuf [0x31#16, 0xFFFF#16, 0xFFFF#16, 0x99#16, 0x99#16]))
      [(0x001C, 0x80000031#32), (0x0024, 3#32), (0x0008, 0x64#32), (0x20C4, 0xC0000000#32)] = true := by
  decide +kernel

/-- V-TC-11: the deeper fault is reported first. -/
theorem test_tree_load_deeper_first :
    reads (step ((withTbuf [0x100#16, 0x101#16, 0xFFFF#16, 0xFFFF#16, 0x62#16, 0xFFFF#16, 0xFFFF#16]).withFetchWord
        32 0x00000731))
      [(0x0008, 0x661#32), (0x0010, 0x00050001#32), (0x000C, 0x731#32), (0x001C, 0#32), (0x0024, 0#32)] = true := by
  decide +kernel

/-- V-ST-1. -/
theorem test_table_gen :
    reads (exec .tableGen (from' aabBuilt))
      [(0x6184, 1#32), (0x4C20, 0x80000000#32), (0x6188, 1#32), (0x4C40, 0#32), (0x618C, 0#32), (0x0008, 0x7C#32)] =
      true := by decide +kernel

/-- V-ST-2: a single leaf as root takes the one bit 0. -/
theorem test_table_gen_single :
    reads (exec .tableGen (from' { Hufb.reset with
        node := poke (Vector.replicate Config.nodeSlots Node.empty) 0x31 (Node.leaf none), root := some 0x31 }))
      [(0x60C4, 1#32), (0x4620, 0#32), (0x0008, 0x6C#32)] = true := by decide +kernel

/-- V-ENC-2, its second command: 'b' with ACC 0xC0 and POS 6 gives ACC 0xC0 and POS 5. -/
theorem test_enc_sym :
    reads (exec (.encSym 0x62#8) (from' { aabTable with acc := 0xC0#8, pos := 6 }))
      [(0x0028, 0x5C0#32), (0x0040, 0#32)] = true := by decide +kernel

/-- P1 line 16: the code 1101 behind ACC 0xC0 and POS 4 sends the byte 0xCD. -/
theorem test_enc_sym_emits :
    ok (exec (.encSym 0x31#8) (from' { Hufb.reset with
        tableV := true, acc := 0xC0#8, pos := 4,
        len := poke (Vector.replicate Config.symCount 0) 0x31 4,
        code := poke (Vector.replicate Config.symCount 0) 0x31 0b1011 }))
      (fun t => t.hufb.outq == [0xCD#8] && t.hufb.acc == 0 && t.hufb.pos == 8) = true := by decide +kernel

/-- V-ENC-3. -/
theorem test_enc_flush :
    ok (exec .encFlush (from' { aabTable with acc := 0xC0#8, pos := 5 }))
      (fun t => t.hufb.outq == [0xC0#8] && t.hufb.acc == 0 && t.hufb.pos == 8) = true := by decide +kernel

/-- V-ENC-4. -/
theorem test_enc_flush_empty :
    reads (exec .encFlush (from' aabTable)) [(0x0028, 0x800#32), (0x0040, 0#32), (0x0008, 0x7C#32)] = true := by
  decide +kernel

/-- V-DEC-10. -/
theorem test_dec_start :
    reads (exec .decStart (from' { Hufb.reset with decLenLo := 5, decLenHi := 1 }))
      [(0x0034, 5#32), (0x0038, 1#32), (0x003C, 0#32), (0x0008, 0x40#32)] = true := by decide +kernel

/-- V-DEC-2: the decoder stops in mid-byte. -/
theorem test_dec_byte_stops :
    ok (exec (.decByte 0xC0#8) (from' { aabBuilt with remain := 2 }))
      (fun t => t.hufb.outq == [0x61#8, 0x61#8] && t.hufb.remain == 0 && t.hufb.decPos == some 256) = true := by
  decide +kernel

/-- V-DEC-7. -/
theorem test_dec_byte_no_tree :
    reads (step ((from' { Hufb.reset with remain := 1 }).withFetchWord 32 0x0000AB61))
      [(0x0008, 0x241#32), (0x000C, 0xAB61#32), (0x0010, 0x000300AB#32)] = true := by decide +kernel

/-! ## Faults, interrupt, sink, bus -/

/-- V-CTL-3 and V-CTL-7: an unknown OPC faults; while FAULT = 1 a word other than RESET's is discarded. -/
theorem test_illegal :
    reads (step (State.reset.withFetchWord 32 0x00000002))
      [(0x0008, 0x861#32), (0x000C, 2#32), (0x0010, 0x00010002#32)] = true ∧
    reads (step ((from' faultedBlock).withFetchWord 32 0x00000101)) [(0x0008, 0x861#32), (0x000C, 2#32)] = true := by
  decide +kernel

/-- V-FLT-1: TREE_LOAD 0 with the interrupt enabled. -/
theorem test_irq :
    reads (step ((from' { Hufb.reset with fie := true }).withFetchWord 32 0x00000031)) [(0x0008, 0x5E1#32)] = true := by
  decide +kernel

/-- V-FLT-5, from the state after the second ENC_SYM: the sink refuses the byte. -/
theorem test_sink_error :
    ok (step (acting .sinkError [] { aabTable with outq := [0xCD#8], lastCmd := 0x00003150 }))
      (fun t => rd t.hufb 0x0008 == some 0x37D#32 && rd t.hufb 0x000C == some 0x00003150#32 &&
        rd t.hufb 0x0010 == some 1#32 && t.hufb.outq == [] && t.env.accepted == []) = true := by decide +kernel

/-- R242: a poll of OUT_PENDING before or after the sink's step answers another value, and the bus-error outcomes of the
run are the same. -/
theorem test_bus_errors_observed :
    busErrors { State.reset with env := { Env.idle with responses := [.data 1, .done, .error] } } = [false, false, true] ∧
    busErrors { State.reset with env := { Env.idle with responses := [.data 0, .done, .error] } } =
      [false, false, true] := by decide

/-- V-FLT-6: a held write stays the host's next access. -/
theorem test_held :
    ok (step ((from' { Hufb.reset with outq := [1#8] }).withFetchWord 32 0))
      (fun t => t.hufb.outq == [1#8] && t.env.hostOps == [.write 0x0004#16 4 0#32] && t.env.responses == []) = true := by
  decide +kernel

/-- V-BUS-1 to V-BUS-6. -/
theorem test_bus :
    readAnswer Hufb.reset 0x0004#16 4 = .error ∧ readAnswer Hufb.reset 0x0002#16 4 = .error ∧
    readAnswer Hufb.reset 0x0044#16 4 = .error ∧ readAnswer Hufb.reset 0x2800#16 4 = .error ∧
    readAnswer Hufb.reset 0x6400#16 4 = .error ∧ readAnswer Hufb.reset 0x0000#16 4 = .data 0x48554601#32 ∧
    ok (busAccess (.write 0x0000#16 4 0) State.reset) (fun t => t.env.responses == [.error]) = true ∧
    reads (busAccess (.write 0x3000#16 4 0xABCD1234#32) State.reset) [(0x3000, 0x1234#32)] = true ∧
    reads (busAccess (.write 0x0014#16 4 0xFFFFFFFF#32) State.reset) [(0x0014, 1#32)] = true := by
  decide +kernel

/-- The last word of each window and the first address behind it (R60). -/
theorem test_map_edges :
    locate 0x1FFC = some (.hist 511 true) ∧ locate 0x27FC = some (.node 511) ∧ locate 0x2FFC = none ∧
    locate 0x3FFC = some (.tbuf 1023) ∧ locate 0x5FFC = some (.code 255 7) ∧ locate 0x63FC = some (.len 255) ∧
    locate 0x0040 = some (.reg .outPending) ∧ locate 0x0FFC = none ∧ locate 0xFFFC = none := by
  decide +kernel

/-! ## Witnesses: for each statement with hypotheses, a state and operands that meet them -/

theorem nodes_peek (i : NodeIx) :
    peek aabNodes i =
      if i = 256 then Node.internal 0x62 0x61 none else if i = 0x62 then Node.leaf (some 256)
      else if i = 0x61 then Node.leaf (some 256) else Node.empty := by
  simp only [aabNodes, peek_poke, peek_replicate]

theorem aab_valid : aabTree.Valid := by
  unfold Tree.Valid
  decide

/-- A block that holds the tree of "aab". -/
theorem aab_hasTree {h : Hufb} (hr : h.root = some 256) (hn : h.node = aabNodes) : HasTree h aabTree where
  root := hr
  valid := aab_valid
  held := by
    rw [hn]
    refine ⟨?_, ?_, ?_⟩ <;> simp [Tree.Held, nodes_peek]
  others := by
    intro i hi
    rw [hn, nodes_peek]
    simp only [aabTree, Tree.indices, List.mem_cons, List.mem_append, List.not_mem_nil, or_false, not_or] at hi
    simp [hi]

theorem aabBuilt_hasTree : HasTree aabBuilt aabTree := aab_hasTree rfl rfl
theorem aabTable_hasTree : HasTree aabTable aabTree := aab_hasTree rfl rfl

theorem aabHist_histOk : HistOk aabHist := by
  show ∀ i : NodeIx, i < 0x61 → peek aabHist.hist i = 0
  decide +kernel

theorem aabBuilt_histOk : HistOk aabBuilt := by
  show ∀ i : NodeIx, i < 0x61 → peek aabBuilt.hist i = 0
  decide +kernel

theorem active_histOf {h : Hufb} {i j : NodeIx} {a b : Weight} (e : h.hist = histOf i a j b) (hij : i ≠ j)
    (hi : i.val < 256) (hj : j.val < 256) (ha : a.toNat ≠ 0) :
    activeSymbols h = (List.finRange Config.nodeSlots).filter fun k => k == i || (k == j && b.toNat != 0) := by
  unfold activeSymbols
  apply List.filter_congr
  intro k _
  rw [e]
  simp only [histOf, peek_poke, peek_replicate]
  by_cases h1 : k = j
  · subst h1
    have : (k == i) = false := by simpa using hij.symm
    simp [hj, this]
  · by_cases h2 : k = i
    · subst h2; simp [h1, hi, ha]
    · simp [h1, h2]

theorem aabHist_active : activeSymbols aabHist = [0x61, 0x62] ∧ totalWeight aabHist = 3 := by
  have h : activeSymbols aabHist = [0x61, 0x62] := by
    rw [active_histOf (h := aabHist) rfl (by decide) (by decide) (by decide) (by decide)]
    decide +kernel
  refine ⟨h, ?_⟩
  rw [totalWeight, h]
  decide +kernel

/-- One active symbol (V-TB-3). -/
def oneHist : Hufb := { Hufb.reset with hist := histOf 0x31 3 0 0, hstart := some 0x31 }

theorem oneHist_histOk : HistOk oneHist := by
  show ∀ i : NodeIx, i < 0x31 → peek oneHist.hist i = 0
  decide +kernel

theorem oneHist_active : activeSymbols oneHist = [0x31] ∧ totalWeight oneHist = 3 := by
  have h : activeSymbols oneHist = [0x31] := by
    rw [active_histOf (h := oneHist) rfl (by decide) (by decide) (by decide) (by decide)]
    decide +kernel
  refine ⟨h, ?_⟩
  rw [totalWeight, h]
  decide +kernel

theorem reset_active : activeSymbols Hufb.reset = [] := by
  simp [activeSymbols]

theorem packerOk_of_eight {h : Hufb} (hp : h.pos = 8) (ha : h.acc = 0) : PackerOk h where
  posLow := by rw [hp]; decide
  posHigh := by rw [hp]; decide
  accLow := by intro k _; simp [ha]

theorem startsWith_tbufOf (es : List Elem) : StartsWith (tbufOf es) es := by
  intro k hk
  simp [tbufOf, storeElems, hk]

/-! ### Encoding, step, agents -/

theorem witness_IllegalWordsFault :
    (∃ w e, decode w = .error e) ∧ (∃ w : Word, ∀ m : Mnemonic, m.opc ≠ w.extractLsb' 0 8) ∧
      ∃ (w : Word) (m : Mnemonic), m.opc = w.extractLsb' 0 8 ∧ ¬ reservedClear m.format w := by
  refine ⟨⟨2#32, _, test_decode_illegal.2.1⟩, ⟨2#32, ?_⟩, ⟨0x100#32, .nop, by decide, by simp [Mnemonic.format, reservedClear]⟩⟩
  intro m
  cases m <;> decide

theorem witness_StepRunsDecodedCommand :
    (∃ (s : State) (ts : List Turn) (ops : List BusOp) (w : Word) (i : Instr),
      s.env.turns = .host :: ts ∧ s.env.hostOps = .write cmdAddr 4 w :: ops ∧ decode w = .ok i ∧
        s.hufb.outq = [] ∧ s.hufb.fault = false) ∧
    ∃ (s : State) (ts : List Turn) (ops : List BusOp) (w : Word) (i : Instr),
      s.env.turns = .host :: ts ∧ s.env.hostOps = .write cmdAddr 4 w :: ops ∧ decode w = .ok i ∧
        s.hufb.outq = [] ∧ s.hufb.fault = true ∧ w = 0x00000001#32 :=
  ⟨⟨acting .host [.write cmdAddr 4 0x21#32] aabHist, [], [], 0x21#32, .treeBuild, rfl, rfl, by decide, rfl, rfl⟩,
    ⟨acting .host [.write cmdAddr 4 1#32] faultedBlock, [], [], 1#32, .reset, rfl, rfl, by decide, rfl, rfl, rfl⟩⟩

theorem witness_CmdWriteThreeCases :
    let op : BusOp := .write cmdAddr 4 0x21#32
    let held := acting .host [op] { Hufb.reset with outq := [1] }
    let discarded := acting .host [op] faultedBlock
    let issued := acting .host [op] aabHist
    (held.env.turns = [.host] ∧ held.env.hostOps = [op] ∧ held.hufb.outq ≠ []) ∧
    (discarded.env.turns = [.host] ∧ discarded.env.hostOps = [op] ∧ discarded.hufb.outq = [] ∧
      discarded.hufb.fault = true ∧ (0x21#32 : Word) ≠ 0x00000001#32) ∧
    (issued.env.turns = [.host] ∧ issued.env.hostOps = [op] ∧ issued.hufb.outq = [] ∧ issued.hufb.fault = false) := by
  decide

theorem witness_SinkAcceptsOrErrors :
    let idle (t : Turn) := acting t [] Hufb.reset
    let full (t : Turn) := acting t [] { Hufb.reset with outq := [1, 2] }
    ((idle .sinkAccept).env.turns = [.sinkAccept] ∧ (idle .sinkAccept).hufb.outq = []) ∧
    ((full .sinkAccept).env.turns = [.sinkAccept] ∧ (full .sinkAccept).hufb.outq = [1, 2]) ∧
    ((idle .sinkError).env.turns = [.sinkError] ∧ (idle .sinkError).hufb.outq = []) ∧
    ((full .sinkError).env.turns = [.sinkError] ∧ (full .sinkError).hufb.outq ≠ []) := by
  decide

theorem witness_ResetInputLeavesTheResetState : ∃ (s : State) (ts : List Turn), s.env.turns = .reset :: ts :=
  ⟨acting .reset [] aabTable, [], rfl⟩

/-- The third clause with a host write and a host read while BUSY. -/
theorem witness_NothingStartsByItself :
    State.reset.env.turns = [] ∧
    ((acting .host [] aabTable).env.turns = [.host] ∧ (acting .host [] aabTable).env.hostOps = []) ∧
    ((acting .host [.write 0x0014#16 4 1] { aabTable with outq := [1] }).env.turns = [.host] ∧
      (acting .host [.write 0x0014#16 4 1] { aabTable with outq := [1] }).env.hostOps = [.write 0x0014#16 4 1] ∧
      ∀ v, BusOp.write 0x0014#16 4 1 ≠ .write cmdAddr 4 v) ∧
    ((acting .host [.read 0x0008#16 4] aabTable).env.turns = [.host] ∧
      (acting .host [.read 0x0008#16 4] aabTable).env.hostOps = [.read 0x0008#16 4]) :=
  ⟨rfl, ⟨rfl, rfl⟩, ⟨rfl, rfl, by simp [cmdAddr]⟩, ⟨rfl, rfl⟩⟩

theorem witness_HeldWriteCompletesWhenTheSinkAccepts :
    ∃ (s : State) (ts : List Turn) (ops : List BusOp) (w : Word),
      s.env.turns = List.replicate s.hufb.outq.length .sinkAccept ++ .host :: ts ∧
        s.env.hostOps = .write cmdAddr 4 w :: ops ∧ s.hufb.fault = false ∧ s.hufb.outq = [1, 2] :=
  ⟨{ hufb := { Hufb.reset with outq := [1, 2] },
     env := { Env.idle with turns := [.sinkAccept, .sinkAccept, .host], hostOps := [.write cmdAddr 4 0] } },
    [], [], 0, rfl, rfl, rfl, rfl⟩

theorem witness_AddressMapIsOneToOne : ∃ (a : Nat) (l : Loc), locate a = some l := ⟨_, _, test_map_edges.1⟩

theorem witness_BusErrorsExactlyWhere :
    (4 = 4 ∧ ∃ l, locate (0x0014#16 : Addr).toNat = some l ∧ isWritable l) ∧
      ¬ (2 = 4 ∧ ∃ l, locate (0x0014#16 : Addr).toNat = some l ∧ isWritable l) ∧
      ¬ (4 = 4 ∧ ∃ l, locate (0x0000#16 : Addr).toNat = some l ∧ isWritable l) := by
  have h1 : locate (0x0014#16 : Addr).toNat = some (.reg .ctrl) := by decide +kernel
  have h2 : locate (0x0000#16 : Addr).toNat = some (.reg .id) := by decide +kernel
  refine ⟨⟨rfl, _, h1, .inr (.inl rfl)⟩, by simp, ?_⟩
  rintro ⟨-, l, hl, hw⟩
  rw [h2] at hl
  cases hl
  simp [isWritable] at hw

/-- The last element of TBUF, with a byte in OUTQ; CTRL with FAULT = 1. -/
theorem witness_HostWritesStore :
    ((1023 : Fin Config.tbufLen) ≠ 0 ∧ BitVec.ofNat 16 (0x3000 + 4 * (1023 : Fin Config.tbufLen).val) = 0x3FFC#16) ∧
    (∃ s : State, s.env.turns = .host :: [] ∧ s.env.hostOps = .write 0x3FFC#16 4 7 :: [] ∧ s.hufb.outq ≠ []) ∧
    ∃ s : State, s.env.turns = .host :: [] ∧ s.env.hostOps = .write 0x0014#16 4 1 :: [] ∧ s.hufb.fault = true :=
  ⟨by decide, ⟨acting .host [.write 0x3FFC#16 4 7] { Hufb.reset with outq := [1] }, rfl, rfl, by decide⟩,
    ⟨acting .host [.write 0x0014#16 4 1] faultedBlock, rfl, rfl, rfl⟩⟩

theorem witness_RegisterWords : ({ Hufb.reset with outq := List.replicate 32 0 } : Hufb).outq.length ≤ 32 := by decide

theorem witness_CodeWindowBits : (31 : Nat) < 32 ∧ (0 : Nat) < 32 := by decide

/-! ### Faults -/

/-- TREE_LOAD 0 (V-FLT-1): FAULT goes from 0 to 1. -/
theorem witness_FaultsArePrecise :
    ∃ (i : Instr) (s t : State), s.hufb.fault = false ∧ exec i s = .next t ∧ t.hufb.fault = true := by
  obtain ⟨t, h1, h2⟩ := next_of_ok (r := exec (.treeLoad 0#16) State.reset) (check := fun t => t.hufb.fault) (by decide +kernel)
  exact ⟨_, _, t, rfl, h1, h2⟩

theorem witness_FirstFaultWins :
    ∃ s t : State, s.hufb.fault = true ∧ s.hufb.outq = [] ∧ step s = .next t ∧ t.hufb.fault = true := by
  obtain ⟨t, h1, h2⟩ := next_of_ok (r := step (acting .host [.write 0x0014#16 4 1] faultedBlock))
    (check := fun t => t.hufb.fault && t.hufb.fie) (by decide +kernel)
  exact ⟨_, t, rfl, rfl, h1, by simp_all⟩

theorem witness_InterruptLine :
    (∃ v : Word, v.getLsbD 0 = false) ∧
      ∃ s t : State, s.hufb.fault = true ∧ step s = .next t ∧ t.hufb.fault = false :=
  ⟨⟨0, by simp⟩, acting .reset [] faultedBlock, _, rfl, rfl, rfl⟩

/-- Every flag is moved by some command of its list. -/
theorem witness_OnlyTheListedCommandsMoveAFlag :
    ok (exec (.treeLoad 0#16) State.reset) (fun t => t.hufb.fault) = true ∧
    ok (exec .treeBuild (from' aabHist)) (fun t => rootV t.hufb) = true ∧
    ok (exec .tableGen (from' aabBuilt)) (fun t => t.hufb.tableV) = true ∧
    ok (exec (.histAdd 0#8) State.reset) (fun t => hstartV t.hufb) = true ∧
    ok (exec .decStart (from' { Hufb.reset with decLenLo := 1 })) (fun t => !decDone t.hufb) = true ∧
    ok (exec (.encSym 0x61#8) (from' aabTable)) (fun t => !encEmpty t.hufb) = true ∧
    ok (exec .encFlush (from' { aabTable with pos := 7 })) (fun t => busy t.hufb) = true := by
  decide +kernel

/-! ### Histogram and tree builder -/

theorem witness_HistAddResult :
    (peek aabHist.hist (symNode 0x61#8)).toNat ≠ 2 ^ 64 - 1 ∧ aabHist.hstart = some 0x61 ∧ Hufb.reset.hstart = none ∧
      (peek (histOf 0x41 0xFFFFFFFFFFFFFFFF#64 0 0) (symNode 0x41#8)).toNat = 2 ^ 64 - 1 := by
  decide +kernel

theorem witness_HistogramCountsTheString :
    ([] : List Byte).length < 2 ^ 64 ∧ ([0x61#8, 0x61#8, 0x62#8] : List Byte).length < 2 ^ 64 := by decide

theorem witness_SelectionIsTheTwoLeast :
    argmin (candidates aabHist) = some (0x62, 1) ∧
      argmin (without (0x62, 1) (candidates aabHist)) = some (0x61, 2) := by decide +kernel

/-- Zero, one and two active symbols. -/
theorem witness_TreeBuildResult :
    (HistOk Hufb.reset ∧ totalWeight Hufb.reset < 2 ^ 64 ∧ activeSymbols Hufb.reset = []) ∧
    (HistOk oneHist ∧ totalWeight oneHist < 2 ^ 64 ∧ activeSymbols oneHist = [0x31]) ∧
    (HistOk aabHist ∧ totalWeight aabHist < 2 ^ 64 ∧ 2 ≤ (activeSymbols aabHist).length) := by
  refine ⟨⟨fun i _ => peek_reset_hist i, ?_, reset_active⟩, ⟨oneHist_histOk, ?_, oneHist_active.1⟩,
    ⟨aabHist_histOk, ?_, ?_⟩⟩
  · rw [totalWeight, reset_active]; decide
  · rw [oneHist_active.2]; decide
  · rw [aabHist_active.2]; decide
  · rw [aabHist_active.1]; decide

/-- V-TB-4: 256 = (1, 2), then 257 = (3, 256): two merges, after which one candidate is left. And V-TB-2. -/
theorem witness_MergesLinkTheSelectedPair :
    (∃ (s : State) (h : Hufb), Merges { s.hufb with nextId := 256 } 2 h ∧ (∀ a b, ¬ Selects h a b) ∧
      IsCandidate h 257 ∧
      ∃ (g : Hufb), Merges { s.hufb with nextId := 256 } 1 g ∧ Selects g 3 256) ∧
    HistOk aabHist ∧ (∀ i, i ∈ activeSymbols aabHist ↔ i = 0x62 ∨ i = 0x61) ∧
      Before (0x62, peek aabHist.hist 0x62) (0x61, peek aabHist.hist 0x61) ∧
      (peek aabHist.hist 0x62).toNat + (peek aabHist.hist 0x61).toNat < 2 ^ 64 := by
  constructor
  · let h : Hufb := { Hufb.reset with hist := poke (histOf 1 1 2 1) 3 2, hstart := some 1 }
    let h' : Hufb := { h with hist := mergedHist h.hist 256 1 2, nextId := h.nextId + 1 }
    let h'' : Hufb := { h' with hist := mergedHist h'.hist 257 3 256, nextId := h'.nextId + 1 }
    have hc : ∀ i, IsCandidate h i → i = 1 ∨ i = 2 ∨ i = 3 := by
      rintro i ⟨-, -, hne⟩
      by_contra hn
      simp only [not_or] at hn
      simp [h, histOf, peek_poke, hn] at hne
    have hc' : ∀ i, IsCandidate h' i → i = 3 ∨ i = 256 := by
      rintro i ⟨-, -, hne⟩
      by_contra hn
      simp only [not_or] at hn
      by_cases h1 : i = 1 <;> by_cases h2 : i = 2 <;>
        simp [h', h, mergedHist, histOf, peek_poke, hn, h1, h2] at hne
    have hc'' : ∀ i, IsCandidate h'' i → i = 257 := by
      rintro i ⟨-, -, hne⟩
      by_contra hn
      by_cases h1 : i = 1 <;> by_cases h2 : i = 2 <;> by_cases h3 : i = 3 <;> by_cases h4 : i = 256 <;>
        simp [h'', h', h, mergedHist, histOf, peek_poke, hn, h1, h2, h3, h4] at hne
    have s1 : Selects h 1 2 := by
      refine ⟨⟨⟨1, rfl, by decide⟩, by decide, by decide +kernel⟩, ⟨⟨1, rfl, by decide⟩, by decide, by decide +kernel⟩,
        by decide, fun i hi h1 => ?_, fun i hi h1 h2 => ?_⟩
      · rcases hc i hi with rfl | rfl | rfl
        · contradiction
        · exact .inr (by decide +kernel)
        · exact .inl (by decide +kernel)
      · rcases hc i hi with rfl | rfl | rfl
        · contradiction
        · contradiction
        · exact .inl (by decide +kernel)
    have s2 : Selects h' 3 256 := by
      refine ⟨⟨⟨1, rfl, by decide⟩, by decide, by decide +kernel⟩, ⟨⟨1, rfl, by decide⟩, by decide, by decide +kernel⟩,
        by decide, fun i hi h1 => ?_, fun i hi h1 h2 => ?_⟩
      · rcases hc' i hi with rfl | rfl
        · contradiction
        · exact .inr (by decide +kernel)
      · rcases hc' i hi with rfl | rfl <;> contradiction
    have m1 : Merges h 1 h' := .merge (n := 256) (a := 1) (b := 2) .start s1 (by decide +kernel) rfl
    have m2 : Merges h 2 h'' := .merge (n := 257) (a := 3) (b := 256) m1 s2 (by decide +kernel) rfl
    refine ⟨from' h, h'', m2, fun a b sel => sel.distinct ((hc'' a sel.left).trans (hc'' b sel.right).symm),
      ⟨⟨1, rfl, by decide⟩, by decide, by decide +kernel⟩, h', m1, s2⟩
  refine ⟨aabHist_histOk, ?_, ?_, by decide +kernel⟩
  · intro i
    rw [aabHist_active.1]
    simp [or_comm]
  · exact .inl (by decide +kernel)

/-- The first merge (V-TB-10), and the second: 1 + 1 = 2, then 2 + (2^64 - 1). -/
theorem witness_TreeBuildOverflow :
    (∃ (s : State) (a b : NodeIx), Merges { s.hufb with nextId := 256 } 0 s.hufb ∧ Selects s.hufb a b ∧
      2 ^ 64 ≤ (peek s.hufb.hist a).toNat + (peek s.hufb.hist b).toNat) ∧
    ∃ (s : State) (h : Hufb) (a b : NodeIx), Merges { s.hufb with nextId := 256 } 1 h ∧ Selects h a b ∧
      2 ^ 64 ≤ (peek h.hist a).toNat + (peek h.hist b).toNat := by
  constructor
  · let h : Hufb := { Hufb.reset with
      hist := histOf 0x41 0x8000000000000000#64 0x42 0x8000000000000000#64, hstart := some 0x41 }
    have hc : ∀ i, IsCandidate h i → i = 0x41 ∨ i = 0x42 := by
      rintro i ⟨-, -, hne⟩
      by_contra hn
      rw [not_or] at hn
      simp [h, histOf, peek_poke, hn.1, hn.2] at hne
    refine ⟨from' h, 0x41, 0x42, .start, ⟨⟨⟨0x41, rfl, by decide⟩, by decide, by decide +kernel⟩,
      ⟨⟨0x41, rfl, by decide⟩, by decide, by decide +kernel⟩, by decide, ?_, ?_⟩, by decide +kernel⟩
    · intro i hi hne
      rcases hc i hi with rfl | rfl
      · exact absurd rfl hne
      · exact .inr (by decide +kernel)
    · intro i hi h1 h2
      rcases hc i hi with rfl | rfl <;> contradiction
  · let h : Hufb := { Hufb.reset with
      hist := poke (histOf 0x41 1 0x42 1) 0x43 0xFFFFFFFFFFFFFFFF#64, hstart := some 0x41 }
    let h' : Hufb := { h with hist := mergedHist h.hist 256 0x41 0x42, nextId := h.nextId + 1 }
    have hc : ∀ i, IsCandidate h i → i = 0x41 ∨ i = 0x42 ∨ i = 0x43 := by
      rintro i ⟨-, -, hne⟩
      by_contra hn
      simp only [not_or] at hn
      simp [h, histOf, peek_poke, hn] at hne
    have hc' : ∀ i, IsCandidate h' i → i = 0x43 ∨ i = 256 := by
      rintro i ⟨-, -, hne⟩
      by_contra hn
      simp only [not_or] at hn
      by_cases h1 : i = 0x41 <;> by_cases h2 : i = 0x42 <;>
        simp [h', h, mergedHist, histOf, peek_poke, hn, h1, h2] at hne
    refine ⟨from' h, h', 256, 0x43, .merge (n := 256) (a := 0x41) (b := 0x42) .start ⟨⟨⟨0x41, rfl, by decide⟩, by decide,
      by decide +kernel⟩, ⟨⟨0x41, rfl, by decide⟩, by decide, by decide +kernel⟩, by decide, ?_, ?_⟩ (by decide +kernel) rfl,
      ⟨⟨⟨0x41, rfl, by decide⟩, by decide, by decide +kernel⟩, ⟨⟨0x41, rfl, by decide⟩, by decide, by decide +kernel⟩,
      by decide, ?_, ?_⟩, by decide +kernel⟩
    · intro i hi hne
      rcases hc i hi with rfl | rfl | rfl
      · exact absurd rfl hne
      · exact .inr (by decide +kernel)
      · exact .inl (by decide +kernel)
    · intro i hi h1 h2
      rcases hc i hi with rfl | rfl | rfl
      · contradiction
      · contradiction
      · exact .inl (by decide +kernel)
    · intro i hi hne
      rcases hc' i hi with rfl | rfl
      · exact .inl (by decide +kernel)
      · exact absurd rfl hne
    · intro i hi h1 h2
      rcases hc' i hi with rfl | rfl <;> contradiction

theorem witness_SecondBuildFindsNothing :
    ∃ s t : State, HistOk s.hufb ∧ 2 ≤ (activeSymbols s.hufb).length ∧ s.hufb.fault = false ∧
      exec .treeBuild s = .next t ∧ t.hufb.fault = false := by
  obtain ⟨t, h1, h2⟩ := next_of_ok (r := exec .treeBuild (from' aabHist)) (check := fun t => !t.hufb.fault) (by decide +kernel)
  have hl : 2 ≤ (activeSymbols (from' aabHist).hufb).length := by
    show 2 ≤ (activeSymbols aabHist).length
    rw [aabHist_active.1]
    decide
  exact ⟨from' aabHist, t, aabHist_histOk, hl, rfl, h1, by simpa using h2⟩

/-- Two blocks that differ in everything but HIST[0..256) and HSTART. -/
theorem witness_TreeBuildIsDetermined :
    ∃ s s' t : State, s.hufb.hstart = s'.hufb.hstart ∧
      (∀ i : NodeIx, i.val < 256 → peek s.hufb.hist i = peek s'.hufb.hist i) ∧
      s.hufb.fault = false ∧ s'.hufb.fault = false ∧ exec .treeBuild s = .next t ∧ t.hufb.fault = false ∧
      s.hufb.root ≠ s'.hufb.root := by
  obtain ⟨t, h1, h2⟩ := next_of_ok (r := exec .treeBuild (from' aabHist)) (check := fun t => !t.hufb.fault) (by decide +kernel)
  exact ⟨from' aabHist, from' { aabTable with hist := aabHist.hist }, t, rfl, fun _ _ => rfl, rfl, rfl, h1,
    by simpa using h2, by decide⟩

/-! ### Tree codec and table -/

theorem witness_TreeSerializeResult : HasTree (from' aabBuilt).hufb aabTree ∧ State.reset.hufb.root = none :=
  ⟨aabBuilt_hasTree, rfl⟩

theorem witness_SerializedSize : aabTree.Valid := aab_valid

theorem witness_TreeLoadCountCheck : (0#16).toInt < 1 ∧ 1024 < (1025#16).toInt ∧ (0xFFFF#16).toInt < 1 := by decide

theorem witness_TreeLoadResult :
    (aabTree.Valid ∧ (aabTree.preorder.length : Int) ≤ (7#16).toInt ∧ (7#16).toInt ≤ 1024 ∧
      StartsWith (withTbuf aabElems).hufb.tbuf aabTree.preorder) ∧
    (1 ≤ (1024#16).toInt ∧ (1024#16).toInt ≤ 1024 ∧ StartsWith (withTbuf [0xFFFF#16]).hufb.tbuf [0xFFFF#16]) := by
  have h : aabTree.preorder = aabElems := by decide
  refine ⟨⟨aab_valid, by decide, by decide, ?_⟩, by decide, by decide, startsWith_tbufOf _⟩
  rw [h]
  exact startsWith_tbufOf _

theorem witness_LoadedTreeIsValid :
    ∃ (s t : State) (c : BitVec 16), s.hufb.fault = false ∧ exec (.treeLoad c) s = .next t ∧ t.hufb.fault = false ∧
      t.hufb.root = some 256 := by
  obtain ⟨t, h1, h2⟩ := next_of_ok (r := exec (.treeLoad 7#16) (withTbuf aabElems))
    (check := fun t => !t.hufb.fault && t.hufb.root == some 256) (by decide +kernel)
  simp only [Bool.and_eq_true, Bool.not_eq_true', beq_iff_eq] at h2
  exact ⟨_, t, _, rfl, h1, h2.1, h2.2⟩

theorem witness_TruncatedTreeFaults :
    aabTree.Valid ∧ 1 ≤ (6#16).toInt ∧ (6#16).toInt < aabTree.preorder.length ∧
      StartsWith (withTbuf aabElems).hufb.tbuf aabTree.preorder :=
  ⟨aab_valid, by decide, by decide, witness_TreeLoadResult.1.2.2.2⟩

/-- Below node 256 whose left subtree is leaf 0x62, and below node 0x61 (which would not pass check 6) whose left subtree
is absent: the walk gets there. For each clause, elements that meet it, at a position above 0. -/
theorem witness_TreeLoadShapeFaults :
    let ds : List Descent := [.inRight 256 (some (.leaf 0x62)), .inRight 0x61 none]
    let l : Option Tree := some (.leaf 0x63)
    WalkReaches ds ∧ (readElems ds).length = 6 ∧ (6#16).toInt = 6 ∧
    StartsWith (tbufOf (readElems ds)) (readElems ds) ∧
    (512 ≤ (0x200#16 : Elem).toNat ∧ (0x200#16 : Elem) ≠ 0xFFFF#16 ∧
      StartsWith (tbufOf (readElems ds ++ [0x200#16])) (readElems ds ++ [0x200#16])) ∧
    ((0x62 : NodeIx) ∈ readIndices ds ∧ (0x61 : NodeIx) ∈ readIndices ds) ∧
    ((readIndices ds ++ 257 :: (subtreeIndices l ++ subtreeIndices none)).Nodup ∧ l.isNone ≠ (none : Option Tree).isNone ∧
      ∀ t, l = some t → t.shaped = true) ∧
    ((readIndices ds ++ 257 :: (subtreeIndices none ++ subtreeIndices none)).Nodup ∧ 256 ≤ (257 : NodeIx).val) ∧
    ((readIndices ds ++ 0x60 :: (subtreeIndices l ++ subtreeIndices (some (.leaf 0x64)))).Nodup ∧
      (0x60 : NodeIx).val < 256 ∧
      StartsWith (tbufOf (readElems ds ++ indexElem 0x60 :: (subtreeElems l ++ subtreeElems (some (.leaf 0x64)))))
        (readElems ds ++ indexElem 0x60 :: (subtreeElems l ++ subtreeElems (some (.leaf 0x64))))) := by
  refine ⟨by unfold WalkReaches; decide, by decide, by decide, startsWith_tbufOf _,
    ⟨by decide, by decide, startsWith_tbufOf _⟩, by decide, ⟨by decide, by decide, ?_⟩, by decide,
    ⟨by decide, by decide, startsWith_tbufOf _⟩⟩
  intro t ht
  cases ht
  decide

/-- V-TC-10 itself: SUB 6 at position 0. -/
theorem test_tree_load_inner_symbol :
    reads (exec (.treeLoad 7#16) (withTbuf [0x61#16, 0x62#16, 0xFFFF#16, 0xFFFF#16, 0x63#16, 0xFFFF#16, 0xFFFF#16]))
      [(0x0008, 0x661#32), (0x0010, 0x00060000#32)] = true := by decide +kernel

theorem witness_SerializeLoadRoundTrip : TreeOk (from' aabBuilt).hufb ∧ TreeOk State.reset.hufb :=
  ⟨.inr ⟨_, aabBuilt_hasTree⟩, .inl ⟨rfl, peek_reset_node⟩⟩

theorem witness_TableGenResult :
    TreeOk aabBuilt ∧ HasTree aabBuilt aabTree ∧ SymIx.node 0x62 ∈ aabTree.leaves ∧
      (peek aabBuilt.node (SymIx.node 0x63)).valid = false :=
  ⟨.inr ⟨_, aabBuilt_hasTree⟩, aabBuilt_hasTree, by decide, by decide +kernel⟩

/-- The block of V-ST-2. -/
def singleLeaf : Hufb :=
  { Hufb.reset with
    node := poke (Vector.replicate Config.nodeSlots Node.empty) 0x31 (Node.leaf none), root := some 0x31 }

theorem singleLeaf_hasTree : HasTree singleLeaf (.leaf (SymIx.node 0x31)) where
  root := rfl
  valid := by unfold Tree.Valid; decide
  held := peek_poke_self _ _ _
  others := by
    intro i hi
    simp only [Tree.indices, List.mem_singleton] at hi
    have hi' : i ≠ (0x31 : NodeIx) := hi
    show peek (poke _ 0x31 _) i = _
    rw [peek_poke_of_ne _ _ hi', peek_replicate]

theorem witness_GeneratedCodesArePrefixFree :
    (∃ (s u : State) (t : Tree), HasTree s.hufb t ∧ 2 ≤ t.leaves.length ∧ exec .tableGen s = .next u ∧
      SymIx.node 0x61 ∈ t.leaves ∧ SymIx.node 0x62 ∈ t.leaves) ∧
    ∃ (s u : State) (x : SymIx), HasTree s.hufb (.leaf (SymIx.node x)) ∧ exec .tableGen s = .next u := by
  obtain ⟨u, h1, -⟩ := next_of_ok (r := exec .tableGen (from' aabBuilt)) (check := fun t => t.hufb.tableV) (by decide +kernel)
  obtain ⟨v, h2, -⟩ := next_of_ok (r := exec .tableGen (from' singleLeaf)) (check := fun t => t.hufb.tableV) (by decide +kernel)
  exact ⟨⟨_, u, aabTree, aabBuilt_hasTree, by decide, h1, by decide, by decide⟩,
    from' singleLeaf, v, 0x31, singleLeaf_hasTree, h2⟩

/-! ### Encoder and decoder -/

theorem witness_EncSymResult :
    PackerOk aabTable ∧ aabTable.tableV = true ∧ peek aabTable.len (symIx 0x61#8) ≠ 0 :=
  ⟨packerOk_of_eight rfl rfl, rfl, by decide +kernel⟩

/-- With bits waiting: POS = 7. -/
theorem witness_EncSymResult_pending : PackerOk { aabTable with acc := 0x80#8, pos := 7 } where
  posLow := by decide
  posHigh := by decide
  accLow := by
    show ∀ k, k < 7 → (0x80#8).getLsbD k = false
    decide

theorem witness_EncSymFaults :
    aabBuilt.tableV = false ∧ aabTable.tableV = true ∧ peek aabTable.len (symIx 0x63#8) = 0 := by decide +kernel

theorem witness_EncFlushResult :
    ({ aabTable with pos := 5 } : Hufb).pos.toNat < 8 ∧ 8 ≤ aabTable.pos.toNat := by decide

theorem witness_PackedStreamLaw :
    PackerOk aabTable ∧ aabTable.pos = 8 ∧ aabTable.tableV = true ∧
      ∀ b ∈ [0x61#8, 0x61#8, 0x62#8], peek aabTable.len (symIx b) ≠ 0 :=
  ⟨packerOk_of_eight rfl rfl, rfl, rfl, by decide +kernel⟩

theorem witness_DecByteResult :
    (HasTree aabBuilt aabTree ∧ aabTree.IsPosition aabTree ∧ aabBuilt.decPos = some aabTree.root) ∧
      Hufb.reset.remain = 0 := ⟨⟨aabBuilt_hasTree, .inl rfl, rfl⟩, rfl⟩

theorem witness_DecByteNeedsATree :
    ({ Hufb.reset with remain := 1 } : Hufb).remain ≠ 0 ∧ ({ Hufb.reset with remain := 1 } : Hufb).root = none := by
  decide

/-- The premises on the encoding block, and on a decoding block that was given the tree and the length of one "1"
(W2). -/
theorem witness_ChunkRoundTrip :
    ∃ (ss : List Byte) (s t d : State), ss = [0x31#8] ∧ ss.length < 2 ^ 64 ∧ PackerOk s.hufb ∧ s.hufb.pos = 8 ∧
      s.hufb.outq = [] ∧ s.hufb.fault = false ∧ execAll (encodeChunkCmds ss) s = .next t ∧
      t.hufb.tcount = 3 ∧ d.hufb.outq = [] ∧ d.hufb.fault = false ∧
      StartsWith d.hufb.tbuf (t.hufb.tbuf.toList.take t.hufb.tcount.toNat) ∧
      d.hufb.decLenHi.toNat * 2 ^ 32 + d.hufb.decLenLo.toNat = ss.length := by
  obtain ⟨t, h1, h2⟩ := next_of_ok (r := execAll (encodeChunkCmds [0x31#8]) State.reset)
    (check := fun t => t.hufb.tcount == 3 &&
      t.hufb.tbuf.toList.take 3 == [0x31#16, 0xFFFF#16, 0xFFFF#16]) (by decide +kernel)
  simp only [Bool.and_eq_true, beq_iff_eq] at h2
  refine ⟨_, State.reset, t, from' { Hufb.reset with tbuf := tbufOf [0x31#16, 0xFFFF#16, 0xFFFF#16], decLenLo := 1 }, rfl,
    by decide, packerOk_of_eight rfl rfl, rfl, rfl, rfl, h1, h2.1, rfl, rfl, ?_, by decide⟩
  rw [h2.1]
  show StartsWith _ (t.hufb.tbuf.toList.take 3)
  rw [h2.2]
  exact startsWith_tbufOf _

/-! ### Frames and invariants -/

theorem witness_HistogramAndBuilderFrame :
    ok (exec .nop (from' aabHist)) (fun _ => true) = true ∧ ok (exec .reset (from' aabHist)) (fun _ => true) = true ∧
    ok (exec .histReset (from' aabHist)) (fun _ => true) = true ∧
    ok (exec (.histAdd 0x61#8) (from' aabHist)) (fun t => !t.hufb.fault) = true ∧
    ok (exec .treeReset (from' aabTable)) (fun _ => true) = true ∧
    ok (exec .treeBuild (from' aabHist)) (fun t => !t.hufb.fault) = true ∧
    ok (exec (.histAdd 0x41#8) (from' { Hufb.reset with hist := histOf 0x41 0xFFFFFFFFFFFFFFFF#64 0 0 }))
      (fun t => t.hufb.fault) = true := by decide +kernel

theorem witness_CodecFrame :
    ok (exec .treeSerialize (from' aabBuilt)) (fun t => t.hufb.tcount == 7) = true ∧
    ok (exec (.treeLoad 7#16) (withTbuf aabElems)) (fun t => !t.hufb.fault) = true ∧
    ok (exec .tableGen (from' aabBuilt)) (fun t => !t.hufb.fault) = true ∧
    ok (exec (.encSym 0x61#8) (from' aabTable)) (fun t => !t.hufb.fault) = true ∧
    ok (exec .encFlush (from' aabTable)) (fun t => !t.hufb.fault) = true ∧
    ok (exec .decStart (from' aabBuilt)) (fun t => !t.hufb.fault) = true ∧
    ok (exec (.decByte 0xC0#8) (from' { aabBuilt with remain := 2 })) (fun t => !t.hufb.fault) = true := by
  decide +kernel

theorem aabBuilt_tableOk : TableOk aabBuilt where
  bits := by
    intro s k _
    show (peek Hufb.reset.code s).getLsbD k = false
    simp
  off := fun _ s => peek_reset_len s
  current := fun h => by simp [aabBuilt, Hufb.reset] at h

theorem aabBuilt_inv : Inv aabBuilt where
  tree := .inr ⟨_, aabBuilt_hasTree⟩
  decPos := .inr ⟨256, 256, rfl, rfl, .inl rfl⟩
  hist := aabBuilt_histOk
  packer := packerOk_of_eight rfl rfl
  table := aabBuilt_tableOk
  faults :=
    { queue := by decide
      clear := fun _ => ⟨rfl, rfl, rfl, rfl⟩
      raised := fun h => by simp [aabBuilt, Hufb.reset] at h
      idle := fun h => by simp [aabBuilt, Hufb.reset] at h }
  counters := { nextLow := by decide, nextHigh := by decide, tcount := by decide }

/-- For the statements that a step keeps an invariant, and for the one that no step stops: a state with a tree that
meets all of them, in which the host issues TABLE_GEN next. -/
theorem witness_StepKeepsEveryInvariant :
    ∃ s t : State, Inv s.hufb ∧ step s = .next t ∧ t.hufb.tableV = true := by
  obtain ⟨t, h1, h2⟩ := next_of_ok (r := step ((from' aabBuilt).withFetchWord 32 0x40)) (check := fun t => t.hufb.tableV)
    (by decide +kernel)
  exact ⟨_, t, aabBuilt_inv, h1, h2⟩

theorem witness_TreeOkMeetsEveryClause :
    TreeOk aabBuilt ∧ aabBuilt.root = some 256 ∧ (peek aabBuilt.node 0x61).valid = true ∧
      (peek aabBuilt.node 256).left = some 0x62 ∧ (peek aabBuilt.node 0x63).valid = false :=
  ⟨.inr ⟨_, aabBuilt_hasTree⟩, rfl, by decide +kernel, by decide +kernel, by decide +kernel⟩

/-- The last word of the address space and the largest value. -/
theorem witness_AssemblerExpansions :
    (∀ j (hj : j < [0x31, 0xFFFFFFFF].length),
      0x3000 + 4 * (13310 + j) < 2 ^ 16 ∧ [0x31, 0xFFFFFFFF][j] < 2 ^ 32) ∧
      bytesOk [0, 255] = true ∧ 2 ^ 64 - 1 < 2 ^ 64 := by
  refine ⟨?_, by decide, by decide⟩
  intro j hj
  simp only [List.length_cons, List.length_nil] at hj
  interval_cases j <;> simp

end Sys2Proof.Tests
end

section
/-! PROOFS. Progress (O60): in a state with a tree of R47 or none, and a decoder position of R186, every command's
pseudocode has a result, so the model's own faults are never raised there. On the way: how many leaves a tree has, what
a slot of a held tree holds, and that a bit decoded keeps the tree and the decoder position invariant. -/

namespace Sys2Proof.Machine

variable {nodes : Vector Node Config.nodeSlots} {h h' : Hufb} {t : Tree}

/-! ## How many leaves a tree has (R47 clause 4, R151, R171) -/

theorem Tree.leaves_sublist_indices : ∀ t : Tree, t.leaves.Sublist t.indices
  | .leaf _ => List.Sublist.refl _
  | .node i l r => ((leaves_sublist_indices l).append (leaves_sublist_indices r)).cons i

theorem Tree.leaf_lt_of_shaped : ∀ {t : Tree} {i : NodeIx}, t.shaped = true → i ∈ t.leaves → i.val < 256
  | .leaf j, i, hs, hi => by
    obtain rfl : i = j := by simpa [Tree.leaves] using hi
    simpa [Tree.shaped, Config.firstInternal] using hs
  | .node j l r, i, hs, hi => by
    simp only [Tree.shaped, Bool.and_eq_true] at hs
    rcases List.mem_append.1 hi with hi | hi
    · exact leaf_lt_of_shaped hs.1.2 hi
    · exact leaf_lt_of_shaped hs.2 hi

/-- In a shaped tree the indices below 256 stand at leaves. -/
theorem Tree.mem_leaves_of_lt : ∀ {t : Tree} {i : NodeIx}, t.shaped = true → i ∈ t.indices → i.val < 256 →
    i ∈ t.leaves
  | .leaf _, _, _, hi, _ => hi
  | .node j l r, i, hs, hi, hlt => by
    simp only [Tree.shaped, Bool.and_eq_true, decide_eq_true_eq, Config.firstInternal] at hs
    simp only [Tree.indices, List.mem_cons, List.mem_append] at hi
    rcases hi with rfl | hi | hi
    · exact absurd hs.1.1 (by omega)
    · exact List.mem_append_left _ (mem_leaves_of_lt hs.1.2 hi hlt)
    · exact List.mem_append_right _ (mem_leaves_of_lt hs.2 hi hlt)

/-- Distinct leaves with indices below 256: at most 256 of them. -/
theorem Tree.Valid.leaves_length_le (hv : t.Valid) : t.leaves.length ≤ 256 := by
  have hnodup : (t.leaves.map Fin.val).Nodup :=
    (hv.2.sublist t.leaves_sublist_indices).map Fin.val_injective
  have hsub : t.leaves.map Fin.val ⊆ List.range 256 := by
    intro k hk
    obtain ⟨i, hi, rfl⟩ := List.mem_map.1 hk
    exact List.mem_range.2 (Tree.leaf_lt_of_shaped hv.1 hi)
  simpa using (hnodup.subperm hsub).length_le

theorem Tree.height_lt_leaves_length : ∀ t : Tree, t.height < t.leaves.length
  | .leaf _ => by simp [Tree.height, Tree.leaves]
  | .node _ l r => by
    have := height_lt_leaves_length l
    have := height_lt_leaves_length r
    simp only [Tree.height, Tree.leaves, List.length_append]
    omega

/-! ## The slots of a block that has a tree -/

/-- A slot of a held tree: a symbol without children, or a node whose two children are nodes of the tree. -/
theorem held_slot : ∀ {t : Tree} {p : Option NodeIx} {i : NodeIx}, Tree.Held nodes p t → t.shaped = true →
    i ∈ t.indices →
    (i.val < 256 ∧ (peek nodes i).left = none) ∨
      ∃ a b, a ∈ t.indices ∧ b ∈ t.indices ∧ (peek nodes i).left = some a ∧ (peek nodes i).right = some b
  | .leaf j, p, i, hh, hs, hi => by
    obtain rfl : i = j := by simpa [Tree.indices] using hi
    refine .inl ⟨by simpa [Tree.shaped, Config.firstInternal] using hs, ?_⟩
    simp only [Tree.Held] at hh
    simp [hh, Node.leaf]
  | .node j l r, p, i, hh, hs, hi => by
    obtain ⟨hj, hl, hr⟩ := hh
    simp only [Tree.shaped, Bool.and_eq_true] at hs
    simp only [Tree.indices, List.mem_cons, List.mem_append] at hi ⊢
    rcases hi with rfl | hi | hi
    · exact .inr ⟨l.root, r.root, .inr (.inl l.root_mem_indices), .inr (.inr r.root_mem_indices),
        by simp [hj, Node.internal], by simp [hj, Node.internal]⟩
    · exact (held_slot hl hs.1.2 hi).imp_right fun ⟨a, b, ha, hb, e⟩ => ⟨a, b, .inr (.inl ha), .inr (.inl hb), e⟩
    · exact (held_slot hr hs.2 hi).imp_right fun ⟨a, b, ha, hb, e⟩ => ⟨a, b, .inr (.inr ha), .inr (.inr hb), e⟩

theorem HasTree.slot (ht : HasTree h t) {i : NodeIx} (hi : i ∈ t.indices) :
    (i.val < 256 ∧ (peek h.node i).left = none) ∨
      ∃ a b, a ∈ t.indices ∧ b ∈ t.indices ∧ (peek h.node i).left = some a ∧ (peek h.node i).right = some b :=
  held_slot ht.held ht.valid.1 hi

theorem HasTree.mem_indices_of_valid (ht : HasTree h t) {i : NodeIx} (hv : (peek h.node i).valid = true) :
    i ∈ t.indices := by
  by_contra hi
  simp [ht.others i hi, Node.empty] at hv

/-- The tree of a block is a matter of NODE and ROOT. -/
theorem HasTree.congr (hn : h'.node = h.node) (hr : h'.root = h.root) (ht : HasTree h t) : HasTree h' t where
  root := hr ▸ ht.root
  valid := ht.valid
  held := hn ▸ ht.held
  others := hn ▸ ht.others

theorem TreeOk.congr (hn : h'.node = h.node) (hr : h'.root = h.root) : TreeOk h → TreeOk h'
  | .inl ht => .inl ⟨hr ▸ ht.root, hn ▸ ht.empty⟩
  | .inr ⟨t, ht⟩ => .inr ⟨t, ht.congr hn hr⟩

theorem TreeOk.hasTree_of_root {r : NodeIx} (ht : TreeOk h) (hr : h.root = some r) :
    ∃ t, HasTree h t ∧ r = t.root := by
  obtain hn | ⟨t, ht⟩ := ht
  · simp [hn.root] at hr
  · exact ⟨t, ht, Option.some.inj (hr.symm.trans ht.root)⟩

/-! ## TREE_SERIALIZE (R150, R151) -/

/-- R151: the preorder of a tree R47 allows fits TBUF. -/
theorem Tree.Valid.preorder_length_le (hv : t.Valid) : t.preorder.length ≤ Config.tbufLen := by
  have h1 := t.preorder_length_add_one
  have h2 := hv.leaves_length_le
  simp only [Config.tbufLen]
  omega

theorem TreeOk.serialize_fits (ht : TreeOk h) :
    ∃ es, serialize h.node Config.nodeSlots h.root = some es ∧ es.length ≤ Config.tbufLen := by
  obtain hn | ⟨t, ht⟩ := ht
  · exact ⟨[Config.sentinel], by simp [hn.root, serialize], by simp⟩
  · exact ⟨t.preorder, by rw [ht.root, serialize_held ht.held (Tree.height_lt_slots ht.valid.2)],
      ht.valid.preorder_length_le⟩

theorem treeSerialize_not_stuck (ht : TreeOk h) (f : Fault) : treeSerialize h ≠ .stuck f := by
  obtain ⟨es, hes, hfit⟩ := ht.serialize_fits
  simp [treeSerialize, hes, hfit]

/-! ## TABLE_GEN (R170, R171) -/

/-- R171: from a symbol of the tree the way up to the root has at most 255 steps, and it is the path down, reversed. -/
theorem HasTree.pathUp_symbol (ht : HasTree h t) {i : NodeIx} (hi : i ∈ t.leaves) :
    ∃ p, t.pathTo i = some p ∧ pathUp h.node Config.maxCodeLen i = some p.reverse := by
  obtain ⟨p, hp⟩ := Tree.pathTo_of_mem hi
  have hf := Tree.follow_pathTo hp
  have h1 := Tree.follow_length hf
  have h2 := t.height_lt_leaves_length
  have h3 := ht.valid.leaves_length_le
  exact ⟨p, hp, pathUp_follow ht.held ht.valid.2 hf (by simp only [Config.maxCodeLen]; omega)⟩

theorem TreeOk.tableEntry_some (ht : TreeOk h) (s : SymIx) :
    ∃ e, tableEntry h s (peek h.node (SymIx.node s)) = some e := by
  unfold tableEntry
  split
  · exact ⟨_, rfl⟩
  rename_i hvalid
  split
  · exact ⟨_, rfl⟩
  obtain hn | ⟨t, ht⟩ := ht
  · simp [hn.empty, Node.empty] at hvalid
  · have hmem := ht.mem_indices_of_valid (by simpa using hvalid)
    obtain ⟨p, -, hp⟩ := ht.pathUp_symbol (Tree.mem_leaves_of_lt ht.valid.1 hmem s.isLt)
    exact ⟨_, by rw [hp]; rfl⟩

/-- The slot listed for a symbol is the symbol's own. -/
theorem symbolSlots_eq (h : Hufb) :
    symbolSlots h = (List.finRange Config.symCount).map fun s => (s, peek h.node (SymIx.node s)) := by
  apply List.ext_getElem
  · simp [symbolSlots, Config.symCount, Config.nodeSlots]
  · intro k h1 h2
    simp [symbolSlots, peek, SymIx.node]

/-- `mapM` answers a list when the function answers on every element. -/
theorem exists_mapM_eq_some {α β : Type} {f : α → Option β} : ∀ {xs : List α}, (∀ x ∈ xs, ∃ y, f x = some y) →
    ∃ ys, xs.mapM f = some ys
  | [], _ => ⟨[], rfl⟩
  | x :: xs, hf => by
    obtain ⟨y, hy⟩ := hf x List.mem_cons_self
    obtain ⟨ys, hys⟩ := exists_mapM_eq_some fun z hz => hf z (List.mem_cons_of_mem x hz)
    exact ⟨y :: ys, by simp [List.mapM_cons, hy, hys]⟩

theorem tableGen_not_stuck (ht : TreeOk h) (f : Fault) : tableGen h ≠ .stuck f := by
  have hes : ∃ es, tableEntries h = some es := by
    apply exists_mapM_eq_some
    rw [symbolSlots_eq]
    intro c hc
    obtain ⟨s, -, rfl⟩ := List.mem_map.1 hc
    exact ht.tableEntry_some s
  obtain ⟨es, hes⟩ := hes
  simp [tableGen, hes]

/-! ## DEC_BYTE (R185, R186) -/

theorem emitSymbol_symbol {i : NodeIx} (hi : i.val < 256) (h : Hufb) : ∃ h', emitSymbol i h = .ok h' := by
  simp [emitSymbol, indexByte, Config.symCount, hi]

/-- R186 on a tree: the decoder stands at a node of the tree, and that node has two children unless it is a single leaf
as root. -/
theorem HasTree.decPos_cases (ht : HasTree h t) (hd : DecPosOk h) :
    ∃ d, h.decPos = some d ∧ d ∈ t.indices ∧ ((peek h.node t.root).left ≠ none → (peek h.node d).left ≠ none) := by
  obtain ⟨hr, -⟩ | ⟨r, d, hr, hdp, hcase⟩ := hd
  · simp [ht.root] at hr
  obtain rfl : t.root = r := Option.some.inj (ht.root.symm.trans hr)
  refine ⟨d, hdp, ?_⟩
  rcases hcase with rfl | ⟨hvalid, hleft⟩
  · exact ⟨t.root_mem_indices, id⟩
  · exact ⟨ht.mem_indices_of_valid hvalid, fun _ => Option.isSome_iff_ne_none.1 hleft⟩

/-- Where the tree has more than one leaf, each bit leads from the decoder's position to a node of the tree. -/
theorem HasTree.decPos_child (ht : HasTree h t) (hd : DecPosOk h) (hroot : (peek h.node t.root).left ≠ none)
    (x : Bool) :
    ∃ d c, h.decPos = some d ∧ c ∈ t.indices ∧
      (if x then (peek h.node d).right else (peek h.node d).left) = some c := by
  obtain ⟨d, hdp, hmem, hinner⟩ := ht.decPos_cases hd
  obtain ⟨-, hleaf⟩ | ⟨a, b, ha, hb, hl, hr⟩ := ht.slot hmem
  · exact absurd hleaf (hinner hroot)
  · cases x
    · exact ⟨d, a, hdp, ha, by simpa using hl⟩
    · exact ⟨d, b, hdp, hb, by simpa using hr⟩

/-- The body of R185's loop has a result on a tree with the decoder at one of its positions. -/
theorem decBit_next (ht : HasTree h t) (hd : DecPosOk h) (x : Bool) : ∃ h', decBit t.root x h = .ok h' := by
  unfold decBit
  split
  case isTrue hleaf =>
    obtain ⟨hlt, -⟩ | ⟨a, b, -, -, hl, -⟩ := ht.slot t.root_mem_indices
    · exact emitSymbol_symbol hlt h
    · simp [hl] at hleaf
  case isFalse hinner =>
    obtain ⟨d, c, hdp, hc, hchild⟩ := ht.decPos_child hd hinner x
    simp only [hdp, hchild]
    split
    case isFalse => exact ⟨_, rfl⟩
    case isTrue hleaf =>
      obtain ⟨hlt, -⟩ | ⟨a, b, -, -, hl, -⟩ := ht.slot hc
      · obtain ⟨h', e⟩ := emitSymbol_symbol hlt h
        exact ⟨_, by rw [e]⟩
      · simp [hl] at hleaf

theorem decBit_hasTree {r : NodeIx} {x : Bool} (ht : HasTree h t) (e : decBit r x h = .ok h') : HasTree h' t := by
  have hf := (decBit_frame e).1
  exact ht.congr (by rw [hf]) (by rw [hf])

/-- R186: one bit leaves the decoder at the root or at a node with children. -/
theorem decBit_decPosOk {x : Bool} (ht : HasTree h t) (hd : DecPosOk h) (e : decBit t.root x h = .ok h') :
    DecPosOk h' := by
  obtain ⟨-, -, rfl⟩ | ⟨d, c, hroot, hdp, hchild, ⟨-, -, rfl⟩ | ⟨hinner, rfl⟩⟩ := decBit_ok e
  · exact hd
  · exact .inr ⟨t.root, t.root, ht.root, rfl, .inl rfl⟩
  · obtain ⟨d', c', hdp', hc, hchild'⟩ := ht.decPos_child hd hroot x
    obtain rfl : d' = d := Option.some.inj (hdp'.symm.trans hdp)
    obtain rfl : c' = c := Option.some.inj (hchild'.symm.trans hchild)
    exact .inr ⟨t.root, c', ht.root, rfl,
      .inr ⟨held_valid ht.held hc, Option.isSome_iff_ne_none.2 hinner⟩⟩

theorem decBits_next : ∀ (xs : List Bool) {h : Hufb}, HasTree h t → DecPosOk h → ∃ h', decBits t.root xs h = .ok h'
  | [], h, _, _ => ⟨h, rfl⟩
  | x :: xs, h, ht, hd => by
    unfold decBits
    split
    · exact ⟨h, rfl⟩
    · obtain ⟨h₁, e⟩ := decBit_next ht hd x
      rw [e]
      exact decBits_next xs (decBit_hasTree ht e) (decBit_decPosOk ht hd e)

theorem decByte_not_stuck (ht : TreeOk h) (hd : DecPosOk h) (b : Byte) (f : Fault) : decByte b h ≠ .stuck f := by
  unfold decByte
  split
  · simp
  split
  · simp
  · rename_i r hr
    obtain ⟨t, ht, rfl⟩ := ht.hasTree_of_root hr
    obtain ⟨h', e⟩ := decBits_next (bitsMsbFirst b) ht hd
    simp [e]

/-! ## Every command, every step -/

/-- Only the tree and the decoder position decide whether a command's pseudocode has a result. -/
theorem effectOf_not_stuck (i : Instr) (ht : TreeOk h) (hd : DecPosOk h) (f : Fault) : effectOf i h ≠ .stuck f := by
  cases i with
  | histAdd b => exact histAdd_not_stuck
  | treeBuild => exact treeBuild_not_stuck h f
  | treeSerialize => exact treeSerialize_not_stuck ht f
  | treeLoad c => exact treeLoad_not_stuck
  | tableGen => exact tableGen_not_stuck ht f
  | encSym b => exact encSym_not_stuck
  | decByte b => exact decByte_not_stuck ht hd b f
  | nop | reset | histReset | treeReset | encFlush | decStart => exact Effect.noConfusion

theorem exec_has_next (i : Instr) {s : State} (ht : TreeOk s.hufb) (hd : DecPosOk s.hufb) :
    ∃ t, exec i s = .next t := by
  rw [exec_eq_conclude]
  cases e : effectOf i s.hufb with
  | done h => exact ⟨_, rfl⟩
  | raise r => exact ⟨_, rfl⟩
  | stuck f => exact absurd e (effectOf_not_stuck i ht hd f)

/-- A step has a next state, or it is a CMD write that runs a command. -/
theorem step_next_or_exec (s : State) :
    (∃ t, step s = .next t) ∨
      ∃ (w : Word) (i : Instr) (u : State), u.hufb = { s.hufb with lastCmd := w } ∧ step s = exec i u := by
  unfold step
  split
  · exact .inl ⟨_, rfl⟩
  rename_i turn turns _
  cases turn with
  | sinkAccept | sinkError | reset => exact .inl ⟨_, rfl⟩
  | host =>
    simp only [agentTurn, hostTurn]
    split
    · exact .inl ⟨_, rfl⟩
    rename_i op ops _
    split
    · exact .inl ⟨_, rfl⟩
    cases op with
    | read a n => exact .inl ⟨_, rfl⟩
    | write a n w =>
      simp only [busAccess, cmdWrite]
      split
      · split
        · exact .inl ⟨_, rfl⟩
        · obtain ⟨_, -, e⟩ | ⟨i, -, e⟩ := issue_cases w (respond .done
            { s with env := { s.env with turns := turns, hostOps := ops } })
          · exact .inl ⟨_, e⟩
          · exact .inr ⟨w, i, _, rfl, e⟩
      · exact .inl ⟨_, rfl⟩

/-- Settles O60: only an executed command could stop a step, and the tree and decoder position invariants leave every
command a result. LAST_CMD, which the CMD write has just set, is in neither invariant. -/
theorem noStepStopsInAnInvariantState : Obligations.NoStepStopsInAnInvariantState := by
  unfold Obligations.NoStepStopsInAnInvariantState
  intro s hinv
  obtain hnext | ⟨w, i, u, hu, hstep⟩ := step_next_or_exec s
  · exact hnext
  · have htree : TreeOk u.hufb := hinv.tree.congr (by rw [hu]) (by rw [hu])
    have hdec : DecPosOk u.hufb := by rw [hu]; exact hinv.decPos
    rw [hstep]
    exact exec_has_next i htree hdec

end Sys2Proof.Machine
end

section
/-! PROOFS. What one step can do to the block's data, said once for all invariants: either the step is the completion of a
command, or it touches only the fault registers, the host's own registers, TBUF and OUTQ. And, for a command that
completes, which commands own which part of the block (R51 and the command rules). -/

namespace Sys2Proof.Machine

variable {h h' : Hufb} {s t : State} {i : Instr}

/-! ## Steps -/

/-- The two blocks agree on everything but the fault registers, LAST_CMD, CTRL, DEC_LEN, TBUF and OUTQ. -/
structure SameData (h h' : Hufb) : Prop where
  hist : h'.hist = h.hist
  hstart : h'.hstart = h.hstart
  node : h'.node = h.node
  root : h'.root = h.root
  nextId : h'.nextId = h.nextId
  tcount : h'.tcount = h.tcount
  len : h'.len = h.len
  code : h'.code = h.code
  tableV : h'.tableV = h.tableV
  acc : h'.acc = h.acc
  pos : h'.pos = h.pos
  remain : h'.remain = h.remain
  decPos : h'.decPos = h.decPos

theorem writeLoc_sameData {v : Word} {l : Loc} (e : writeLoc h v l = some h') : SameData h h' := by
  rw [writeLoc_frame e]
  constructor <;> rfl

/-- A step leaves the block's data alone, or it completes a command on a block with the same data. (The reset input does
what RESET does.) -/
theorem step_data (e : step s = .next t) :
    SameData s.hufb t.hufb ∨ ∃ i g, SameData s.hufb g ∧ effectOf i g = .done t.hufb := by
  obtain hsame | ⟨l, v, hw⟩ | ⟨b, q, -, hpop⟩ | ⟨-, hrw⟩ | hreset | ⟨w, u, -, -, hu, hissue⟩ := step_cases e
  · rw [hsame]; exact .inl (by constructor <;> rfl)
  · exact .inl (writeLoc_sameData hw)
  · rw [hpop]; exact .inl (by constructor <;> rfl)
  · rw [hrw]; exact .inl (by constructor <;> rfl)
  · exact .inr ⟨.reset, s.hufb, by constructor <;> rfl, by rw [hreset]; rfl⟩
  · rw [← hu]
    obtain ⟨x, -, hill⟩ | ⟨i, -, hexec⟩ := issue_cases w u
    · rw [hill] at hissue
      cases hissue
      exact .inl (by constructor <;> rfl)
    · rw [hexec] at hissue
      obtain ⟨g, hdone, rfl⟩ | ⟨r, -, rfl⟩ := exec_next hissue
      · exact .inr ⟨i, _, by constructor <;> rfl, hdone⟩
      · exact .inl (by constructor <;> rfl)

/-- An invariant of the block's data is kept by every step when every command that completes keeps it. -/
theorem step_keeps {P : Hufb → Prop} (hsame : ∀ {h h'}, SameData h h' → P h → P h')
    (hdone : ∀ {i h h'}, effectOf i h = .done h' → P h → P h') (e : step s = .next t) (hP : P s.hufb) :
    P t.hufb := by
  obtain hd | ⟨i, g, hd, hc⟩ := step_data e
  · exact hsame hd hP
  · exact hdone hc (hsame hd hP)

/-! ## The owners of each part of the block -/

/-- What a command may change when it completes: each part of the block is as it was, or the command is one of those that
own the part. A part is what one invariant speaks of: the table is read with the tree it was made from, HIST with
HSTART. -/
structure ChangesOwnPart (i : Instr) (h h' : Hufb) : Prop where
  tree : (h'.node = h.node ∧ h'.root = h.root ∧ h'.nextId = h.nextId) ∨
    i = .treeReset ∨ i = .treeBuild ∨ i = .reset ∨ ∃ c, i = .treeLoad c
  table : (h'.node = h.node ∧ h'.root = h.root ∧ h'.len = h.len ∧ h'.code = h.code ∧ h'.tableV = h.tableV) ∨
    i = .tableGen ∨ i = .treeReset ∨ i = .treeBuild ∨ i = .reset ∨ ∃ c, i = .treeLoad c
  hist : (h'.hist = h.hist ∧ h'.hstart = h.hstart) ∨
    i = .treeBuild ∨ i = .histReset ∨ i = .reset ∨ ∃ b, i = .histAdd b
  hstart : h'.hstart = h.hstart ∨ i = .histReset ∨ i = .reset ∨ ∃ b, i = .histAdd b
  tcount : h'.tcount = h.tcount ∨ i = .treeSerialize ∨ i = .reset ∨ ∃ c, i = .treeLoad c
  packer : (h'.acc = h.acc ∧ h'.pos = h.pos) ∨ i = .encFlush ∨ i = .reset ∨ ∃ b, i = .encSym b
  remain : h'.remain = h.remain ∨ i = .decStart ∨ i = .reset ∨ ∃ b, i = .decByte b
  outq : h'.outq = h.outq ∨ i = .encFlush ∨ i = .reset ∨ (∃ b, i = .encSym b) ∨ ∃ b, i = .decByte b

/-- A command that completes changes only the parts it owns. -/
theorem effectOf_done_own (e : effectOf i h = .done h') : ChangesOwnPart i h h' := by
  cases i with
  | nop => cases e; constructor <;> simp
  | reset => constructor <;> simp
  | histReset => cases e; constructor <;> simp [histReset]
  | histAdd b => rw [(histAdd_done e).2]; constructor <;> simp
  | treeReset => cases e; constructor <;> simp [treeReset]
  | treeBuild => rw [treeBuild_done e]; constructor <;> simp
  | treeSerialize => obtain ⟨es, -, -, rfl⟩ := treeSerialize_done e; constructor <;> simp
  | treeLoad c => obtain ⟨-, root, w, -, rfl⟩ := treeLoad_done e; constructor <;> simp
  | tableGen => obtain ⟨es, -, rfl⟩ := tableGen_done e; constructor <;> simp
  | encSym b => rw [(encSym_done e).2.2, putBits_frame]; constructor <;> simp
  | encFlush =>
    obtain rfl : encFlush h = h' := by simpa [effectOf] using e
    rw [encFlush_frame]; constructor <;> simp
  | decStart => cases e; constructor <;> simp [decStart]
  | decByte b => rw [(decByte_frame e).1]; constructor <;> simp

end Sys2Proof.Machine
end

section
/-! PROOFS. The flags (O22) and the histogram invariant (O56), with the induction over the passes of TREE_BUILD's loop. -/

namespace Sys2Proof.Machine

variable {h h' : Hufb} {s t : State} {i : Instr}

/-! ## The flags (R51) -/

/-- Settles O22: a command that completes changes only the parts it owns, and each flag is a view of one part; a command
that raises changes no flag but FAULT. -/
theorem onlyTheListedCommandsMoveAFlag : Obligations.OnlyTheListedCommandsMoveAFlag := by
  unfold Obligations.OnlyTheListedCommandsMoveAFlag
  intro i s t e
  obtain ⟨h, hdone, rfl⟩ | ⟨r, -, rfl⟩ := exec_next e
  · have own := effectOf_done_own hdone
    refine ⟨fun hne => .inr ?_, fun hne => own.tree.resolve_left ?_, fun hne => own.table.resolve_left ?_,
      fun hne => own.hstart.resolve_left ?_, fun hne => own.remain.resolve_left ?_,
      fun hne => own.packer.resolve_left ?_, fun hne => own.outq.resolve_left ?_⟩
    · by_contra hi
      exact hne (effectOf_done_frame hi hdone).1
    · rintro ⟨-, hroot, -⟩
      exact hne (by simp [rootV, hroot])
    · rintro ⟨-, -, -, -, htab⟩
      exact hne htab
    · intro hst
      exact hne (by simp [hstartV, hst])
    · intro hrem
      exact hne (by simp [decDone, hrem])
    · rintro ⟨-, hpos⟩
      exact hne (by simp [encEmpty, hpos])
    · intro hq
      exact hne (by simp [busy, hq])
  · exact ⟨fun hne => .inl (by simpa using hne), by simp [rootV, hstartV, decDone, encEmpty, busy]⟩

/-! ## The passes of TREE_BUILD (R136, R138) -/

/-- NEXT_ID has room for every merge the candidates allow. -/
structure MergeRoom (h : Hufb) : Prop where
  low : 256 ≤ h.nextId.toNat
  high : h.nextId.toNat + (candidateSet h).card ≤ 512

/-- The loop merges `a` and `b`: two distinct candidates with their weights, whose sum fits, and a slot for the new
node. -/
structure MergesPair (h : Hufb) (a b : Candidate) : Prop where
  left : IsCandidate h a.1
  leftWeight : a.2 = peek h.hist a.1
  right : IsCandidate h b.1
  rightWeight : b.2 = peek h.hist b.1
  ne : b.1 ≠ a.1
  fits : a.2.toNat + b.2.toNat < 2 ^ 64
  low : 256 ≤ h.nextId.toNat
  high : h.nextId.toNat < 512

theorem mergesPair_of_argmin {a b : Candidate} (hroom : MergeRoom h) (ha : argmin (candidates h) = some a)
    (hb : argmin (without a (candidates h)) = some b) (hfits : a.2.toNat + b.2.toNat < 2 ^ 64) :
    MergesPair h a b := by
  obtain ⟨hac, haw⟩ := mem_candidates.1 (argmin_mem ha)
  obtain ⟨hb', hne⟩ := mem_without.1 (argmin_mem hb)
  obtain ⟨hbc, hbw⟩ := mem_candidates.1 hb'
  have hcard := Finset.card_pos.2 ⟨a.1, mem_candidateSet.2 hac⟩
  have hhigh := hroom.high
  exact ⟨hac, haw, hbc, hbw, hne, hfits, hroom.low, by omega⟩

theorem mergeRoom_merge {a b : Candidate} (hroom : MergeRoom h) (ha : argmin (candidates h) = some a)
    (hb : argmin (without a (candidates h)) = some b) (hlt : h.nextId.toNat < 512) : MergeRoom (merge a b h) := by
  have hlow := hroom.low
  have hhigh := hroom.high
  have hcard := card_merge hlt ha hb
  have hnext := merge_nextId (a := a) (b := b) hlt
  exact ⟨by omega, by omega⟩

theorem mergeRoom_cleared (h : Hufb) : MergeRoom (cleared h) := by
  have hcard := card_candidateSet_treeClear h
  rw [treeClear_eq_cleared] at hcard
  exact ⟨by simp, by simp only [cleared_nextId]; simp; omega⟩

/-- How a build ends on the block that the merges left: without a candidate, or with the one that is the root. -/
def BuildEnds (g h' : Hufb) : Prop :=
  ((∀ i, ¬ IsCandidate g i) ∧ h' = finishBuild none g) ∨
    ∃ r, IsCandidate g r ∧ (∀ i, IsCandidate g i → i = r) ∧ h' = soleRoot r g

theorem not_isCandidate_of_argmin_eq_none (hn : argmin (candidates h) = none) (i : NodeIx) : ¬ IsCandidate h i := by
  intro hi
  have : (i, peek h.hist i) ∈ candidates h := mem_candidates.2 ⟨hi, rfl⟩
  simp [argmin_eq_none.1 hn] at this

theorem eq_of_argmin_without_eq_none {a : Candidate} (hn : argmin (without a (candidates h)) = none) {i : NodeIx}
    (hi : IsCandidate h i) : i = a.1 := by
  by_contra hne
  have : (i, peek h.hist i) ∈ without a (candidates h) := mem_without.2 ⟨mem_candidates.2 ⟨hi, rfl⟩, hne⟩
  simp [argmin_eq_none.1 hn] at this

/-- Induction over the passes of the loop: what every merge keeps holds where the merging ends. -/
theorem buildLoop_induction {P : Hufb → Prop} (hmerge : ∀ {h a b}, MergesPair h a b → P h → P (merge a b h)) :
    ∀ {fuel : Nat} {h h' : Hufb}, MergeRoom h → P h → buildLoop fuel h = .done h' → ∃ g, P g ∧ BuildEnds g h'
  | 0, h, h', _, _, e => by simp [buildLoop] at e
  | fuel + 1, h, h', hroom, hP, e => by
    unfold buildLoop at e
    split at e
    case h_1 hnone =>
      cases e
      exact ⟨h, hP, .inl ⟨not_isCandidate_of_argmin_eq_none hnone, rfl⟩⟩
    case h_2 a ha =>
      split at e
      case h_1 hnone =>
        cases e
        have hcand := (mem_candidates.1 (argmin_mem ha)).1
        exact ⟨h, hP, .inr ⟨a.1, hcand, fun i => eq_of_argmin_without_eq_none hnone, rfl⟩⟩
      case h_2 b hb =>
        split at e
        · simp at e
        case isFalse hfits =>
          have hpair := mergesPair_of_argmin hroom ha hb (Nat.lt_of_not_le hfits)
          exact buildLoop_induction hmerge (mergeRoom_merge hroom ha hb hpair.high) (hmerge hpair hP) e

theorem treeBuild_induction {P : Hufb → Prop} (hmerge : ∀ {h a b}, MergesPair h a b → P h → P (merge a b h))
    (hstart : P (cleared h)) (e : treeBuild h = .done h') : ∃ g, P g ∧ BuildEnds g h' :=
  buildLoop_induction hmerge (mergeRoom_cleared h) hstart e

/-! ## The histogram invariant (R48) -/

theorem HistOk.congr (hh : h'.hist = h.hist) (hs : h'.hstart = h.hstart) (hk : HistOk h) : HistOk h' := by
  unfold HistOk
  rw [hh, hs]
  exact hk

/-- A merge writes to HIST at candidates, which stand from HSTART on, and at NEXT_ID, above them. -/
theorem merge_histOk {a b : Candidate} (hp : MergesPair h a b) (hk : HistOk h) : HistOk (merge a b h) := by
  obtain ⟨⟨st, hst, hle⟩, hlt, -⟩ := hp.left
  have hk' : ∀ i, i < st → peek h.hist i = 0 := by simpa [HistOk, hst] using hk
  have hgoal : ∀ i, i < st → peek (merge a b h).hist i = 0 := by
    intro i hi
    have hne : i ≠ nextNode h := by
      rintro rfl
      have hnew := nextNode_val hp.high
      have hi' : (nextNode h).val < st.val := hi
      omega
    rw [merge_hist, if_neg hne, hk' i hi]
    simp
  have hst' : (merge a b h).hstart = some st := hst
  simpa [HistOk, hst'] using hgoal

theorem treeBuild_histOk (hk : HistOk h) (e : treeBuild h = .done h') : HistOk h' := by
  obtain ⟨g, hg, ⟨-, rfl⟩ | ⟨r, -, -, rfl⟩⟩ := treeBuild_induction merge_histOk (hk.congr rfl rfl) e
  · exact hg
  · exact hg

theorem lowerStart_le (o : Option NodeIx) (j : NodeIx) : lowerStart o j ≤ j := by
  cases o <;> simp [lowerStart]

/-- HIST_ADD moves HSTART down to the symbol it counts, at most: the entries below the new HSTART were 0 before. -/
theorem HistOk.zero_below_lowerStart {b : Byte} {i : NodeIx} (hk : HistOk h)
    (hi : i < lowerStart h.hstart (symNode b)) : peek h.hist i = 0 := by
  unfold HistOk at hk
  cases hst : h.hstart with
  | none =>
    rw [hst] at hk hi
    exact hk i (lt_trans hi b.isLt)
  | some st =>
    rw [hst] at hk hi
    exact hk i (lt_of_lt_of_le hi (min_le_left _ _))

theorem histAdd_histOk {b : Byte} (hk : HistOk h) (e : histAdd b h = .done h') : HistOk h' := by
  obtain ⟨-, rfl⟩ := histAdd_done e
  intro i hi
  have hne : i ≠ symNode b := fun e => absurd hi (by simpa [e] using lowerStart_le h.hstart (symNode b))
  exact (peek_poke_of_ne _ _ hne).trans (hk.zero_below_lowerStart hi)

theorem histOk_of_zero (hz : ∀ i, peek h.hist i = 0) : HistOk h := by
  unfold HistOk
  split
  · exact fun i _ => hz i
  · exact fun i _ => hz i

theorem effectOf_done_histOk (e : effectOf i h = .done h') (hk : HistOk h) : HistOk h' := by
  obtain ⟨hh, hs⟩ | rfl | rfl | rfl | ⟨b, rfl⟩ := (effectOf_done_own e).hist
  · exact hk.congr hh hs
  · exact treeBuild_histOk hk e
  · cases e
    exact histOk_of_zero (by simp [histReset])
  · cases e
    exact histOk_of_zero peek_reset_hist
  · exact histAdd_histOk hk e

/-- Settles O56: HIST and HSTART are written by four commands only. A merge of TREE_BUILD writes at candidates and at
NEXT_ID, none of them below HSTART. -/
theorem stepKeepsTheHistogramInvariant : Obligations.StepKeepsTheHistogramInvariant := by
  unfold Obligations.StepKeepsTheHistogramInvariant
  intro s t hk e
  exact step_keeps (fun hd hk => hk.congr hd.hist hd.hstart) effectOf_done_histOk e hk

end Sys2Proof.Machine
end

section
/-! PROOFS. The tree invariant (O54): TREE_BUILD's loop keeps a forest, one tree under each candidate, and TREE_LOAD's
walk stores a tree of R47. -/

namespace Sys2Proof.Machine

variable {h h' : Hufb} {nodes nodes' : Vector Node Config.nodeSlots} {i : Instr}

/-! ## The forest of TREE_BUILD (R136, R47) -/

/-- A merge keeps the candidates it does not select. -/
theorem isCandidate_merge_of_ne {a b : Candidate} {i : NodeIx} (hp : MergesPair h a b) (hi : IsCandidate h i)
    (ha : i ≠ a.1) (hb : i ≠ b.1) : IsCandidate (merge a b h) i := by
  obtain ⟨hst, hlt, hne⟩ := hi
  have hnew : i ≠ nextNode h := by
    rintro rfl
    rw [nextNode_val hp.high] at hlt
    exact lt_irrefl _ hlt
  refine ⟨hst, ?_, ?_⟩
  · rw [merge_nextId hp.high]
    omega
  · rwa [merge_hist, if_neg hb, if_neg ha, if_neg hnew]

theorem MergesPair.new_ne {a b : Candidate} (hp : MergesPair h a b) : nextNode h ≠ a.1 ∧ nextNode h ≠ b.1 := by
  have hnew := nextNode_val hp.high
  have ha := hp.left.2.1
  have hb := hp.right.2.1
  constructor <;> rintro e <;> rw [e] at hnew <;> omega

/-- A sum of two nonzero weights that fits is not 0, so the new node is a candidate. -/
theorem isCandidate_merge_new {a b : Candidate} (hp : MergesPair h a b) :
    IsCandidate (merge a b h) (nextNode h) := by
  obtain ⟨⟨st, hst, hle⟩, hlt, hne⟩ := hp.left
  have hnew := nextNode_val hp.high
  refine ⟨⟨st, hst, by omega⟩, by rw [merge_nextId hp.high]; omega, ?_⟩
  rw [merge_hist, if_neg hp.new_ne.2, if_neg hp.new_ne.1, if_pos rfl]
  intro hzero
  have hfits := hp.fits
  have hsum := congrArg BitVec.toNat hzero
  rw [BitVec.toNat_add, Nat.mod_eq_of_lt hfits] at hsum
  rw [← hp.leftWeight] at hne
  exact hne (BitVec.eq_of_toNat_eq (by simp at hsum ⊢; omega))

/-- What the loop keeps: under each candidate `c` stands a tree `T c` of R47 (a symbol's own leaf as long as it is not
recorded yet), the trees share no index, and every slot outside them is empty. -/
structure Forest (h : Hufb) (T : NodeIx → Tree) : Prop where
  root : ∀ {c}, IsCandidate h c → (T c).root = c
  valid : ∀ {c}, IsCandidate h c → (T c).Valid
  apart : ∀ {c d i}, IsCandidate h c → IsCandidate h d → i ∈ (T c).indices → i ∈ (T d).indices → c = d
  below : ∀ {c i}, IsCandidate h c → i ∈ (T c).indices → i.val < h.nextId.toNat
  held : ∀ {c}, IsCandidate h c → Tree.Held (recordLeaf c h.node) none (T c)
  others : ∀ {i}, (∀ c, IsCandidate h c → i ∉ (T c).indices) → peek h.node i = Node.empty

/-- Before the first merge every candidate is a symbol without a node. -/
theorem forest_cleared (h : Hufb) : Forest (cleared h) Tree.leaf where
  root _ := rfl
  valid := by
    intro c hc
    have hlt : c.val < 256 := hc.2.1
    exact ⟨by simpa [Tree.shaped, Config.firstInternal] using hlt, by simp [Tree.indices]⟩
  apart := by
    intro c d i _ _ hic hid
    simp only [Tree.indices, List.mem_singleton] at hic hid
    exact hic.symm.trans hid
  below := by
    intro c i hc hi
    obtain rfl : i = c := by simpa [Tree.indices] using hi
    exact hc.2.1
  held := by
    intro c hc
    have hlt : c.val < 256 := hc.2.1
    simp [Tree.Held, peek_recordLeaf_self, hlt, Node.empty]
  others _ := peek_replicate _ _

/-- A held tree is held under another parent when its top slot has that parent and its other slots are the same. -/
theorem held_reparent {t : Tree} {p q : Option NodeIx} (hn : t.indices.Nodup) (hh : Tree.Held nodes p t)
    (htop : peek nodes' t.root = { peek nodes t.root with parent := q })
    (hrest : ∀ i ∈ t.indices, i ≠ t.root → peek nodes' i = peek nodes i) : Tree.Held nodes' q t := by
  cases t with
  | leaf i =>
    simp only [Tree.Held, Tree.root_leaf] at *
    rw [htop, hh]
    rfl
  | node i l r =>
    obtain ⟨hi, hl, hr⟩ := hh
    simp only [Tree.indices, List.nodup_cons, List.mem_append, not_or] at hn
    simp only [Tree.root_node, Tree.indices, List.mem_cons, List.mem_append] at htop hrest
    refine ⟨by rw [htop, hi]; rfl, held_congr (fun j hj => hrest j (.inr (.inl hj)) ?_) hl,
      held_congr (fun j hj => hrest j (.inr (.inr hj)) ?_) hr⟩
    · rintro rfl
      exact hn.1.1 hj
    · rintro rfl
      exact hn.1.2 hj

theorem peek_recordLeaf_congr {x i : NodeIx} (e : peek nodes' i = peek nodes i) :
    peek (recordLeaf x nodes') i = peek (recordLeaf x nodes) i := by
  by_cases hi : i = x
  · subst hi
    rw [peek_recordLeaf_self, peek_recordLeaf_self, e]
  · rw [peek_recordLeaf_of_ne hi, peek_recordLeaf_of_ne hi, e]

/-- An index from 256 on is no symbol: there is no leaf to record. -/
theorem recordLeaf_of_le {x : NodeIx} (hx : 256 ≤ x.val) : recordLeaf x nodes = nodes := by
  simp [recordLeaf, Config.firstInternal, Nat.not_lt.2 hx]

/-- The forest after a merge: the trees of the two selected candidates hang under the new node. -/
def joinTrees (T : NodeIx → Tree) (n a b : NodeIx) : NodeIx → Tree :=
  Function.update T n (.node n (T a) (T b))

section Merge
variable {T : NodeIx → Tree} {a b : Candidate}

theorem joinTrees_new (n : NodeIx) : joinTrees T n a.1 b.1 n = .node n (T a.1) (T b.1) := by
  simp [joinTrees]

theorem joinTrees_of_ne {n c : NodeIx} (hc : c ≠ n) : joinTrees T n a.1 b.1 c = T c := by
  simp [joinTrees, hc]

theorem Forest.new_not_mem (hf : Forest h T) (hp : MergesPair h a b) {c : NodeIx} (hc : IsCandidate h c) :
    nextNode h ∉ (T c).indices := by
  intro hmem
  have hlt := hf.below hc hmem
  rw [nextNode_val hp.high] at hlt
  exact lt_irrefl _ hlt

/-- The new node over the two trees is a tree of R47. -/
theorem Forest.join_valid (hf : Forest h T) (hp : MergesPair h a b) :
    (Tree.node (nextNode h) (T a.1) (T b.1)).Valid := by
  have hnew := nextNode_val hp.high
  have hlow := hp.low
  refine ⟨?_, ?_⟩
  · simp only [Tree.shaped, Bool.and_eq_true, decide_eq_true_eq, Config.firstInternal]
    exact ⟨⟨by omega, (hf.valid hp.left).1⟩, (hf.valid hp.right).1⟩
  · simp only [Tree.indices, List.nodup_cons, List.mem_append, not_or]
    exact ⟨⟨hf.new_not_mem hp hp.left, hf.new_not_mem hp hp.right⟩,
      List.Nodup.append (hf.valid hp.left).2 (hf.valid hp.right).2
        fun i hi hi' => hp.ne (hf.apart hp.left hp.right hi hi').symm⟩

/-- A merge writes to the slots of `a`, `b` and the new node: in the tree under a candidate only the top can change, and
only when the candidate is `a` or `b`. -/
theorem Forest.merge_node_eq (hf : Forest h T) (hp : MergesPair h a b) {c i : NodeIx} (hc : IsCandidate h c)
    (hi : i ∈ (T c).indices) (ha : i = a.1 → c ≠ a.1) (hb : i = b.1 → c ≠ b.1) :
    peek (merge a b h).node i = peek h.node i := by
  have htop : ∀ {d}, IsCandidate h d → d ∈ (T d).indices := fun {d} hd => by
    simpa [hf.root hd] using (T d).root_mem_indices
  refine merge_node_of_ne ?_ ?_ ?_
  · rintro rfl
    exact ha rfl (hf.apart hc hp.left hi (htop hp.left))
  · rintro rfl
    exact hb rfl (hf.apart hc hp.right hi (htop hp.right))
  · rintro rfl
    exact hf.new_not_mem hp hc hi

/-- The tree of a candidate that the merge gave a parent is held under that parent. -/
theorem Forest.merge_held_child (hf : Forest h T) (hp : MergesPair h a b) {c : NodeIx} (hc : IsCandidate h c)
    {q : Option NodeIx}
    (htop : peek (merge a b h).node c = { peek (recordLeaf c h.node) c with parent := q }) :
    Tree.Held (merge a b h).node q (T c) := by
  have hroot := hf.root hc
  refine held_reparent (hf.valid hc).2 (hf.held hc) (by rwa [hroot]) fun i hi hne => ?_
  rw [hroot] at hne
  rw [peek_recordLeaf_of_ne hne]
  exact hf.merge_node_eq hp hc hi (fun e => e ▸ hne.symm) (fun e => e ▸ hne.symm)

/-- The new node holds the two trees. -/
theorem Forest.merge_held_new (hf : Forest h T) (hp : MergesPair h a b) :
    Tree.Held (merge a b h).node none (.node (nextNode h) (T a.1) (T b.1)) := by
  refine ⟨?_, hf.merge_held_child hp hp.left ?_, hf.merge_held_child hp hp.right ?_⟩
  · rw [hf.root hp.left, hf.root hp.right, merge_node_new hp.new_ne.1 hp.new_ne.2]
  · rw [merge_node_left hp.new_ne.1.symm hp.ne.symm, peek_recordLeaf_self]
  · rw [merge_node_right hp.new_ne.2.symm hp.ne, peek_recordLeaf_self]

/-- The candidates after a merge: the new index with the two trees under it, or one that was there before, not selected,
with its tree. -/
theorem joinTrees_cases (hp : MergesPair h a b) {c : NodeIx} (hc : IsCandidate (merge a b h) c) :
    (c = nextNode h ∧ joinTrees T (nextNode h) a.1 b.1 c = .node (nextNode h) (T a.1) (T b.1)) ∨
      (IsCandidate h c ∧ c ≠ a.1 ∧ c ≠ b.1 ∧ joinTrees T (nextNode h) a.1 b.1 c = T c) := by
  by_cases hnew : c = nextNode h
  · exact .inl ⟨hnew, by rw [hnew, joinTrees_new]⟩
  · obtain hn | ⟨hold, hca, hcb⟩ := isCandidate_merge hp.high hc
    · exact absurd hn hnew
    · exact .inr ⟨hold, hca, hcb, joinTrees_of_ne hnew⟩

/-- An index in the tree of the new node is in no tree that was not selected. -/
theorem Forest.join_apart (hf : Forest h T) (hp : MergesPair h a b) {c i : NodeIx} (hc : IsCandidate h c)
    (hca : c ≠ a.1) (hcb : c ≠ b.1) (hi : i ∈ (Tree.node (nextNode h) (T a.1) (T b.1)).indices) :
    i ∉ (T c).indices := by
  intro hic
  simp only [Tree.indices, List.mem_cons, List.mem_append] at hi
  obtain rfl | hia | hib := hi
  · exact hf.new_not_mem hp hc hic
  · exact hca (hf.apart hc hp.left hic hia)
  · exact hcb (hf.apart hc hp.right hic hib)

/-- A merge keeps the forest. -/
theorem forest_merge (hp : MergesPair h a b) (hf : Forest h T) :
    Forest (merge a b h) (joinTrees T (nextNode h) a.1 b.1) where
  root := by
    intro c hc
    obtain ⟨rfl, e⟩ | ⟨hold, -, -, e⟩ := joinTrees_cases (T := T) hp hc <;> rw [e]
    · rfl
    · exact hf.root hold
  valid := by
    intro c hc
    obtain ⟨rfl, e⟩ | ⟨hold, -, -, e⟩ := joinTrees_cases (T := T) hp hc <;> rw [e]
    · exact hf.join_valid hp
    · exact hf.valid hold
  apart := by
    intro c d i hc hd hic hid
    obtain ⟨rfl, ec⟩ | ⟨holdc, hca, hcb, ec⟩ := joinTrees_cases (T := T) hp hc
    · rw [ec] at hic
      obtain ⟨rfl, -⟩ | ⟨holdd, hda, hdb, ed⟩ := joinTrees_cases (T := T) hp hd
      · rfl
      · exact absurd (ed ▸ hid) (hf.join_apart hp holdd hda hdb hic)
    · rw [ec] at hic
      obtain ⟨rfl, ed⟩ | ⟨holdd, -, -, ed⟩ := joinTrees_cases (T := T) hp hd
      · exact absurd hic (hf.join_apart hp holdc hca hcb (ed ▸ hid))
      · exact hf.apart holdc holdd hic (ed ▸ hid)
  below := by
    intro c i hc hi
    rw [merge_nextId hp.high]
    obtain ⟨rfl, e⟩ | ⟨hold, -, -, e⟩ := joinTrees_cases (T := T) hp hc <;> rw [e] at hi
    · simp only [Tree.indices, List.mem_cons, List.mem_append] at hi
      obtain rfl | hia | hib := hi
      · rw [nextNode_val hp.high]
        exact Nat.lt_succ_self _
      · exact Nat.lt_succ_of_lt (hf.below hp.left hia)
      · exact Nat.lt_succ_of_lt (hf.below hp.right hib)
    · exact Nat.lt_succ_of_lt (hf.below hold hi)
  held := by
    intro c hc
    obtain ⟨rfl, e⟩ | ⟨hold, hca, hcb, e⟩ := joinTrees_cases (T := T) hp hc <;> rw [e]
    · rw [recordLeaf_of_le (by rw [nextNode_val hp.high]; exact hp.low)]
      exact hf.merge_held_new hp
    · exact held_congr (fun i hi => peek_recordLeaf_congr
        (hf.merge_node_eq hp hold hi (fun _ => hca) (fun _ => hcb))) (hf.held hold)
  others := by
    intro i hi
    have hjoin := hi _ (isCandidate_merge_new hp)
    simp only [joinTrees_new, Tree.indices, List.mem_cons, List.mem_append, not_or] at hjoin
    obtain ⟨hin, hia, hib⟩ := hjoin
    have htop : ∀ {d}, IsCandidate h d → i ∉ (T d).indices → i ≠ d := by
      rintro d hd hmem rfl
      exact hmem (by simpa [hf.root hd] using (T i).root_mem_indices)
    rw [merge_node_of_ne (htop hp.left hia) (htop hp.right hib) hin]
    refine hf.others fun c hc => ?_
    by_cases hca : c = a.1
    · rwa [hca]
    by_cases hcb : c = b.1
    · rwa [hcb]
    have hnew : c ≠ nextNode h := by
      rintro rfl
      exact hf.new_not_mem hp hc (by simpa [hf.root hc] using (T (nextNode h)).root_mem_indices)
    simpa [joinTrees_of_ne hnew] using hi c (isCandidate_merge_of_ne hp hc hca hcb)

end Merge

theorem Tree.eq_leaf_of_root_lt {t : Tree} (hs : t.shaped = true) (hlt : t.root.val < 256) : t = .leaf t.root := by
  cases t with
  | leaf j => rfl
  | node j l r =>
    simp only [Tree.shaped, Bool.and_eq_true, decide_eq_true_eq, Config.firstInternal] at hs
    exact absurd hlt (Nat.not_lt.2 hs.1.1)

/-- The last tree of the forest is held where the build ends: a symbol alone is recorded as a leaf. -/
theorem Forest.soleRoot_held {T : NodeIx → Tree} {r : NodeIx} (hf : Forest h T) (hr : IsCandidate h r) :
    Tree.Held (soleRoot r h).node none (T r) ∧
      ∀ i, i ∉ (T r).indices → peek (soleRoot r h).node i = peek h.node i := by
  have hroot := hf.root hr
  by_cases hlt : r.val < 256
  · have hleaf : T r = .leaf r := by
      have := Tree.eq_leaf_of_root_lt (hf.valid hr).1 (by rwa [hroot])
      rwa [hroot] at this
    have hnode : (soleRoot r h).node = poke h.node r (Node.leaf none) := if_pos hlt
    rw [hleaf, hnode]
    refine ⟨peek_poke_self _ _ _, fun i hi => peek_poke_of_ne _ _ ?_⟩
    simpa [Tree.indices] using hi
  · have hnode : (soleRoot r h).node = h.node := if_neg hlt
    have hheld := hf.held hr
    rw [recordLeaf_of_le (Nat.not_lt.1 hlt)] at hheld
    rw [hnode]
    exact ⟨hheld, fun _ _ => rfl⟩

/-- Where the merging ends, the forest is at most one tree, which becomes the block's. -/
theorem buildEnds_treeOk {g : Hufb} {T : NodeIx → Tree} (hf : Forest g T) (he : BuildEnds g h') : TreeOk h' := by
  obtain ⟨hnone, rfl⟩ | ⟨r, hr, honly, rfl⟩ := he
  · exact .inl ⟨rfl, fun i => hf.others fun c hc => absurd hc (hnone c)⟩
  · obtain ⟨hheld, hrest⟩ := hf.soleRoot_held hr
    refine .inr ⟨T r, congrArg some (hf.root hr).symm, hf.valid hr, hheld, fun i hi => ?_⟩
    exact (hrest i hi).trans (hf.others fun c hc => by rwa [honly c hc])

/-- TREE_BUILD leaves a tree of R47 or none, from every state. -/
theorem treeBuild_treeOk (e : treeBuild h = .done h') : TreeOk h' := by
  obtain ⟨g, ⟨T, hf⟩, he⟩ := treeBuild_induction (P := fun g => ∃ T, Forest g T)
    (fun hp ⟨T, hf⟩ => ⟨_, forest_merge hp hf⟩) ⟨_, forest_cleared h⟩ e
  exact buildEnds_treeOk hf he

/-! ## TREE_LOAD -/

/-- R153: TREE_LOAD leaves the tree its walk read, or none. -/
theorem treeLoad_treeOk {c : BitVec 16} (e : treeLoad c h = .done h') : TreeOk h' := by
  obtain ⟨-, root, w, hw, rfl⟩ := treeLoad_done e
  obtain ⟨-, ⟨rfl, rfl⟩ | ⟨t, rfl, hvalid, -, hheld, hothers, -⟩⟩ := deserialize_ok hw
  · exact .inl ⟨rfl, fun i => peek_replicate _ _⟩
  · exact .inr ⟨t, rfl, hvalid, hheld, fun i hi => (hothers i hi).trans (peek_replicate _ _)⟩

/-! ## Every command, every step -/

theorem effectOf_done_treeOk (e : effectOf i h = .done h') (ht : TreeOk h) : TreeOk h' := by
  obtain ⟨hn, hr, -⟩ | rfl | rfl | rfl | ⟨c, rfl⟩ := (effectOf_done_own e).tree
  · exact ht.congr hn hr
  · cases e
    exact .inl ⟨rfl, fun i => peek_replicate _ _⟩
  · exact treeBuild_treeOk e
  · cases e
    exact .inl ⟨rfl, peek_reset_node⟩
  · exact treeLoad_treeOk e

/-- Settles O54: NODE and ROOT are written by four commands only. TREE_BUILD's loop keeps a forest and ends with one tree
or none; TREE_LOAD stores the tree its walk read. -/
theorem stepKeepsTheTree : Obligations.StepKeepsTheTree := by
  unfold Obligations.StepKeepsTheTree
  intro s t ht e
  exact step_keeps (fun hd ht => ht.congr hd.node hd.root) effectOf_done_treeOk e ht

end Sys2Proof.Machine
end

section
/-! PROOFS. The packer, the fault registers, OUTQ and the counters (O58). -/

namespace Sys2Proof.Machine

variable {h h' : Hufb} {s t : State} {i : Instr}

/-! ## The packer (R34, R180, R182) -/

theorem PackerOk.congr (ha : h'.acc = h.acc) (hp : h'.pos = h.pos) (hk : PackerOk h) : PackerOk h' where
  posLow := hp ▸ hk.posLow
  posHigh := hp ▸ hk.posHigh
  accLow := hp ▸ ha ▸ hk.accLow

theorem packerOk_of_empty (ha : h.acc = 0) (hp : h.pos = 8) : PackerOk h where
  posLow := by simp [hp]
  posHigh := by simp [hp]
  accLow := by simp [ha]

/-- The bits put so far: those in OUTQ and those that wait in the accumulator. -/
def bitsPut (h : Hufb) : Nat := 8 * h.outq.length + (8 - h.pos.toNat)

theorem putBit_packerOk (hk : PackerOk h) (x : Bool) :
    PackerOk (putBit h x) ∧ bitsPut (putBit h x) = bitsPut h + 1 := by
  have hlow := hk.posLow
  have hhigh := hk.posHigh
  by_cases hroom : 2 ≤ h.pos.toNat
  · obtain ⟨hk', -, hq, hp⟩ := putBit_room hk hroom x
    refine ⟨hk', ?_⟩
    simp only [bitsPut, hq, hp]
    omega
  · have hone : h.pos.toNat = 1 := by omega
    obtain ⟨hk', -, hq, hp⟩ := putBit_full hk hone x
    refine ⟨hk', ?_⟩
    simp only [bitsPut, hq, hp, hone, List.length_append, List.length_singleton]
    simp
    omega

theorem putBits_packerOk (xs : List Bool) : ∀ {h : Hufb}, PackerOk h →
    PackerOk (putBits xs h) ∧ bitsPut (putBits xs h) = bitsPut h + xs.length := by
  induction xs with
  | nil => exact fun hk => ⟨hk, rfl⟩
  | cons x xs ih =>
    intro h hk
    obtain ⟨hk₁, hb₁⟩ := putBit_packerOk hk x
    obtain ⟨hk₂, hb₂⟩ := ih hk₁
    exact ⟨hk₂, hb₂.trans (by rw [hb₁, List.length_cons]; omega)⟩

theorem encFlush_packerOk (hk : PackerOk h) : PackerOk (encFlush h) := by
  unfold encFlush
  split
  · exact packerOk_of_empty rfl rfl
  · exact hk

theorem effectOf_done_packerOk (e : effectOf i h = .done h') (hk : PackerOk h) : PackerOk h' := by
  obtain ⟨ha, hp⟩ | rfl | rfl | ⟨b, rfl⟩ := (effectOf_done_own e).packer
  · exact hk.congr ha hp
  · cases e
    exact encFlush_packerOk hk
  · cases e
    exact packerOk_of_empty rfl rfl
  · obtain ⟨-, -, rfl⟩ := encSym_done e
    exact (putBits_packerOk _ hk).1

/-! ## OUTQ (R44) -/

/-- R44: at most 7 bits wait and a code has at most 255, so ENC_SYM emits at most 32 bytes. -/
theorem encSym_outq_le {b : Byte} (hk : PackerOk h) (hq : h.outq = []) (e : encSym b h = .done h') :
    h'.outq.length ≤ 32 := by
  obtain ⟨-, -, rfl⟩ := encSym_done e
  have hbits := (putBits_packerOk (codeBits h (symIx b)) hk).2
  have hlow := hk.posLow
  have hlen := (peek h.len (symIx b)).isLt
  simp only [bitsPut, codeBits, List.length_map, List.length_range, hq, List.length_nil] at hbits ⊢
  omega

theorem encFlush_outq_le (hq : h.outq = []) : (encFlush h).outq.length ≤ 32 := by
  unfold encFlush
  split <;> simp [hq]

theorem decBit_outq_le {r : NodeIx} {x : Bool} (e : decBit r x h = .ok h') :
    h'.outq.length ≤ h.outq.length + 1 := by
  obtain ⟨-, -, rfl⟩ | ⟨d, c, -, -, -, ⟨-, -, rfl⟩ | ⟨-, rfl⟩⟩ := decBit_ok e <;> simp

theorem decBits_outq_le {r : NodeIx} : ∀ {xs : List Bool} {h h' : Hufb}, decBits r xs h = .ok h' →
    h'.outq.length ≤ h.outq.length + xs.length
  | [], h, h', e => by
    cases e
    exact Nat.le_refl _
  | x :: xs, h, h', e => by
    unfold decBits at e
    split at e
    · cases e
      exact Nat.le_add_right _ _
    split at e
    · simp at e
    · rename_i h₁ e₁
      have hone := decBit_outq_le e₁
      have hrest := decBits_outq_le e
      rw [List.length_cons]
      omega

theorem decByte_outq_le {b : Byte} (hq : h.outq = []) (e : decByte b h = .done h') : h'.outq.length ≤ 8 := by
  obtain ⟨-, rfl⟩ | ⟨-, r, -, hbits⟩ := decByte_done e
  · simp [hq]
  · simpa [hq, bitsMsbFirst] using decBits_outq_le hbits

/-- R44: a command issued with OUTQ empty leaves at most 32 bytes there. -/
theorem effectOf_done_outq_le (hk : PackerOk h) (hq : h.outq = []) (e : effectOf i h = .done h') :
    h'.outq.length ≤ 32 := by
  obtain hsame | rfl | rfl | ⟨b, rfl⟩ | ⟨b, rfl⟩ := (effectOf_done_own e).outq
  · simp [hsame, hq]
  · cases e
    exact encFlush_outq_le hq
  · cases e
    exact Nat.zero_le _
  · exact encSym_outq_le hk hq e
  · exact (decByte_outq_le hq e).trans (by decide)

/-! ## The fault registers (R64, R203, R208) -/

/-- The block after fault entry with OUTQ empty and a cause that is raised. -/
theorem faultEntry_faultOk {r : Raise} (hq : h.outq = [])
    (hr : r.cause ≠ .none ∧ r.cause ≠ .memoryAllocation ∧ r.cause ≠ .fatal) : FaultOk (faultEntry r h) where
  queue := by simp [hq]
  clear hf := by simp at hf
  raised _ := hr
  idle _ := hq

/-- Causes of commands are causes that are raised. -/
theorem effectOf_raise_faultOk {r : Raise} (hq : h.outq = []) (e : effectOf i h = .raise r) :
    FaultOk (faultEntry r h) := by
  refine faultEntry_faultOk hq ?_
  obtain hc | hc | hc | hc := effectOf_raise e <;> simp [hc]

theorem illegalRaise_cause (e : DecodeError) : (illegalRaise e).cause = .illegalCommand := by
  cases e <;> rfl

/-- Without a fault FaultOk is about the bytes in OUTQ and the clear registers. -/
theorem FaultOk.of_no_fault (hk : FaultOk h) (hf : h.fault = false) (hf' : h'.fault = h.fault)
    (hc : h'.cause = h.cause) (hw : h'.fcmd = h.fcmd) (hs : h'.finfoSub = h.finfoSub)
    (hv : h'.finfoValue = h.finfoValue) (hq : h'.outq.length ≤ 32) : FaultOk h' where
  queue := hq
  clear _ := by
    rw [hc, hw, hs, hv]
    exact hk.clear hf
  raised ht := by simp [hf', hf] at ht
  idle ht := by simp [hf', hf] at ht

theorem faultOk_reset : FaultOk Hufb.reset where
  queue := by decide
  clear _ := ⟨rfl, rfl, rfl, rfl⟩
  raised hf := by simp [Hufb.reset] at hf
  idle hf := by simp [Hufb.reset] at hf

theorem exec_faultOk (hp : PackerOk s.hufb) (hk : FaultOk s.hufb) (hq : s.hufb.outq = [])
    (hf : s.hufb.fault = false ∨ i = .reset) (e : exec i s = .next t) : FaultOk t.hufb := by
  obtain ⟨h, hdone, rfl⟩ | ⟨r, hraise, rfl⟩ := exec_next e
  · by_cases hi : i = .reset
    · subst hi
      cases hdone
      exact faultOk_reset
    · obtain ⟨hfault, hcause, hfcmd, hsub, hvalue, -⟩ := effectOf_done_frame hi hdone
      exact hk.of_no_fault (hf.resolve_right hi) hfault hcause hfcmd hsub hvalue (effectOf_done_outq_le hp hq hdone)
  · exact effectOf_raise_faultOk hq hraise

/-- The word that is issued while FAULT = 1 is RESET's. -/
theorem issue_faultOk {w : Word} (hp : PackerOk s.hufb) (hk : FaultOk s.hufb) (hq : s.hufb.outq = [])
    (hf : s.hufb.fault = false ∨ w = resetWord) (e : issue w s = .next t) : FaultOk t.hufb := by
  obtain ⟨x, -, hill⟩ | ⟨i, hdec, hexec⟩ := issue_cases w s
  · rw [hill] at e
    cases e
    exact faultEntry_faultOk hq (by simp [illegalRaise_cause])
  · rw [hexec] at e
    refine exec_faultOk (s := { s with hufb := { s.hufb with lastCmd := w } }) ⟨hp.posLow, hp.posHigh, hp.accLow⟩
      ⟨hk.queue, hk.clear, hk.raised, hk.idle⟩ hq (hf.imp id ?_) e
    rintro rfl
    have hreset : decode resetWord = .ok .reset := by decide
    exact Except.ok.inj (hdec.symm.trans hreset)

theorem step_faultOk (hp : PackerOk s.hufb) (hk : FaultOk s.hufb) (e : step s = .next t) : FaultOk t.hufb := by
  obtain hsame | ⟨l, v, hw⟩ | ⟨b, q, hq, hpop⟩ | ⟨-, hrw⟩ | hreset | ⟨w, u, hq, hf, hu, hissue⟩ := step_cases e
  · exact hsame ▸ hk
  · rw [writeLoc_frame hw]
    exact ⟨hk.queue, hk.clear, hk.raised, hk.idle⟩
  · have hfault : s.hufb.fault = false := by
      by_contra hne
      simp [hk.idle (by simpa using hne)] at hq
    have hle := hk.queue
    rw [hq, List.length_cons] at hle
    rw [hpop]
    exact hk.of_no_fault hfault rfl rfl rfl rfl rfl (Nat.le_of_succ_le hle)
  · rw [hrw]
    exact faultEntry_faultOk (r := readWriteRaise s.hufb) (h := { s.hufb with outq := [] }) rfl (by simp [readWriteRaise])
  · exact hreset ▸ faultOk_reset
  · rw [← hu] at hp hk hq hf
    exact issue_faultOk hp hk hq hf hissue

/-! ## The counters (R32, R33) -/

theorem countInRange_iff {c : BitVec 16} : countInRange c = true ↔ 1 ≤ c.toInt ∧ c.toInt ≤ 1024 := by
  rw [countInRange, Bool.and_eq_true, decide_eq_true_iff, decide_eq_true_iff]
  rfl

/-- A count that passes the check is the same number without its sign. -/
theorem toNat_le_of_countInRange {c : BitVec 16} (hc : countInRange c = true) : c.toNat ≤ Config.tbufLen := by
  have := countInRange_iff.1 hc
  simp only [BitVec.toInt_eq_toNat_cond, Config.tbufLen] at *
  split at this <;> omega

theorem toNat_ofNat_tcount {n : Nat} (hn : n ≤ Config.tbufLen) : (BitVec.ofNat 11 n).toNat = n := by
  rw [BitVec.toNat_ofNat]
  simp only [Config.tbufLen] at hn
  omega

theorem effectOf_done_tcount_le (e : effectOf i h = .done h') (hk : h.tcount.toNat ≤ Config.tbufLen) :
    h'.tcount.toNat ≤ Config.tbufLen := by
  obtain hsame | rfl | rfl | ⟨c, rfl⟩ := (effectOf_done_own e).tcount
  · rwa [hsame]
  · obtain ⟨es, -, hfit, rfl⟩ := treeSerialize_done e
    dsimp only
    rwa [toNat_ofNat_tcount hfit]
  · cases e
    exact Nat.zero_le _
  · obtain ⟨hc, root, w, hw, rfl⟩ := treeLoad_done e
    have hfit := (deserialize_ok hw).1.trans (toNat_le_of_countInRange hc)
    dsimp only
    rwa [toNat_ofNat_tcount hfit]

theorem effectOf_done_nextId (e : effectOf i h = .done h') (hk : 256 ≤ h.nextId.toNat ∧ h.nextId.toNat ≤ 511) :
    256 ≤ h'.nextId.toNat ∧ h'.nextId.toNat ≤ 511 := by
  obtain ⟨-, -, hsame⟩ | rfl | rfl | rfl | ⟨c, rfl⟩ := (effectOf_done_own e).tree
  · rwa [hsame]
  · cases e
    simp [treeReset]
  · exact treeBuild_nextId e
  · cases e
    simp [Hufb.reset]
  · obtain ⟨-, root, w, -, rfl⟩ := treeLoad_done e
    simp

theorem effectOf_done_countersOk (e : effectOf i h = .done h') (hk : CountersOk h) : CountersOk h' :=
  have hnext := effectOf_done_nextId e ⟨hk.nextLow, hk.nextHigh⟩
  ⟨hnext.1, hnext.2, effectOf_done_tcount_le e hk.tcount⟩

theorem CountersOk.congr (hn : h'.nextId = h.nextId) (ht : h'.tcount = h.tcount) (hk : CountersOk h) :
    CountersOk h' :=
  ⟨hn ▸ hk.nextLow, hn ▸ hk.nextHigh, ht ▸ hk.tcount⟩

/-- Settles O58: the packer and the counters are kept by every command that completes, and no other step touches them; the
fault registers and OUTQ go through the cases of a step. -/
theorem stepKeepsTheRegisterInvariants : Obligations.StepKeepsTheRegisterInvariants := by
  unfold Obligations.StepKeepsTheRegisterInvariants
  intro s t hp hf hc e
  exact ⟨step_keeps (fun hd hk => hk.congr hd.acc hd.pos) effectOf_done_packerOk e hp,
    step_faultOk hp hf e,
    step_keeps (fun hd hk => hk.congr hd.nextId hd.tcount) effectOf_done_countersOk e hc⟩

end Sys2Proof.Machine
end

section
/-! PROOFS. The symbol table (O59): every entry TABLE_GEN makes is that of a path with room for its code, and what it
makes is a matter of NODE and ROOT. -/

namespace Sys2Proof.Machine

variable {h h' : Hufb} {nodes : Vector Node Config.nodeSlots} {i : Instr}

/-! ## The entries (R43, R170) -/

/-- The way up has at most as many steps as there was room for. -/
theorem pathUp_length : ∀ {room : Nat} {n : NodeIx} {path : List Bool}, pathUp nodes room n = some path →
    path.length ≤ room
  | room, n, path, e => by
    unfold pathUp at e
    split at e
    · cases e
      exact Nat.zero_le _
    · simp at e
    · obtain ⟨rest, hrest, rfl⟩ := Option.map_eq_some_iff.1 e
      exact Nat.succ_le_succ (pathUp_length hrest)

/-- Every entry is that of a path that a code has room for. -/
theorem tableEntry_eq_some {y : SymIx} {slot : Node} {x : TableEntry} (e : tableEntry h y slot = some x) :
    ∃ path, path.length ≤ Config.maxCodeLen ∧ x = entryOfPath path := by
  unfold tableEntry at e
  split at e
  · exact ⟨[], by simp, by simpa using e.symm⟩
  split at e
  · exact ⟨[false], by simp [Config.maxCodeLen], by simpa using e.symm⟩
  · obtain ⟨path, hpath, rfl⟩ := Option.map_eq_some_iff.1 e
    exact ⟨path.reverse, by simpa using pathUp_length hpath, rfl⟩

/-- Code bits from the path's length on are 0. -/
theorem entryOfPath_bits {path : List Bool} (hp : path.length ≤ Config.maxCodeLen) {k : Nat}
    (hk : (entryOfPath path).len.toNat ≤ k) : (entryOfPath path).code.getLsbD k = false := by
  have hlen : (entryOfPath path).len.toNat = path.length := by
    simp only [Config.maxCodeLen] at hp
    simp only [entryOfPath, BitVec.toNat_ofNat]
    omega
  rw [hlen] at hk
  simp [entryOfPath, codeOfPath_getLsbD hp, List.getElem?_eq_none_iff.2 hk]

/-- A result of `mapM` in `Option` has only values of the function. -/
theorem mem_of_mapM_eq_some {α β : Type} {f : α → Option β} : ∀ {xs : List α} {ys : List β}, xs.mapM f = some ys →
    ∀ y ∈ ys, ∃ x ∈ xs, f x = some y
  | [], ys, e, y, hy => by
    obtain rfl : ys = [] := by simpa using e.symm
    simp at hy
  | x :: xs, ys, e, y, hy => by
    rw [List.mapM_cons] at e
    obtain ⟨z, hz, e⟩ := Option.bind_eq_some_iff.1 e
    obtain ⟨zs, hzs, e⟩ := Option.bind_eq_some_iff.1 e
    obtain rfl : z :: zs = ys := by simpa using e
    obtain rfl | hy := List.mem_cons.1 hy
    · exact ⟨x, List.mem_cons_self, hz⟩
    · obtain ⟨w, hw, hfw⟩ := mem_of_mapM_eq_some hzs y hy
      exact ⟨w, List.mem_cons_of_mem _ hw, hfw⟩

/-- The entry TABLE_GEN stores for a symbol: one it computed, or the empty one. -/
theorem tableEntries_getD {es : List TableEntry} (e : tableEntries h = some es) (k : Nat) :
    ∃ path, path.length ≤ Config.maxCodeLen ∧ (es[k]?).getD (entryOfPath []) = entryOfPath path := by
  cases hk : es[k]? with
  | none => exact ⟨[], by simp, rfl⟩
  | some x =>
    obtain ⟨c, -, hc⟩ := mem_of_mapM_eq_some e x (List.mem_of_getElem? hk)
    exact tableEntry_eq_some hc

/-! ## The table is current (R170) -/

theorem tableEntries_congr (hn : h'.node = h.node) (hr : h'.root = h.root) : tableEntries h' = tableEntries h := by
  unfold tableEntries symbolSlots
  simp only [tableEntry, hn, hr]

/-- The columns that TABLE_GEN makes of its entries. -/
def lenColumn (es : List TableEntry) : Vector Byte Config.symCount :=
  tabulate fun s => ((es[s.val]?).getD (entryOfPath [])).len

/-- See `lenColumn`. -/
def codeColumn (es : List TableEntry) : Vector CodeBits Config.symCount :=
  tabulate fun s => ((es[s.val]?).getD (entryOfPath [])).code

/-- A table is current when it is valid and holds the columns of the entries of NODE and ROOT. -/
theorem tableGen_eq_self_iff :
    tableGen h = .done h ↔
      ∃ es, tableEntries h = some es ∧ h.len = lenColumn es ∧ h.code = codeColumn es ∧ h.tableV = true := by
  constructor
  · intro e
    obtain ⟨es, hes, hh⟩ := tableGen_done e
    exact ⟨es, hes, congrArg Hufb.len hh, congrArg Hufb.code hh, congrArg Hufb.tableV hh⟩
  · rintro ⟨es, hes, hlen, hcode, hv⟩
    have hh : { h with len := lenColumn es, code := codeColumn es, tableV := true } = h := by
      rw [← hlen, ← hcode, ← hv]
    unfold tableGen
    rw [hes]
    exact congrArg Effect.done hh

theorem TableOk.congr (hn : h'.node = h.node) (hr : h'.root = h.root) (hl : h'.len = h.len) (hc : h'.code = h.code)
    (hv : h'.tableV = h.tableV) (hk : TableOk h) : TableOk h' where
  bits := hl ▸ hc ▸ hk.bits
  off := hl ▸ hv ▸ hk.off
  current := by
    have hcur := hk.current
    rw [tableGen_eq_self_iff] at hcur ⊢
    rwa [tableEntries_congr hn hr, hl, hc, hv]

theorem tableOk_of_clear (hl : ∀ y, peek h.len y = 0) (hc : ∀ y, peek h.code y = 0) (hv : h.tableV = false) :
    TableOk h where
  bits y k _ := by simp [hc]
  off _ := hl
  current ht := by simp [hv] at ht

theorem tableGen_tableOk (e : tableGen h = .done h') : TableOk h' := by
  obtain ⟨es, hes, rfl⟩ := tableGen_done e
  refine ⟨fun y k hk => ?_, fun hv => by simp at hv, fun _ => ?_⟩
  · obtain ⟨path, hp, hentry⟩ := tableEntries_getD hes y.val
    simp only [peek_tabulate, hentry] at hk ⊢
    exact entryOfPath_bits hp hk
  · exact tableGen_eq_self_iff.2 ⟨es, (tableEntries_congr rfl rfl).trans hes, rfl, rfl, rfl⟩

/-- The commands that clear the tree clear the table with it (R135, R136, R152), and only TABLE_GEN makes one. -/
theorem effectOf_done_tableOk (e : effectOf i h = .done h') (hk : TableOk h) : TableOk h' := by
  obtain ⟨hn, hr, hl, hc, hv⟩ | rfl | rfl | rfl | rfl | ⟨c, rfl⟩ := (effectOf_done_own e).table
  · exact hk.congr hn hr hl hc hv
  · exact tableGen_tableOk e
  · cases e
    exact tableOk_of_clear (peek_replicate _) (peek_replicate _) rfl
  · rw [treeBuild_done e]
    exact tableOk_of_clear (peek_replicate _) (peek_replicate _) rfl
  · cases e
    exact tableOk_of_clear peek_reset_len peek_reset_code rfl
  · obtain ⟨-, root, w, -, rfl⟩ := treeLoad_done e
    exact tableOk_of_clear (peek_replicate _) (peek_replicate _) rfl

/-- Settles O59: a step that completes no command touches neither the table nor the tree; TABLE_GEN on its own result makes
the same table, since NODE and ROOT are the same. -/
theorem stepKeepsTheTable : Obligations.StepKeepsTheTable := by
  unfold Obligations.StepKeepsTheTable
  intro s t hk e
  exact step_keeps (fun hd hk => hk.congr hd.node hd.root hd.len hd.code hd.tableV) effectOf_done_tableOk e hk

end Sys2Proof.Machine
end

section
/-! PROOFS. The six clauses of R47 (O55), read off the slots of a held tree. -/

namespace Sys2Proof.Machine

variable {h : Hufb} {nodes : Vector Node Config.nodeSlots} {t : Tree}

/-! ## The parts of a held tree -/

/-- Every index of a tree is the top of a part of it. -/
theorem Tree.exists_follow_of_mem : ∀ {t : Tree} {i : NodeIx}, i ∈ t.indices →
    ∃ p cur, t.follow p = some cur ∧ cur.root = i
  | .leaf j, i, hi => ⟨[], .leaf j, rfl, (List.mem_singleton.1 hi).symm⟩
  | .node j l r, i, hi => by
    simp only [Tree.indices, List.mem_cons, List.mem_append] at hi
    obtain rfl | hi | hi := hi
    · exact ⟨[], .node i l r, rfl, rfl⟩
    · obtain ⟨p, cur, hp, hroot⟩ := exists_follow_of_mem hi
      exact ⟨false :: p, cur, by simpa [Tree.follow] using hp, hroot⟩
    · obtain ⟨p, cur, hp, hroot⟩ := exists_follow_of_mem hi
      exact ⟨true :: p, cur, by simpa [Tree.follow] using hp, hroot⟩

/-- A part of a shaped tree is shaped, and its indices are among the tree's. -/
theorem Tree.follow_shaped : ∀ {t cur : Tree} {p : List Bool}, t.shaped = true → t.follow p = some cur →
    cur.shaped = true ∧ cur.indices ⊆ t.indices
  | t, cur, [], hs, e => by
    obtain rfl : t = cur := by cases t <;> simpa [Tree.follow] using e
    exact ⟨hs, List.Subset.refl _⟩
  | .leaf _, cur, _ :: _, _, e => by simp [Tree.follow] at e
  | .node i l r, cur, x :: p, hs, e => by
    simp only [Tree.shaped, Bool.and_eq_true] at hs
    simp only [Tree.follow] at e
    cases x
    · obtain ⟨hcur, hsub⟩ := follow_shaped hs.1.2 (by simpa using e : l.follow p = some cur)
      exact ⟨hcur, fun j hj => List.mem_cons_of_mem _ (List.mem_append_left _ (hsub hj))⟩
    · obtain ⟨hcur, hsub⟩ := follow_shaped hs.2 (by simpa using e : r.follow p = some cur)
      exact ⟨hcur, fun j hj => List.mem_cons_of_mem _ (List.mem_append_right _ (hsub hj))⟩

/-- What the slot of an index of the block's tree holds: a symbol's leaf, or an internal node over two different nodes of
the tree whose parent it is. -/
theorem HasTree.slot_eq (ht : HasTree h t) {i : NodeIx} (hi : i ∈ t.indices) :
    (i.val < 256 ∧ ∃ q, peek h.node i = Node.leaf q) ∨
      (256 ≤ i.val ∧ ∃ a b q, peek h.node i = Node.internal a b q ∧ a ≠ b ∧
        ∀ c, c = a ∨ c = b → c ∈ t.indices ∧ (peek h.node c).parent = some i) := by
  obtain ⟨p, cur, hp, rfl⟩ := Tree.exists_follow_of_mem hi
  obtain ⟨q, hheld⟩ := follow_held ht.held hp
  have hnodup := Tree.follow_nodup ht.valid.2 hp
  obtain ⟨hshaped, hsub⟩ := Tree.follow_shaped ht.valid.1 hp
  cases cur with
  | leaf j => exact .inl ⟨by simpa [Tree.shaped, Config.firstInternal] using hshaped, q, hheld⟩
  | node j l r =>
    obtain ⟨hj, hl, hr⟩ := hheld
    simp only [Tree.shaped, Bool.and_eq_true, decide_eq_true_eq] at hshaped
    simp only [Tree.indices, List.nodup_cons, List.nodup_append] at hnodup
    refine .inr ⟨hshaped.1.1, l.root, r.root, q, hj,
      hnodup.2.2.2 _ l.root_mem_indices _ r.root_mem_indices, ?_⟩
    rintro c (rfl | rfl)
    · exact ⟨hsub (List.mem_cons_of_mem _ (List.mem_append_left _ l.root_mem_indices)), (held_root hl).2⟩
    · exact ⟨hsub (List.mem_cons_of_mem _ (List.mem_append_right _ r.root_mem_indices)), (held_root hr).2⟩

theorem HasTree.mem_indices_iff (ht : HasTree h t) {i : NodeIx} :
    i ∈ t.indices ↔ (peek h.node i).valid = true :=
  ⟨held_valid ht.held, ht.mem_indices_of_valid⟩

/-! ## Children and parents -/

/-- A child of any slot is a node of the tree, and the slot is its parent. -/
theorem HasTree.isChild (ht : HasTree h t) {p c : NodeIx} (hc : IsChild h.node p c) :
    c ∈ t.indices ∧ (peek h.node c).parent = some p := by
  by_cases hp : p ∈ t.indices
  · obtain ⟨-, q, hslot⟩ | ⟨-, a, b, q, hslot, -, hab⟩ := ht.slot_eq hp
    · simp [IsChild, hslot, Node.leaf] at hc
    · simp only [IsChild, hslot, Node.internal, Option.some.injEq] at hc
      exact hab c (hc.imp Eq.symm Eq.symm)
  · simp [IsChild, ht.others p hp, Node.empty] at hc

/-- Every node of a held tree but its top is a child. -/
theorem held_exists_parent : ∀ {t : Tree} {q : Option NodeIx} {i : NodeIx}, Tree.Held nodes q t → i ∈ t.indices →
    i ≠ t.root → ∃ p, IsChild nodes p i
  | .leaf j, q, i, _, hi, hne => absurd (List.mem_singleton.1 hi) hne
  | .node j l r, q, i, hh, hi, hne => by
    obtain ⟨hj, hl, hr⟩ := hh
    simp only [Tree.indices, List.mem_cons, List.mem_append] at hi
    obtain rfl | hi | hi := hi
    · exact absurd rfl hne
    · by_cases htop : i = l.root
      · exact ⟨j, .inl (by simp [hj, Node.internal, htop])⟩
      · exact held_exists_parent hl hi htop
    · by_cases htop : i = r.root
      · exact ⟨j, .inr (by simp [hj, Node.internal, htop])⟩
      · exact held_exists_parent hr hi htop

/-! ## Reachability -/

/-- Every node of a held tree is reachable where its top is. -/
theorem reaches_of_mem_held {root : NodeIx} : ∀ {t : Tree} {q : Option NodeIx} {i : NodeIx}, Tree.Held nodes q t →
    Reaches nodes root t.root → i ∈ t.indices → Reaches nodes root i
  | .leaf j, q, i, _, htop, hi => by
    obtain rfl : i = j := List.mem_singleton.1 hi
    exact htop
  | .node j l r, q, i, hh, htop, hi => by
    obtain ⟨hj, hl, hr⟩ := hh
    simp only [Tree.indices, List.mem_cons, List.mem_append] at hi
    obtain rfl | hi | hi := hi
    · exact htop
    · exact reaches_of_mem_held hl (.left htop (by simp [hj, Node.internal])) hi
    · exact reaches_of_mem_held hr (.right htop (by simp [hj, Node.internal])) hi

theorem HasTree.reaches_iff (ht : HasTree h t) {i : NodeIx} : Reaches h.node t.root i ↔ i ∈ t.indices := by
  refine ⟨fun hr => ?_, reaches_of_mem_held ht.held .top⟩
  induction hr with
  | top => exact t.root_mem_indices
  | left _ hc => exact (ht.isChild (.inl hc)).1
  | right _ hc => exact (ht.isChild (.inr hc)).1

/-! ## The clauses -/

/-- R47 clauses 2 and 3 for a block that has a tree: the valid slots are the nodes under the root, the root has no parent
and is nobody's child, and every other node is a child of its parent and of no other slot. -/
theorem HasTree.links (ht : HasTree h t) :
    (∀ i, (peek h.node i).valid = true ↔ Reaches h.node t.root i) ∧
      (peek h.node t.root).parent = none ∧ (∀ p, ¬ IsChild h.node p t.root) ∧
      (∀ n, (peek h.node n).valid = true → n ≠ t.root →
        ∃ p, (peek h.node n).parent = some p ∧ IsChild h.node p n ∧ ∀ q, IsChild h.node q n → q = p) := by
  have hroot := (held_root ht.held).2
  refine ⟨fun i => ht.mem_indices_iff.symm.trans ht.reaches_iff.symm, hroot, fun p hp => ?_, fun n hn hne => ?_⟩
  · have hparent := (ht.isChild hp).2
    simp [hroot] at hparent
  · obtain ⟨p, hp⟩ := held_exists_parent ht.held (ht.mem_indices_of_valid hn) hne
    have hparent := (ht.isChild hp).2
    exact ⟨p, hparent, hp, fun q hq => Option.some.inj ((ht.isChild hq).2.symm.trans hparent)⟩

/-- R47 clauses 4 and 5 for one slot. -/
theorem TreeOk.slot_shape (ht : TreeOk h) (n : NodeIx) :
    peek h.node n = Node.empty ∨ (n.val < 256 ∧ ∃ q, peek h.node n = Node.leaf q) ∨
      (256 ≤ n.val ∧ ∃ a b q, a ≠ b ∧ peek h.node n = Node.internal a b q) := by
  obtain hnone | ⟨t, ht⟩ := ht
  · exact .inl (hnone.empty n)
  by_cases hn : n ∈ t.indices
  · obtain hleaf | ⟨hge, a, b, q, hslot, hne, -⟩ := ht.slot_eq hn
    · exact .inr (.inl hleaf)
    · exact .inr (.inr ⟨hge, a, b, q, hne, hslot⟩)
  · exact .inl (ht.others n hn)

/-- Settles O55: clauses 1 to 3 are about the whole tree, clauses 4 to 6 follow from what one slot can hold. -/
theorem treeOkMeetsEveryClause : Obligations.TreeOkMeetsEveryClause := by
  unfold Obligations.TreeOkMeetsEveryClause
  intro h ht
  refine ⟨fun hr i => ?_, fun r hr => ?_, fun n hn => ?_, fun n hn => ?_, fun n c hc => ?_, fun n hn => ?_⟩
  · obtain hnone | ⟨t, ht⟩ := ht
    · rw [hnone.empty i]
      rfl
    · simp [ht.root] at hr
  · obtain ⟨t, htree, rfl⟩ := ht.hasTree_of_root hr
    exact htree.links
  · obtain hslot | ⟨-, q, hslot⟩ | ⟨-, a, b, q, -, hslot⟩ := ht.slot_shape n <;>
      simp [hslot, Node.empty, Node.leaf, Node.internal]
  · obtain hslot | ⟨hlt, q, hslot⟩ | ⟨hge, a, b, q, -, hslot⟩ := ht.slot_shape n
    · simp [hslot, Node.empty] at hn
    · simp [hslot, Node.leaf, hlt]
    · simp [hslot, Node.internal, Nat.not_lt.2 hge]
  · obtain hslot | ⟨-, q, hslot⟩ | ⟨-, a, b, q, hne, hslot⟩ := ht.slot_shape n
    · simp [hslot, Node.empty] at hc
    · simp [hslot, Node.leaf] at hc
    · obtain rfl : a = c := by simpa [hslot, Node.internal] using hc
      simp [hslot, Node.internal, hne.symm]
  · obtain hslot | ⟨-, q, hslot⟩ | ⟨-, a, b, q, -, hslot⟩ := ht.slot_shape n
    · exact hslot
    · simp [hslot, Node.leaf] at hn
    · simp [hslot, Node.internal] at hn

end Sys2Proof.Machine
end

section
/-! PROOFS. The host's accesses: the word that each address of the map names, the steps of a host access (O9, O13) and the
words the host reads (O14, O15). -/

namespace Sys2Proof.Machine

variable {h : Hufb} {s : State}

/-! ## The address map (R60) -/

/-- Every mapped word is found at its address. -/
theorem locate_addr (l : Loc) : locate l.addr = some l := by
  cases l with
  | reg r => cases r <;> rfl
  | hist i hi =>
    have hlt := i.isLt
    simp only [Config.nodeSlots] at hlt
    have hix : (0x1000 + 8 * i.val + (if hi then 4 else 0) - 0x1000) / 8 = i.val := by split <;> omega
    have hhalf : ((0x1000 + 8 * i.val + (if hi then 4 else 0) - 0x1000) / 4 % 2 == 1) = hi := by
      cases hi <;> simp <;> omega
    have hbound : (if hi then 4 else 0) ≤ 4 ∧ (if hi then 4 else 0) % 4 = 0 := by cases hi <;> simp
    simp (disch := omega) only [Loc.addr, locate, if_pos, if_neg, hix, hhalf, Fin.ofNat_val_eq_self]
  | node i =>
    have hlt := i.isLt
    simp only [Config.nodeSlots] at hlt
    have hix : (0x2000 + 4 * i.val - 0x2000) / 4 = i.val := by omega
    simp (disch := omega) only [Loc.addr, locate, if_pos, if_neg, hix, Fin.ofNat_val_eq_self]
  | tbuf k =>
    have hlt := k.isLt
    simp only [Config.tbufLen] at hlt
    have hix : (0x3000 + 4 * k.val - 0x3000) / 4 = k.val := by omega
    simp (disch := omega) only [Loc.addr, locate, if_pos, if_neg, hix, Fin.ofNat_val_eq_self]
  | code y w =>
    have hlt := y.isLt
    simp only [Config.symCount] at hlt
    have hix : (0x4000 + 32 * y.val + 4 * w.val - 0x4000) / 32 = y.val := by omega
    have hword : Fin.ofNat 8 ((0x4000 + 32 * y.val + 4 * w.val - 0x4000) / 4) = w := by
      apply Fin.ext
      simp only [Fin.ofNat]
      omega
    simp (disch := omega) only [Loc.addr, locate, if_pos, if_neg, hix, hword, Fin.ofNat_val_eq_self]
  | len y =>
    have hlt := y.isLt
    simp only [Config.symCount] at hlt
    have hix : (0x6000 + 4 * y.val - 0x6000) / 4 = y.val := by omega
    simp (disch := omega) only [Loc.addr, locate, if_pos, if_neg, hix, Fin.ofNat_val_eq_self]

theorem Loc.addr_lt (l : Loc) : l.addr < 2 ^ 16 := by
  cases l with
  | reg r => cases r <;> decide
  | hist i hi =>
    have := i.isLt
    simp only [Loc.addr, Config.nodeSlots] at *
    split <;> omega
  | node i => have := i.isLt; simp only [Loc.addr, Config.nodeSlots] at *; omega
  | tbuf k => have := k.isLt; simp only [Loc.addr, Config.tbufLen] at *; omega
  | code y w => have := y.isLt; simp only [Loc.addr, Config.symCount] at *; omega
  | len y => have := y.isLt; simp only [Loc.addr, Config.symCount] at *; omega

/-- A 4-byte access at the address of a word names that word. -/
theorem accessLoc_addr (l : Loc) : accessLoc (BitVec.ofNat 16 l.addr) 4 = some l := by
  rw [accessLoc_eq_some, BitVec.toNat_ofNat, Nat.mod_eq_of_lt l.addr_lt]
  exact ⟨rfl, locate_addr l⟩

/-- No other address names CMD. -/
theorem locate_eq_cmd {a : Nat} (e : locate a = some (.reg .cmd)) : a = 4 := by
  unfold locate at e
  split at e
  · simp at e
  split at e
  · obtain ⟨r, hr, hcmd⟩ := Option.map_eq_some_iff.1 e
    cases hcmd
    have hlt : a / 4 < 17 := (List.getElem?_eq_some_iff.1 hr).1
    have hone : a / 4 = 1 := by
      interval_cases a / 4 <;> simp [Reg.all] at hr ⊢
    omega
  · repeat' split at e
    all_goals simp at e

theorem isCmdWrite_iff {op : BusOp} : isCmdWrite op = true ↔ ∃ v, op = .write cmdAddr 4 v := by
  constructor
  · intro e
    cases op with
    | read a n => simp [isCmdWrite] at e
    | write a n v =>
      obtain ⟨rfl, hloc⟩ := accessLoc_eq_some.1 (by simpa [isCmdWrite] using e)
      exact ⟨v, by rw [BitVec.eq_of_toNat_eq (y := cmdAddr) (locate_eq_cmd hloc)]⟩
  · rintro ⟨v, rfl⟩
    exact isCmdWrite_cmdAddr v

/-! ## The steps of a host access (R20, R62, R74) -/

section HostStep
variable {ts : List Turn} {op : BusOp} {ops : List BusOp}

/-- A step of the host makes its next access when that access is no CMD write: nothing holds it. -/
theorem step_host_access (ht : s.env.turns = .host :: ts) (ho : s.env.hostOps = op :: ops)
    (hop : isCmdWrite op = false) :
    step s = busAccess op { s with env := { s.env with turns := ts, hostOps := ops } } := by
  simp [step, ht, agentTurn, hostTurn, ho, held, hop]

/-- A host write to a word that stores it, as a step. -/
theorem step_host_store {l : Loc} {v : Word} (ht : s.env.turns = .host :: ts)
    (ho : s.env.hostOps = .write (BitVec.ofNat 16 l.addr) 4 v :: ops) (hw : writeLoc s.hufb v l = some h) :
    step s = .next { afterCmdWrite s ts ops with hufb := h } := by
  have hop : isCmdWrite (.write (BitVec.ofNat 16 l.addr) 4 v) = false := by
    simp only [isCmdWrite, accessLoc_addr, beq_eq_false_iff_ne, ne_eq, Option.some.injEq]
    rintro rfl
    simp [writeLoc] at hw
  rw [step_host_access ht ho hop]
  simp [busAccess, hop, storeWrite, accessLoc_addr, hw, respond, afterCmdWrite]

end HostStep

/-- Settles O9: a step with nobody to act and a host turn with no access left pass; nothing holds an access but a 4-byte
write to CMD; a read is an access that leaves the block alone. -/
theorem nothingStartsByItself : Obligations.NothingStartsByItself := by
  unfold Obligations.NothingStartsByItself
  intro s
  refine ⟨fun ht => ?_, fun ts ht ho => ?_, fun ts op ops ht ho hop => ?_, fun ts a n ops ht ho => ?_⟩
  · simp [step, ht, idleStep]
  · simp [step, ht, agentTurn, hostTurn, ho]
  · refine step_host_access ht ho (Bool.eq_false_iff.2 fun hcmd => ?_)
    obtain ⟨v, rfl⟩ := isCmdWrite_iff.1 hcmd
    exact hop v rfl
  · rw [step_host_access ht ho rfl]
    rfl

/-- CTRL keeps bit 0 of what is written. -/
theorem ctrl_word (v : Word) : 0#31 ++ BitVec.ofBool (v.getLsbD 0) = v &&& 1#32 := by
  apply BitVec.eq_of_getLsbD_eq
  intro k hk
  simp only [BitVec.getLsbD_append, BitVec.getLsbD_ofBool, BitVec.getLsbD_and, BitVec.getLsbD_one]
  by_cases hz : k = 0
  · simp [hz]
  · simp [hz]

/-- Settles O13: each of the writes is the step of a host access that stores to its word, and reading the word gives back
the bits that are kept. -/
theorem hostWritesStore : Obligations.HostWritesStore := by
  unfold Obligations.HostWritesStore
  intro s ts ops v k ht
  refine ⟨fun ho => step_host_store (l := .reg .ctrl) ht ho rfl,
    fun ho => step_host_store (l := .reg .decLenLo) ht ho rfl,
    fun ho => step_host_store (l := .reg .decLenHi) ht ho rfl,
    fun ho => ⟨_, step_host_store (l := .tbuf k) ht ho rfl, rfl, ?_, fun j hj => ?_⟩,
    congrArg some (ctrl_word v), rfl, rfl⟩
  · simp [readLoc]
  · simp [readLoc, peek_poke_of_ne _ _ hj]

/-! ## What the host reads (R61) -/

/-- A 4-byte read at the address of a word is answered with its value. -/
theorem readAnswer_addr {l : Loc} {w : Word} (hr : readLoc h l = some w) :
    readAnswer h (BitVec.ofNat 16 l.addr) 4 = .data w := by
  simp [readAnswer, accessLoc_addr, hr]

theorem readAnswer_cmd : readAnswer h 0x0004#16 4 = .error := by
  have hloc : accessLoc 0x0004#16 4 = some (.reg .cmd) := accessLoc_addr (.reg .cmd)
  simp [readAnswer, hloc, readLoc, readReg]

/-- The eight flags of STATUS (R26). -/
theorem statusWord_flags (h : Hufb) :
    (statusWord h).getLsbD 0 = h.fault ∧ (statusWord h).getLsbD 1 = busy h ∧ (statusWord h).getLsbD 2 = rootV h ∧
      (statusWord h).getLsbD 3 = h.tableV ∧ (statusWord h).getLsbD 4 = hstartV h ∧
      (statusWord h).getLsbD 5 = decDone h ∧ (statusWord h).getLsbD 6 = encEmpty h ∧
      (statusWord h).getLsbD 7 = irq h := by
  simp only [statusWord, BitVec.getLsbD_append, BitVec.getLsbD_ofBool]
  simp

/-- CAUSE and the reserved bits of STATUS (R26). -/
theorem statusWord_fields (h : Hufb) :
    (statusWord h).extractLsb' 8 8 = h.cause.code ∧ (statusWord h).extractLsb' 16 16 = 0#16 := by
  simp (disch := decide) only [statusWord, BitVec.extractLsb'_append_eq_of_le]
  exact ⟨BitVec.extractLsb'_append_eq_right, BitVec.extractLsb'_eq_self⟩

/-- A register with an optional index shows it (R49). -/
theorem optIndexWord_shows (o : Option NodeIx) : ShowsIndex (optIndexWord o) o := by
  cases o with
  | none => simp [ShowsIndex, optIndexWord]
  | some i =>
    refine ⟨?_, ?_, ?_⟩
    · simp only [optIndexWord, BitVec.getLsbD_append]
      simp
    · rw [optIndexWord, BitVec.extractLsb'_append_eq_right]
      simp
    · rw [optIndexWord, BitVec.extractLsb'_append_eq_of_le (by decide)]
      exact BitVec.extractLsb'_append_eq_right

/-- A 64-bit value is read as its two halves (R36, R39). -/
theorem halves_toNat (x : BitVec 64) :
    (x.extractLsb' 32 32).toNat * 2 ^ 32 + (x.extractLsb' 0 32).toNat = x.toNat := by
  have := x.isLt
  simp only [BitVec.extractLsb'_toNat, Nat.shiftRight_eq_div_pow]
  omega

theorem toNat_setWidth_word {n : Nat} (x : BitVec n) (hn : n ≤ 32) : (x.setWidth 32 : Word).toNat = x.toNat := by
  rw [BitVec.toNat_setWidth, Nat.mod_eq_of_lt (lt_of_lt_of_le x.isLt (Nat.pow_le_pow_right (by decide) hn))]

/-- Settles O14. -/
theorem registerWords : Obligations.RegisterWords := by
  unfold Obligations.RegisterWords
  intro h
  have hread : ∀ {r : Reg} {w : Word}, readReg h r = some w →
      readAnswer h (BitVec.ofNat 16 r.offset) 4 = .data w := fun {r _} hr => readAnswer_addr (l := .reg r) hr
  obtain ⟨hfault, hbusy, hroot, htable, hhstart, hdone, hempty, hirq⟩ := statusWord_flags h
  refine ⟨hread (r := .id) rfl, readAnswer_cmd,
    ⟨_, hread (r := .status) rfl, hfault, by rw [hbusy]; simp [busy],
      by rw [hroot]; exact Option.isSome_iff_ne_none, htable, by rw [hhstart]; exact Option.isSome_iff_ne_none,
      by rw [hdone]; exact beq_iff_eq, by rw [hempty]; exact beq_iff_eq, by rw [hirq]; simp [irq],
      statusWord_fields h⟩,
    hread (r := .fcmd) rfl, ⟨_, hread (r := .finfo) rfl, ?_, ?_, ?_⟩, ⟨_, hread (r := .ctrl) rfl, ?_, ?_⟩,
    ⟨_, hread (r := .hstart) rfl, optIndexWord_shows _⟩, ⟨_, hread (r := .root) rfl, optIndexWord_shows _⟩,
    ⟨_, hread (r := .nextId) rfl, toNat_setWidth_word _ (by decide)⟩,
    ⟨_, hread (r := .tcount) rfl, toNat_setWidth_word _ (by decide)⟩,
    ⟨_, hread (r := .encState) rfl, ?_, ?_, ?_⟩,
    hread (r := .decLenLo) rfl, hread (r := .decLenHi) rfl,
    ⟨_, _, hread (r := .decRemainLo) rfl, hread (r := .decRemainHi) rfl, halves_toNat _⟩,
    ⟨_, hread (r := .decPos) rfl, optIndexWord_shows _⟩,
    fun hq => ⟨_, hread (r := .outPending) rfl, ?_⟩⟩
  · exact BitVec.extractLsb'_append_eq_right
  · rw [BitVec.extractLsb'_append_eq_of_le (by decide)]
    exact BitVec.extractLsb'_append_eq_right
  · simp (disch := decide) only [BitVec.extractLsb'_append_eq_of_le]
    exact BitVec.extractLsb'_eq_self
  · simp only [BitVec.getLsbD_append, BitVec.getLsbD_ofBool]
    simp
  · rw [BitVec.extractLsb'_append_eq_of_le (by decide)]
    exact BitVec.extractLsb'_eq_self
  · exact BitVec.extractLsb'_append_eq_right
  · rw [BitVec.extractLsb'_append_eq_of_le (by decide)]
    exact BitVec.extractLsb'_append_eq_right
  · simp (disch := decide) only [BitVec.extractLsb'_append_eq_of_le]
    exact BitVec.extractLsb'_eq_self
  · rw [BitVec.toNat_append]
    simp
    omega

/-- An optional index inside a NODE word, read at the place where it stands (R61). -/
theorem optIndexBits_extract (o : Option NodeIx) :
    (optIndexBits o).extractLsb' 0 9 = BitVec.ofNat 9 ((o.map Fin.val).getD 0) := by
  apply BitVec.eq_of_getLsbD_eq
  intro k hk
  rw [BitVec.getLsbD_extractLsb', Nat.zero_add, optIndexBits_index o hk]
  simp [hk]

/-- The three index fields of a NODE word (R61). -/
theorem nodeWord_indices (n : Node) :
    (nodeWord n).extractLsb' 0 9 = BitVec.ofNat 9 ((n.left.map Fin.val).getD 0) ∧
      (nodeWord n).extractLsb' 10 9 = BitVec.ofNat 9 ((n.right.map Fin.val).getD 0) ∧
      (nodeWord n).extractLsb' 20 9 = BitVec.ofNat 9 ((n.parent.map Fin.val).getD 0) := by
  refine ⟨?_, ?_, ?_⟩ <;> rw [← optIndexBits_extract] <;>
    simp (disch := decide) only [nodeWord, BitVec.extractLsb'_append_eq_of_le, BitVec.extractLsb'_append_eq_of_add_le]

/-- The five flags of a NODE word (R61). -/
theorem nodeWord_flags (n : Node) :
    (nodeWord n).getLsbD 9 = n.left.isSome ∧ (nodeWord n).getLsbD 19 = n.right.isSome ∧
      (nodeWord n).getLsbD 29 = n.parent.isSome ∧ (nodeWord n).getLsbD 30 = n.isLeaf ∧
      (nodeWord n).getLsbD 31 = n.valid := by
  simp only [nodeWord, BitVec.getLsbD_append, BitVec.getLsbD_ofBool]
  simp [← optIndexBits_present]

/-- Settles O15: the address of each word of a window is the word's own, and what is read there is its layout. -/
theorem windowWords : Obligations.WindowWords := by
  unfold Obligations.WindowWords
  intro h
  refine ⟨fun i => ⟨_, _, readAnswer_addr (l := .hist i false) rfl, readAnswer_addr (l := .hist i true) rfl,
      halves_toNat _⟩,
    fun i => ⟨_, readAnswer_addr (l := .node i) rfl, ?_⟩,
    fun k => ⟨_, readAnswer_addr (l := .tbuf k) rfl, toNat_setWidth_word _ (by decide)⟩,
    fun y => ⟨_, readAnswer_addr (l := .len y) rfl, toNat_setWidth_word _ (by decide)⟩⟩
  obtain ⟨hleft, hright, hparent⟩ := nodeWord_indices (peek h.node i)
  obtain ⟨hl, hr, hp, hleaf, hvalid⟩ := nodeWord_flags (peek h.node i)
  exact ⟨hleft, hl, hright, hr, hparent, hp, by rw [hleaf]; simp [Node.isLeaf, and_assoc], hvalid⟩

end Sys2Proof.Machine
end

section
/-! PROOFS. The reset state (O18, O53). -/

namespace Sys2Proof.Machine

/-- Settles O18: RESET answers the reset block, which the reset state already has, and the four words are read off it. -/
theorem resetStateIsTheTable : Obligations.ResetStateIsTheTable := by
  unfold Obligations.ResetStateIsTheTable
  have hexec : exec .reset State.reset = .next State.reset := rfl
  have hstatus : statusWord State.reset.hufb = 0x00000060#32 := by decide
  exact ⟨hexec, rfl, hstatus, rfl, rfl⟩

/-- Settles O53: the reset block has no tree, no decoder position, an all zero histogram, an empty accumulator, a clear
table and no fault. -/
theorem resetMeetsEveryInvariant : Obligations.ResetMeetsEveryInvariant where
  tree := .inl ⟨rfl, peek_reset_node⟩
  decPos := .inl ⟨rfl, rfl⟩
  hist := histOk_of_zero peek_reset_hist
  packer := packerOk_of_empty rfl rfl
  table := tableOk_of_clear peek_reset_len peek_reset_code rfl
  faults := faultOk_reset
  counters := ⟨by decide, by decide, by decide⟩

end Sys2Proof.Machine
end

section
/-! PROOFS. The CMD write and the sink (O5 to O7, O10), the address map read both ways (O11), the accesses that end in a bus
error (O12) and the CODE window (O16). -/

namespace Sys2Proof.Machine

variable {h : Hufb} {s : State} {ts : List Turn} {ops : List BusOp} {a : Addr} {n : Nat} {v w : Word}

/-! ## The CMD write (R64, R97) -/

section CmdWrite
variable (ht : s.env.turns = .host :: ts) (ho : s.env.hostOps = .write cmdAddr 4 w :: ops)
include ht ho

/-- R64 (1): while OUTQ is not empty the host's turn passes. -/
theorem step_cmdWrite_held (hq : s.hufb.outq ≠ []) :
    step s = .next { s with env := { s.env with turns := ts } } := by
  simp [step, ht, agentTurn, hostTurn, ho, held, isCmdWrite_cmdAddr, busy, hq]

/-- With OUTQ empty nothing holds the write. -/
theorem step_cmdWrite_made (hq : s.hufb.outq = []) :
    step s = cmdWrite w { s with env := { s.env with turns := ts, hostOps := ops } } := by
  simp [step, ht, agentTurn, hostTurn, ho, held, busy, hq, busAccess, isCmdWrite_cmdAddr]

/-- R64 (2): a word that is discarded leaves the block alone. -/
theorem step_cmdWrite_discarded (hq : s.hufb.outq = []) (hd : discarded w s.hufb = true) :
    step s = .next (afterCmdWrite s ts ops) := by
  rw [step_cmdWrite_made ht ho hq]
  exact if_pos hd

/-- R64 (3): every other word is issued. -/
theorem step_cmdWrite_issued (hq : s.hufb.outq = []) (hd : discarded w s.hufb = false) :
    step s = issue w (afterCmdWrite s ts ops) := by
  rw [step_cmdWrite_made ht ho hq]
  exact if_neg (by simp [hd])

end CmdWrite

/-- Settles O6: OUTQ decides whether the write is held, FAULT and the word whether it is discarded. -/
theorem cmdWriteThreeCases : Obligations.CmdWriteThreeCases := by
  unfold Obligations.CmdWriteThreeCases
  intro s ts ops w ht ho
  refine ⟨step_cmdWrite_held ht ho, fun hq hf hw => ?_, fun hq hf => ?_⟩
  · exact step_cmdWrite_discarded ht ho hq (by simp [discarded, hf, resetWord, hw])
  · exact step_cmdWrite_issued ht ho hq (discarded_eq_false.2 hf)

theorem issue_of_decode {i : Instr} (hi : decode w = .ok i) :
    issue w s = exec i { s with hufb := { s.hufb with lastCmd := w } } := by
  simp [issue, hi]

/-- Settles O5: the word is issued, and issuing the word of a command executes it. -/
theorem stepRunsDecodedCommand : Obligations.StepRunsDecodedCommand := by
  unfold Obligations.StepRunsDecodedCommand
  intro s ts ops w i ht ho hi hq hf
  rw [step_cmdWrite_issued ht ho hq (discarded_eq_false.2 hf), issue_of_decode hi]
  rfl

/-! ## The sink (R71, R204) -/

/-- R71: the sink takes the head byte of OUTQ. -/
theorem step_sinkAccept_cons {b : Byte} {q : List Byte} (ht : s.env.turns = .sinkAccept :: ts)
    (hq : s.hufb.outq = b :: q) :
    step s = .next { hufb := { s.hufb with outq := q }
                     env := { s.env with turns := ts, accepted := s.env.accepted ++ [b] } } := by
  simp [step, ht, agentTurn, sinkAccept, hq]

/-- Settles O7: each choice of the sink, with OUTQ empty and with a head byte to decide about. -/
theorem sinkAcceptsOrErrors : Obligations.SinkAcceptsOrErrors := by
  unfold Obligations.SinkAcceptsOrErrors
  intro s ts
  refine ⟨fun ht hq => ?_, fun b q => step_sinkAccept_cons, fun ht hq => ?_, fun ht hq => ?_⟩
  · simp [step, ht, agentTurn, sinkAccept, hq]
  · simp [step, ht, agentTurn, sinkError, busy, hq]
  · simp [step, ht, agentTurn, sinkError, busy, hq, faultEntry, readWriteRaise]

/-- As many accepting steps as OUTQ has bytes move them all, in order, to the accepted stream. -/
theorem stepMany_sinkAccept (q : List Byte) (s : State) (hq : s.hufb.outq = q)
    (ht : s.env.turns = List.replicate q.length .sinkAccept ++ ts) :
    stepMany q.length s = .next
      { hufb := { s.hufb with outq := [] }
        env := { s.env with turns := ts, accepted := s.env.accepted ++ q } } := by
  induction q generalizing s with
  | nil =>
    have hturns : s.env.turns = ts := ht
    change Host.Outcome.next s = _
    rw [List.append_nil, ← hturns, ← hq]
  | cons b q ih =>
    rw [List.length_cons, List.replicate_succ, List.cons_append] at ht
    simp only [List.length_cons, stepMany, step_sinkAccept_cons ht hq]
    rw [ih _ rfl rfl]
    simp

/-- Settles O10: the accepting steps empty OUTQ, and with FAULT = 0 the write that was held is then issued. -/
theorem heldWriteCompletesWhenTheSinkAccepts : Obligations.HeldWriteCompletesWhenTheSinkAccepts := by
  unfold Obligations.HeldWriteCompletesWhenTheSinkAccepts
  intro s ts ops w ht ho hf
  exact ⟨_, stepMany_sinkAccept _ s rfl ht, rfl,
    step_cmdWrite_issued rfl ho rfl (discarded_eq_false.2 (.inl hf))⟩

/-! ## The address map read both ways (R60) -/

theorem Reg.offset_of_getElem? {k : Nat} {r : Reg} (hr : Reg.all[k]? = some r) : r.offset = 4 * k := by
  obtain ⟨hk, rfl⟩ := List.getElem?_eq_some_iff.1 hr
  have hlt : k < 17 := hk
  interval_cases k <;> rfl

theorem Loc.addr_aligned (l : Loc) : l.addr % 4 = 0 := by
  cases l with
  | reg r => cases r <;> rfl
  | hist i hi => simp only [Loc.addr]; split <;> omega
  | node i => simp only [Loc.addr]; omega
  | tbuf k => simp only [Loc.addr]; omega
  | code y x => simp only [Loc.addr]; omega
  | len y => simp only [Loc.addr]; omega

/-- The word found at an address has that address: each branch of the map divides the offset from the window's base by
the size of an entry, and the window is no longer than its entries. -/
theorem addr_of_locate {a : Nat} {l : Loc} (e : locate a = some l) : a = l.addr := by
  unfold locate at e
  split at e
  · simp at e
  split at e
  · obtain ⟨r, hr, rfl⟩ := Option.map_eq_some_iff.1 e
    have := Reg.offset_of_getElem? hr
    simp only [Loc.addr]
    omega
  repeat' split at e
  all_goals cases e
  all_goals simp only [Loc.addr, Fin.ofNat, beq_iff_eq, Config.nodeSlots, Config.tbufLen, Config.symCount]
  · split <;> omega -- HIST: the low and the high word of an entry
  all_goals omega

/-- Settles O11: `locate` and `Loc.addr` are inverse to each other. -/
theorem addressMapIsOneToOne : Obligations.AddressMapIsOneToOne :=
  ⟨fun l => ⟨locate_addr l, l.addr_aligned, l.addr_lt⟩, fun _ _ => addr_of_locate⟩

/-! ## Bus errors (R63) -/

/-- A read is refused when it names no word, or names CMD, the one word without a value. -/
theorem readAnswer_eq_error :
    readAnswer h a n = .error ↔ ¬ (n = 4 ∧ ∃ l, locate a.toNat = some l ∧ l ≠ .reg .cmd) := by
  have hvalue : readAnswer h a n = .error ↔ (accessLoc a n).bind (readLoc h) = none := by
    unfold readAnswer
    split <;> simp_all
  simp only [hvalue, Option.bind_eq_none_iff, accessLoc_eq_some, readLoc_eq_none]
  grind

/-- A CMD write is answered done or stops the machine, so it is no bus error. -/
theorem busAccess_cmdWrite_ne_error (hc : isCmdWrite (.write a n v) = true) :
    busAccess (.write a n v) s ≠
      .next { s with env := { s.env with responses := s.env.responses ++ [.error] } } := by
  intro e
  have henv := cmdWrite_env ((if_pos hc).symm.trans e)
  simp at henv

/-- A write to a word other than CMD is refused when it names no word or one that is not stored. -/
theorem storeWrite_eq_error :
    storeWrite a n v s = respond .error s ↔ (accessLoc a n).bind (writeLoc s.hufb v) = none := by
  unfold storeWrite
  split <;> simp_all [respond]

/-- Settles O12: reads and writes are refused as their words have no value to read or nothing to store; a CMD write names
a writable word and is not refused. -/
theorem busErrorsExactlyWhere : Obligations.BusErrorsExactlyWhere := by
  unfold Obligations.BusErrorsExactlyWhere
  intro s a n v
  refine ⟨readAnswer_eq_error, rfl, ?_⟩
  cases hc : isCmdWrite (.write a n v) with
  | true =>
    obtain ⟨hn, hloc⟩ : n = 4 ∧ locate a.toNat = some (.reg .cmd) :=
      accessLoc_eq_some.1 (by simpa [isCmdWrite] using hc)
    exact iff_of_false (fun hnot => hnot ⟨hn, _, hloc, .inl rfl⟩) (busAccess_cmdWrite_ne_error hc)
  | false =>
    have hcmd : ¬ (n = 4 ∧ locate a.toNat = some (.reg .cmd)) := by
      rw [← accessLoc_eq_some]
      simpa [isCmdWrite] using hc
    have hstore : busAccess (.write a n v) s = .next (storeWrite a n v s) := if_neg (by simp [hc])
    rw [hstore, Host.Outcome.next.injEq, ← respond, storeWrite_eq_error]
    simp only [Option.bind_eq_none_iff, accessLoc_eq_some, writeLoc_eq_none]
    grind

/-! ## The CODE window (R43, R61) -/

theorem codeWord_getLsbD (len : Byte) (code : CodeBits) (x : Fin 8) {j : Nat} (hj : j < 32) :
    (codeWord len code x).getLsbD (31 - j) =
      (decide (32 * x.val + j < len.toNat) && code.getLsbD (32 * x.val + j)) := by
  have hlt : 31 - j < 32 := by omega
  have hback : 31 - (31 - j) = j := by omega
  rw [codeWord, wordOfBits_getLsbD _ le_rfl]
  simp only [hlt, hback, decide_true, Bool.true_and]

/-- Settles O16: the address of a CODE word is the word's own, and its bits are those of `codeWord`. -/
theorem codeWindowBits : Obligations.CodeWindowBits := by
  unfold Obligations.CodeWindowBits
  intro h y x j hj
  exact ⟨_, readAnswer_addr (l := .code y x) rfl, codeWord_getLsbD _ _ x hj⟩

end Sys2Proof.Machine
end

section
/-! PROOFS. The command word (O1 to O3): a word with its reserved bits clear is the word of its row of R93 with its own
fields, and no other word is a command's. The host's lines (O4): the numbers that the command words are. -/

namespace Sys2Proof

open Machine

variable {w : Word} {i : Instr} {s : State} {k c : Nat} {vs cs : List Nat}

/-! ## The word of a format (R90) -/

/-- The word that a format makes of the fields it has, as `encode` makes it of a command's row (`encode_instr`). -/
def Format.word : Format → Byte → BitVec 16 → Byte → Word
  | .N, _, _, opc => encodeN opc
  | .B, byte, _, opc => encodeB byte opc
  | .C, _, cnt, opc => encodeC cnt opc

theorem encode_instr (m : Mnemonic) (byte : Byte) (cnt : BitVec 16) :
    encode (m.instr byte cnt) = m.format.word byte cnt m.opc := by
  cases m <;> rfl

@[simp] theorem opcField_word (f : Format) (byte : Byte) (cnt : BitVec 16) (opc : Byte) :
    opcField (f.word byte cnt opc) = opc := by
  cases f <;> exact BitVec.extractLsb'_append_eq_right

/-- A word cut into the fields of format N. -/
theorem append_opcField (w : Word) : (w.extractLsb' 8 24 ++ opcField w : Word) = w :=
  BitVec.extractLsb'_append_extractLsb'

/-- A word cut into the fields of format B. -/
theorem append_byteField_opcField (w : Word) :
    (w.extractLsb' 16 16 ++ byteField w ++ opcField w : Word) = w := by
  have hupper : w.extractLsb' 16 16 ++ byteField w = w.extractLsb' 8 24 :=
    BitVec.extractLsb'_append_extractLsb'_eq_extractLsb' rfl
  rw [hupper, append_opcField]

/-- A word cut into the fields of format C. -/
theorem append_cntField_opcField (w : Word) :
    (w.extractLsb' 24 8 ++ cntField w ++ opcField w : Word) = w := by
  have hupper : w.extractLsb' 24 8 ++ cntField w = w.extractLsb' 8 24 :=
    BitVec.extractLsb'_append_extractLsb'_eq_extractLsb' rfl
  rw [hupper, append_opcField]

/-- A word is what a format makes of the word's own fields exactly when the bits that the format reserves are 0 (R94):
the fields and the reserved bits are all of the word. -/
theorem word_fields_eq_iff (f : Format) (w : Word) :
    w = f.word (byteField w) (cntField w) (opcField w) ↔ reservedClear f w := by
  cases f with
  | N => calc
      _ ↔ (w.extractLsb' 8 24 ++ opcField w : Word) = 0#24 ++ opcField w := by
        rw [append_opcField]; rfl
      _ ↔ _ := BitVec.append_left_inj _
  | B => calc
      _ ↔ (w.extractLsb' 16 16 ++ byteField w ++ opcField w : Word) = 0#16 ++ byteField w ++ opcField w := by
        rw [append_byteField_opcField]; rfl
      _ ↔ _ := (BitVec.append_left_inj _).trans (BitVec.append_left_inj _)
  | C => calc
      _ ↔ (w.extractLsb' 24 8 ++ cntField w ++ opcField w : Word) = 0#8 ++ cntField w ++ opcField w := by
        rw [append_cntField_opcField]; rfl
      _ ↔ _ := (BitVec.append_left_inj _).trans (BitVec.append_left_inj _)

/-! ## Decoder and encoder (R93) -/

theorem encode_of_decode (h : decode w = .ok i) : encode i = w := by
  obtain ⟨m, hopc, hclear, rfl⟩ := decode_eq_ok.1 h
  rw [encode_instr, hopc]
  exact ((word_fields_eq_iff m.format w).2 ((reservedClear_iff _ _).2 hclear)).symm

/-- A command's word is made of its row's OPC and of the word's own fields, so it has nothing reserved and decodes to
that row with those fields. -/
theorem decode_encode (i : Instr) : decode (encode i) = .ok i := by
  have hrow := instr_of_mnemonic i
  have hword : encode i =
      i.mnemonic.format.word (byteField (encode i)) (cntField (encode i)) i.mnemonic.opc :=
    (congrArg encode hrow).trans (encode_instr _ _ _)
  have hopc : i.mnemonic.opc = opcField (encode i) := by
    rw [hword, opcField_word]
  refine decode_eq_ok.2 ⟨i.mnemonic, hopc, (reservedClear_iff _ _).1 ?_, hrow⟩
  rw [← word_fields_eq_iff, ← hopc]
  exact hword

/-- Settles O1: decoding a command's word gives the command back, and encoding what a word decodes to gives the word. -/
theorem decodeIffEncode : Obligations.DecodeIffEncode := by
  unfold Obligations.DecodeIffEncode
  intro w i
  constructor
  · exact fun h => (encode_of_decode h).symm
  · rintro rfl
    exact decode_encode i

/-- Settles O2: the seven words are those of the encoder, bit by bit. -/
theorem wordsOfTheTableDecode : Obligations.WordsOfTheTableDecode := by
  unfold Obligations.WordsOfTheTableDecode
  exact ⟨decode_encode .reset, decode_encode (.histAdd 0x61#8), decode_encode .treeBuild,
    decode_encode (.treeLoad 768#16), decode_encode .tableGen, decode_encode (.encSym 0xFF#8),
    decode_encode (.decByte 0xC0#8)⟩

/-! ## Illegal words (R94) -/

theorem issue_of_decode_error {e : DecodeError} (he : decode w = .error e) :
    issue w s = .next { s with hufb := faultEntry (illegalRaise e) { s.hufb with lastCmd := w } } := by
  simp [issue, he]

/-- Settles O3: the decoder has two refusals, and issuing a refused word enters the fault that names its refusal. -/
theorem illegalWordsFault : Obligations.IllegalWordsFault := by
  unfold Obligations.IllegalWordsFault
  intro s w
  refine ⟨fun e he => ?_, fun hopc => issue_of_decode_error (decode_unknown hopc), fun m hopc hset =>
    issue_of_decode_error (decode_reserved hopc (mt (reservedClear_iff _ _).2 hset))⟩
  rcases decode_eq_error he with ⟨-, hopc⟩ | ⟨-, m, hopc, hset⟩
  · exact .inl hopc
  · exact .inr ⟨m, hopc, mt (reservedClear_iff _ _).1 hset⟩

/-! ## Command words as numbers (R90) -/

/-- A field above the OPC counts 256 times. -/
theorem zeros_append_opc_toNat {r n : Nat} (x : BitVec n) (opc : Byte) :
    (0#r ++ x ++ opc).toNat = 256 * x.toNat + opc.toNat := by
  rw [BitVec.toNat_append, BitVec.toNat_append, ← Nat.shiftLeft_add_eq_or_of_lt opc.isLt]
  simp [Nat.shiftLeft_eq, Nat.mul_comm]

theorem encodeB_ofNat (hc : c < 256) (opc : Byte) :
    encodeB (BitVec.ofNat 8 c) opc = BitVec.ofNat 32 (256 * c + opc.toNat) := by
  have := opc.isLt
  apply BitVec.eq_of_toNat_eq
  rw [encodeB, zeros_append_opc_toNat, BitVec.toNat_ofNat, BitVec.toNat_ofNat]
  omega

theorem encodeC_ofNat (hc : c < 2 ^ 16) (opc : Byte) :
    encodeC (BitVec.ofNat 16 c) opc = BitVec.ofNat 32 (256 * c + opc.toNat) := by
  have := opc.isLt
  apply BitVec.eq_of_toNat_eq
  rw [encodeC, zeros_append_opc_toNat, BitVec.toNat_ofNat, BitVec.toNat_ofNat]
  omega

/-! ## Host program lines (R96) -/

theorem elemsOk_of_bounds (h : ∀ j (hj : j < vs.length), 0x3000 + 4 * (k + j) < 2 ^ 16 ∧ vs[j] < 2 ^ 32) :
    elemsOk k vs = true := by
  rw [elemsOk_iff]
  intro j hj
  obtain ⟨haddr, hvalue⟩ := h j hj
  exact Bool.and_eq_true_iff.2 ⟨decide_eq_true haddr, decide_eq_true hvalue⟩

/-- Elements whose addresses are bus addresses are fewer than 2^16, so their number fits CNT. -/
theorem length_lt_of_addr_bounds (h : ∀ j < vs.length, 0x3000 + 4 * j < 2 ^ 16) : vs.length < 2 ^ 16 := by
  by_contra hlen
  have := h 0xD000 (by omega)
  omega

/-- `LOAD_TREE` (R96): the writes of `TBUF_FILL` from element 0 on, then TREE_LOAD of the number of elements. -/
theorem loadTreeOps_eq (hlen : vs.length < 2 ^ 16) :
    tbufFillOps 0 vs ++ [busCmd (.treeLoad (BitVec.ofNat 16 vs.length))] =
      (vs.mapIdx fun j v => .write (BitVec.ofNat 16 (0x3000 + 4 * j)) 4 (BitVec.ofNat 32 v)) ++
        [.write 0x0004#16 4 (BitVec.ofNat 32 (256 * vs.length + 0x31))] := by
  have hcmd : busCmd (.treeLoad (BitVec.ofNat 16 vs.length)) =
      .write 0x0004#16 4 (BitVec.ofNat 32 (256 * vs.length + 0x31)) :=
    congrArg (BusOp.write cmdAddr 4) (encodeC_ofNat hlen 0x31#8)
  simp only [tbufFillOps_eq, hcmd, Nat.zero_add, busWr, elemAddr]

/-- One command of format B for each byte of a string (R96). -/
theorem map_busCmd_bytesOf {f : Byte → Instr} {opc : Byte} (hf : ∀ b, encode (f b) = encodeB b opc)
    (hcs : bytesOk cs = true) :
    ((bytesOf cs).map f).map busCmd =
      cs.map fun c => .write 0x0004#16 4 (BitVec.ofNat 32 (256 * c + opc.toNat)) := by
  rw [bytesOf, List.map_map, List.map_map]
  refine List.map_congr_left fun c hc => ?_
  have hlt : c < 256 := by simpa using List.all_eq_true.1 hcs c hc
  exact congrArg (BusOp.write cmdAddr 4) ((hf _).trans (encodeB_ofNat hlt opc))

/-- `HIST_ADDS` (R96). -/
theorem map_busCmd_histAddsCmds (hcs : bytesOk cs = true) :
    (histAddsCmds (bytesOf cs)).map busCmd =
      cs.map fun c => .write 0x0004#16 4 (BitVec.ofNat 32 (256 * c + 0x11)) :=
  map_busCmd_bytesOf (opc := 0x11#8) (fun _ => rfl) hcs

/-- `ENC_SYMS` (R96). -/
theorem map_busCmd_encSymsCmds (hcs : bytesOk cs = true) :
    (encSymsCmds (bytesOf cs)).map busCmd =
      cs.map fun c => .write 0x0004#16 4 (BitVec.ofNat 32 (256 * c + 0x50)) :=
  map_busCmd_bytesOf (opc := 0x50#8) (fun _ => rfl) hcs

/-- `DEC_BYTES` (R96). -/
theorem map_busCmd_decBytesCmds (hcs : bytesOk cs = true) :
    (decBytesCmds (bytesOf cs)).map busCmd =
      cs.map fun c => .write 0x0004#16 4 (BitVec.ofNat 32 (256 * c + 0x61)) :=
  map_busCmd_bytesOf (opc := 0x61#8) (fun _ => rfl) hcs

/-- `ENCODE_CHUNK` (R96, R232): the two passes over the string stand between the commands that have no operand. -/
theorem map_busCmd_encodeChunkCmds (hcs : bytesOk cs = true) :
    (encodeChunkCmds (bytesOf cs)).map busCmd =
      ([0x10] ++ cs.map (fun c => 256 * c + 0x11) ++ [0x21, 0x30, 0x40] ++ cs.map (fun c => 256 * c + 0x50) ++
        [0x51]).map fun w => .write 0x0004#16 4 (BitVec.ofNat 32 w) := by
  simp only [encodeChunkCmds, List.map_append, List.map_cons, List.map_nil, List.map_map,
    map_busCmd_histAddsCmds hcs, map_busCmd_encSymsCmds hcs]
  rfl

/-- Settles O4: each line is well formed, and its accesses are the writes of R96. -/
theorem assemblerExpansions : Obligations.AssemblerExpansions := by
  unfold Obligations.AssemblerExpansions
  refine ⟨fun n hn => if_pos (decide_eq_true hn), fun k vs h => ?_, fun vs h => ?_, fun cs hcs => ⟨?_, ?_, ?_, ?_⟩⟩
  · exact (if_pos (elemsOk_of_bounds h)).trans (congrArg some (tbufFillOps_eq k vs))
  · have hok : elemsOk 0 vs = true := elemsOk_of_bounds (by simpa only [Nat.zero_add] using h)
    have hlen : vs.length < 2 ^ 16 := length_lt_of_addr_bounds fun j hj => (h j hj).1
    exact (if_pos hok).trans (congrArg some (loadTreeOps_eq hlen))
  · exact (if_pos hcs).trans (congrArg some (map_busCmd_histAddsCmds hcs))
  · exact (if_pos hcs).trans (congrArg some (map_busCmd_encSymsCmds hcs))
  · exact (if_pos hcs).trans (congrArg some (map_busCmd_decBytesCmds hcs))
  · exact (if_pos hcs).trans (congrArg some (map_busCmd_encodeChunkCmds hcs))

end Sys2Proof
end

section
/-! PROOFS. The control commands (O17), and the frame of the control, histogram and tree builder commands (O51). -/

namespace Sys2Proof.Machine

variable {h h' : Hufb} {s t : State} {i : Instr}

/-- Every command either completes with the run's data as they were, or enters the fault and changes nothing else. -/
theorem exec_done_or_faultEntered (e : exec i s = .next t) :
    (effectOf i s.hufb = .done t.hufb ∧ t = { s with hufb := t.hufb }) ∨ FaultEntered s t := by
  obtain ⟨h, hdone, rfl⟩ | ⟨r, -, rfl⟩ := exec_next e
  · exact .inl ⟨hdone, rfl⟩
  · exact .inr ⟨r.cause, r.sub, r.value, rfl⟩

/-- A HIST_ADD that completes owns HIST and HSTART (R126). -/
theorem histAdd_frame {b : Byte} (e : histAdd b h = .done h') :
    h' = { h with hist := h'.hist, hstart := h'.hstart } := by
  obtain ⟨-, rfl⟩ := histAdd_done e
  rfl

/-- A TREE_BUILD that completes owns the tree, the symbol table, the decoder position and HIST (R135, R136). -/
theorem treeBuild_frame (e : treeBuild h = .done h') :
    h' = { h with
      node := h'.node, root := h'.root, nextId := h'.nextId, len := h'.len, code := h'.code,
      tableV := h'.tableV, decPos := h'.decPos, hist := h'.hist } := by
  obtain ⟨node, hist, nextId, root, rfl⟩ : ∃ node hist nextId root, h' = { cleared h with
      node := node, hist := hist, nextId := nextId, root := root, decPos := root } :=
    ⟨_, _, _, _, treeBuild_done e⟩
  rfl

/-- Settles O51: NOP, RESET, HIST_RESET and TREE_RESET always complete, with a block that is written out; HIST_ADD and
TREE_BUILD complete within their frames or enter the fault. -/
theorem histogramAndBuilderFrame : Obligations.HistogramAndBuilderFrame := by
  unfold Obligations.HistogramAndBuilderFrame
  intro s t b
  refine ⟨fun e => ?nop, exec_env, fun e => ?histReset, fun e => ?histAdd, fun e => ?treeReset, fun e => ?treeBuild⟩
  case nop => cases e; rfl
  case histReset => cases e; rfl
  case treeReset => cases e; rfl
  case histAdd =>
    refine (exec_done_or_faultEntered e).imp_left fun ⟨hdone, ht⟩ => ?_
    rwa [histAdd_frame hdone] at ht
  case treeBuild =>
    refine (exec_done_or_faultEntered e).imp_left fun ⟨hdone, ht⟩ => ?_
    rwa [treeBuild_frame hdone] at ht

/-- Settles O17: NOP concludes with the block it found, RESET with the reset block, whose arrays hold one value
throughout. -/
theorem nopAndReset : Obligations.NopAndReset := by
  unfold Obligations.NopAndReset
  intro s
  have hstatus : statusWord Hufb.reset = 0x00000060#32 := by decide
  exact ⟨rfl, Hufb.reset, rfl, rfl, rfl, rfl, rfl, rfl, rfl, rfl, peek_reset_hist, rfl, peek_reset_node, rfl, rfl,
    peek_reset_tbuf, rfl, peek_reset_len, peek_reset_code, rfl, rfl, rfl, rfl, rfl, rfl, rfl, rfl, hstatus⟩

end Sys2Proof.Machine
end

section
/-! PROOFS. The histogram commands (O23, O24), and the histogram of a string (O25). -/

namespace Sys2Proof.Machine

variable {h : Hufb} {s t : State} {b : Byte} {ss : List Byte} {o : Option NodeIx}

/-! ## One command -/

theorem eq_maxWeight_iff {w : Weight} : w = maxWeight ↔ w.toNat = 2 ^ 64 - 1 :=
  BitVec.toNat_inj.symm

theorem symNode_injective : Function.Injective symNode := fun a b e =>
  BitVec.toNat_inj.1 (show (symNode a).val = (symNode b).val by rw [e])

/-- What a HIST_ADD of `b` completes with (R126). -/
def counted (b : Byte) (h : Hufb) : Hufb :=
  { h with
    hist := poke h.hist (symNode b) (peek h.hist (symNode b) + 1)
    hstart := some (lowerStart h.hstart (symNode b)) }

theorem exec_histAdd_of_ne (hroom : (peek s.hufb.hist (symNode b)).toNat ≠ 2 ^ 64 - 1) :
    exec (.histAdd b) s = .next { s with hufb := counted b s.hufb } :=
  congrArg (Effect.conclude s) (if_neg (mt eq_maxWeight_iff.1 hroom))

theorem exec_histAdd_of_eq (hfull : (peek s.hufb.hist (symNode b)).toNat = 2 ^ 64 - 1) :
    exec (.histAdd b) s = .next { s with hufb := faulted s.hufb .weightOverflow 1 (b.setWidth 16) } :=
  congrArg (Effect.conclude s) (if_pos (eq_maxWeight_iff.2 hfull))

theorem peek_counted_self (hroom : (peek h.hist (symNode b)).toNat ≠ 2 ^ 64 - 1) :
    (peek (counted b h).hist (symNode b)).toNat = (peek h.hist (symNode b)).toNat + 1 := by
  have hlt := (peek h.hist (symNode b)).isLt
  have hpeek : peek (counted b h).hist (symNode b) = peek h.hist (symNode b) + 1 := peek_poke_self _ _ _
  rw [hpeek]
  exact BitVec.toNat_add_of_lt (show (peek h.hist (symNode b)).toNat + 1 < 2 ^ 64 by omega)

theorem peek_counted_of_ne {i : NodeIx} (hi : i ≠ symNode b) : peek (counted b h).hist i = peek h.hist i :=
  peek_poke_of_ne _ _ hi

/-- Settles O23: HIST_RESET concludes with a histogram that holds 0 throughout. -/
theorem histResetResult : Obligations.HistResetResult := by
  unfold Obligations.HistResetResult
  intro s
  exact ⟨{ s with hufb := histReset s.hufb }, rfl, peek_replicate 0, rfl, rfl⟩

/-- Settles O24: HIST_ADD has two branches, and the counter decides between them. -/
theorem histAddResult : Obligations.HistAddResult := by
  unfold Obligations.HistAddResult
  intro s b
  refine ⟨fun hroom => ?_, exec_histAdd_of_eq⟩
  have hother : ∀ i : NodeIx, i.val ≠ b.toNat → peek (counted b s.hufb).hist i = peek s.hufb.hist i :=
    fun i hi => peek_counted_of_ne fun e => hi (congrArg Fin.val e)
  have hnone : s.hufb.hstart = none → (counted b s.hufb).hstart = some (symNode b) :=
    fun e => by rw [counted, e]; rfl
  have hsome : ∀ st, s.hufb.hstart = some st →
      ∃ m, (counted b s.hufb).hstart = some m ∧ m.val = min st.val b.toNat :=
    fun st e => ⟨min st (symNode b), by rw [counted, e]; rfl, Fin.coe_min _ _⟩
  exact ⟨_, exec_histAdd_of_ne hroom, peek_counted_self hroom, hother, hnone, hsome, rfl⟩

/-! ## A string of commands (R127) -/

theorem execAll_cons {i : Instr} {is : List Instr} (e : exec i s = .next t) :
    execAll (i :: is) s = execAll is t := by
  rw [execAll, e]

/-- HSTART after the symbols of a string: the least of them, none for the empty string. -/
def IsStartOf (ss : List Byte) : Option NodeIx → Prop
  | none => ss = []
  | some st => (∃ m ∈ ss, st = symNode m) ∧ ∀ b ∈ ss, st ≤ symNode b

theorem IsStartOf.append_singleton (hs : IsStartOf ss o) :
    IsStartOf (ss ++ [b]) (some (lowerStart o (symNode b))) := by
  cases o with
  | none =>
    obtain rfl : ss = [] := hs
    exact ⟨⟨b, by simp, rfl⟩, by simp [lowerStart]⟩
  | some st =>
    obtain ⟨⟨m, hm, rfl⟩, hle⟩ := hs
    have hmem : ∃ m' ∈ ss ++ [b], min (symNode m) (symNode b) = symNode m' := by
      rcases min_choice (symNode m) (symNode b) with e | e
      · exact ⟨m, by simp [hm], e⟩
      · exact ⟨b, by simp, e⟩
    refine ⟨hmem, fun c hc => ?_⟩
    rcases List.mem_append.1 hc with hc | hc
    · exact (min_le_left _ _).trans (hle c hc)
    · obtain rfl := List.mem_singleton.1 hc
      exact min_le_right _ _

/-- The block holds the histogram of the string `ss`. -/
structure IsHistogramOf (ss : List Byte) (h : Hufb) : Prop where
  count : ∀ b : Byte, (peek h.hist (symNode b)).toNat = ss.count b
  internal : ∀ i : NodeIx, 256 ≤ i.val → peek h.hist i = 0
  start : IsStartOf ss h.hstart

theorem isHistogramOf_histReset (h : Hufb) : IsHistogramOf [] (histReset h) where
  count b := congrArg BitVec.toNat (peek_replicate 0 (symNode b))
  internal i _ := peek_replicate 0 i
  start := rfl

theorem IsHistogramOf.ne_full (hh : IsHistogramOf ss h) (hlen : ss.length < 2 ^ 64 - 1) :
    (peek h.hist (symNode b)).toNat ≠ 2 ^ 64 - 1 := by
  rw [hh.count b]
  exact (List.count_le_length.trans_lt hlen).ne

theorem IsHistogramOf.append_singleton (hh : IsHistogramOf ss h) (hlen : ss.length < 2 ^ 64 - 1) :
    IsHistogramOf (ss ++ [b]) (counted b h) where
  count c := by
    rw [List.count_append]
    by_cases hc : c = b
    · subst hc
      rw [peek_counted_self (hh.ne_full hlen), hh.count, List.count_singleton_self]
    · rw [peek_counted_of_ne (symNode_injective.ne hc), hh.count, List.count_singleton,
        if_neg (by simpa using Ne.symm hc), Nat.add_zero]
  internal i hi := by
    have hne : i ≠ symNode b := fun e => absurd b.isLt (Nat.not_lt.2 (by simpa [e, symNode] using hi))
    rw [peek_counted_of_ne hne, hh.internal i hi]
  start := hh.start.append_singleton

/-- HIST_ADDs of a string after those of `seen` leave the histogram of both and touch HIST and HSTART alone. -/
theorem execAll_histAdds {seen : List Byte} (hh : IsHistogramOf seen s.hufb)
    (hlen : (seen ++ ss).length < 2 ^ 64) :
    ∃ t, execAll (ss.map .histAdd) s = .next t ∧ IsHistogramOf (seen ++ ss) t.hufb ∧
      t = { s with hufb := { s.hufb with hist := t.hufb.hist, hstart := t.hufb.hstart } } := by
  induction ss generalizing seen s with
  | nil => exact ⟨s, rfl, by rwa [List.append_nil], rfl⟩
  | cons b bs ih =>
    rw [List.append_cons] at hlen ⊢
    have hseen : seen.length < 2 ^ 64 - 1 := by
      simp only [List.length_append, List.length_singleton] at hlen
      omega
    obtain ⟨t, hrun, hist, hframe⟩ := ih (s := { s with hufb := counted b s.hufb }) (hh.append_singleton hseen) hlen
    exact ⟨t, (execAll_cons (exec_histAdd_of_ne (hh.ne_full hseen))).trans hrun, hist, hframe⟩

theorem IsStartOf.least (hs : IsStartOf ss o) (hne : ss ≠ []) :
    ∃ m ∈ ss, o = some (symNode m) ∧ ∀ b ∈ ss, m.toNat ≤ b.toNat := by
  cases o with
  | none => exact absurd hs hne
  | some st =>
    obtain ⟨⟨m, hm, rfl⟩, hle⟩ := hs
    exact ⟨m, hm, rfl, hle⟩

theorem IsStartOf.eq_none (hs : IsStartOf [] o) : o = none := by
  cases o with
  | none => rfl
  | some st =>
    obtain ⟨⟨m, hm, -⟩, -⟩ := hs
    exact absurd hm List.not_mem_nil

/-- Settles O25: HIST_RESET leaves the histogram of the empty string, and each HIST_ADD appends its symbol. -/
theorem histogramCountsTheString : Obligations.HistogramCountsTheString := by
  unfold Obligations.HistogramCountsTheString
  intro ss s hlen
  obtain ⟨t, hrun, hh, hframe⟩ :=
    execAll_histAdds (s := { s with hufb := histReset s.hufb }) (isHistogramOf_histReset s.hufb) hlen
  rw [List.nil_append] at hh
  exact ⟨t, (execAll_cons rfl).trans hrun, hh.count, hh.internal, fun e => (e ▸ hh.start).eq_none,
    hh.start.least, hframe⟩

end Sys2Proof.Machine
end

section
/-! PROOFS. TREE_RESET (O26) and the selection of a merge (O27): `argmin` finds the least candidate in the order of R137,
and the single ascending scan keeps the two least of what it has seen. -/

namespace Sys2Proof.Machine

variable {h : Hufb} {cs xs : List Candidate} {a b c : Candidate} {i : NodeIx}

/-- Settles O26: TREE_RESET concludes with `tree_clear` and no decoder position. -/
theorem treeResetResult : Obligations.TreeResetResult :=
  fun _ => rfl

/-! ## The least candidate (R137) -/

theorem Before.total (hne : a ≠ b) : Before a b ∨ Before b a := by
  obtain ⟨i, v⟩ := a
  obtain ⟨j, w⟩ := b
  simp only [Before]
  by_cases hv : v = w
  · subst hv
    have hij : i.val ≠ j.val := fun e => hne (by rw [Fin.ext e])
    omega
  · have hvw : v.toNat ≠ w.toNat := fun e => hv (BitVec.eq_of_toNat_eq e)
    omega

theorem Before.trans (hab : Before a b) (hbc : Before b c) : Before a c := by
  unfold Before at *
  omega

theorem argmin_before : ∀ {cs : List Candidate} {a : Candidate}, argmin cs = some a →
    ∀ c ∈ cs, c ≠ a → Before a c
  | [], a, e => by simp [argmin] at e
  | x :: cs, a, e => by
    intro c hc hne
    unfold argmin at e
    split at e
    case h_1 hnone =>
      obtain rfl := Option.some.inj e
      rw [argmin_eq_none.1 hnone] at hc
      exact absurd (List.mem_singleton.1 hc) hne
    case h_2 m hm =>
      split at e
      case isTrue hlt =>
        obtain rfl := Option.some.inj e
        obtain rfl | hc := List.mem_cons.1 hc
        · exact lighter_iff.1 hlt
        · exact argmin_before hm c hc hne
      case isFalse hge =>
        obtain rfl := Option.some.inj e
        have hc := (List.mem_cons.1 hc).resolve_left hne
        rw [lighter_iff] at hge
        by_cases hcm : c = m
        · subst hcm
          exact (Before.total hne).resolve_left hge
        · by_cases hxm : x = m
          · exact hxm ▸ argmin_before hm c hc hcm
          · exact ((Before.total hxm).resolve_right hge).trans (argmin_before hm c hc hcm)

/-- The order of R137 is total on candidates, so a list has at most one least member, and `argmin` finds it. -/
theorem argmin_eq_some_iff : argmin cs = some a ↔ a ∈ cs ∧ ∀ c ∈ cs, c ≠ a → Before a c := by
  refine ⟨fun e => ⟨argmin_mem e, argmin_before e⟩, fun ⟨ha, hleast⟩ => ?_⟩
  cases e : argmin cs with
  | none => simp [argmin_eq_none.1 e] at ha
  | some m =>
    by_contra hne
    have hma : m ≠ a := fun e => hne (congrArg some e)
    exact (argmin_before e a ha hma.symm).asymm (hleast m (argmin_mem e) hma)

/-- A candidate is given by its index: the weight is the histogram's. -/
theorem candidates_ext (ha : a ∈ candidates h) (hc : c ∈ candidates h) : c.1 = a.1 ↔ c = a := by
  refine ⟨fun e => Prod.ext e ?_, fun e => e ▸ rfl⟩
  rw [(mem_candidates.1 hc).2, (mem_candidates.1 ha).2, e]

theorem mem_without_candidates (ha : a ∈ candidates h) :
    c ∈ without a (candidates h) ↔ c ∈ candidates h ∧ c ≠ a := by
  rw [mem_without]
  exact and_congr_right fun hc => not_congr (candidates_ext ha hc)

theorem argmin_without_eq_some_iff (ha : a ∈ candidates h) :
    argmin (without a (candidates h)) = some b ↔
      b ∈ candidates h ∧ b ≠ a ∧ ∀ c ∈ candidates h, c ≠ a → c ≠ b → Before b c := by
  simp only [argmin_eq_some_iff, mem_without_candidates ha, and_imp, and_assoc]

/-! ## The single scan (R137) -/

/-- The least of a list and the least of the rest. -/
def twoLeast (xs : List Candidate) : Option Candidate × Option Candidate :=
  (argmin xs, (argmin xs).bind fun a => argmin (without a xs))

/-- The choice a scan keeps when it meets `c`, which wins with a lower weight only. -/
def keepLeast (c : Candidate) : Option Candidate → Candidate
  | none => c
  | some m => if c.2.toNat < m.2.toNat then c else m

/-- Among ascending indices a tie of weights goes to the earlier one, so the last candidate is the least exactly when its
weight is. -/
theorem argmin_append_singleton (hasc : ∀ x ∈ xs, x.1 < c.1) :
    argmin (xs ++ [c]) = some (keepLeast c (argmin xs)) := by
  cases e : argmin xs with
  | none => simp [argmin_eq_none.1 e, argmin, keepLeast]
  | some m =>
    have hlt : m.1.val < c.1.val := hasc m (argmin_mem e)
    have hmem : ∀ x, x ∈ xs ++ [c] → x ∈ xs ∨ x = c := by simp
    simp only [keepLeast]
    split
    case isTrue hw =>
      have hcm : Before c m := .inl hw
      refine argmin_eq_some_iff.2 ⟨by simp, fun x hx hxc => ?_⟩
      have hx := (hmem x hx).resolve_right hxc
      by_cases hxm : x = m
      · exact hxm ▸ hcm
      · exact hcm.trans (argmin_before e x hx hxm)
    case isFalse hw =>
      have hmc : Before m c := by
        unfold Before
        omega
      refine argmin_eq_some_iff.2 ⟨by simp [argmin_mem e], fun x hx hxm => ?_⟩
      obtain hx | rfl := hmem x hx
      · exact argmin_before e x hx hxm
      · exact hmc

theorem without_append_singleton_self (hasc : ∀ x ∈ xs, x.1 < c.1) : without c (xs ++ [c]) = xs := by
  have hkeep : ∀ x ∈ xs, (x.1 != c.1) = true := fun x hx => bne_iff_ne.2 (hasc x hx).ne
  simp [without, List.filter_append, List.filter_eq_self.2 hkeep]

theorem without_append_singleton_of_ne (hne : c.1 ≠ a.1) : without a (xs ++ [c]) = without a xs ++ [c] := by
  simp [without, List.filter_append, hne]

/-- One step of the scan takes the two least of the candidates seen to the two least of one more. -/
theorem scanTwo_step (hasc : ∀ x ∈ xs, x.1 < c.1) :
    scanTwo (c :: cs) (twoLeast xs) = scanTwo cs (twoLeast (xs ++ [c])) := by
  have hlast := argmin_append_singleton hasc
  cases e : argmin xs with
  | none =>
    have hnil := argmin_eq_none.1 e
    simp [hnil, twoLeast, argmin, without, scanTwo]
  | some m =>
    have hmc : c.1 ≠ m.1 := (hasc m (argmin_mem e)).ne'
    have hrest : argmin (without m (xs ++ [c])) = some (keepLeast c (argmin (without m xs))) := by
      rw [without_append_singleton_of_ne hmc]
      exact argmin_append_singleton fun x hx => hasc x (mem_without.1 hx).1
    rw [e] at hlast
    simp only [twoLeast, e, hlast, Option.bind_some, keepLeast, scanTwo]
    split
    case isTrue => rw [without_append_singleton_self hasc, e]
    case isFalse =>
      rw [hrest]
      cases argmin (without m xs) with
      | none => rfl
      | some k =>
        simp only [keepLeast]
        split <;> rfl

theorem scanTwo_twoLeast (hasc : (xs ++ cs).Pairwise fun x y => x.1 < y.1) :
    scanTwo cs (twoLeast xs) = twoLeast (xs ++ cs) := by
  induction cs generalizing xs with
  | nil => simp [scanTwo]
  | cons c cs ih =>
    have hc : ∀ x ∈ xs, x.1 < c.1 := fun x hx => (List.pairwise_append.1 hasc).2.2 x hx c List.mem_cons_self
    rw [List.append_cons] at hasc ⊢
    rw [scanTwo_step hc, ih hasc]

theorem candidates_ascending (h : Hufb) : (candidates h).Pairwise fun x y => x.1 < y.1 := by
  unfold candidates
  split
  · exact List.Pairwise.nil
  · rw [entries_eq]
    refine List.Pairwise.filter _ (List.pairwise_map.2 ?_)
    exact List.pairwise_lt_finRange Config.nodeSlots

/-- Settles O27: `argmin` is the least in R137's order, of all candidates and of those beside the first; the scan ends
with the two least of all it has seen. -/
theorem selectionIsTheTwoLeast : Obligations.SelectionIsTheTwoLeast := by
  unfold Obligations.SelectionIsTheTwoLeast
  intro h
  refine ⟨fun i w => ?_, fun a => argmin_eq_some_iff, fun a b ha => argmin_without_eq_some_iff (argmin_mem ha),
    scanTwo_twoLeast (xs := []) (candidates_ascending h)⟩
  have hmem : (i, w) ∈ candidates h ↔ IsCandidate h i ∧ w = peek h.hist i := mem_candidates
  rw [hmem]
  constructor
  · rintro ⟨⟨hst, hlt, hne⟩, rfl⟩
    exact ⟨hst, hlt, rfl, hne⟩
  · rintro ⟨hst, hlt, rfl, hne⟩
    exact ⟨⟨hst, hlt, hne⟩, rfl⟩

end Sys2Proof.Machine
end

section
/-! PROOFS. The passes of TREE_BUILD with the pairs they select: a build runs through the merges of R136 and ends on one
candidate or none, or with the fault of the first sum that does not fit (O30); it reads HSTART, and HIST below NEXT_ID
only (O32); and every merge of a build that completes leaves its links in NODE (O29). -/

namespace Sys2Proof.Machine

variable {h h' g g' : Hufb} {s t : State} {T : NodeIx → Tree} {a b c d i r : NodeIx} {k j fuel : Nat}

/-! ## The selected pair (R137) -/

theorem mem_candidates_self : (i, peek h.hist i) ∈ candidates h ↔ IsCandidate h i :=
  mem_candidates.trans (and_iff_left rfl)

theorem argmin_candidates_eq_none_iff : argmin (candidates h) = none ↔ ∀ i, ¬ IsCandidate h i := by
  refine ⟨not_isCandidate_of_argmin_eq_none, fun hnone => argmin_eq_none.2 (List.eq_nil_iff_forall_not_mem.2 ?_)⟩
  exact fun c hc => hnone c.1 (mem_candidates.1 hc).1

theorem argmin_without_eq_none_iff {a : Candidate} :
    argmin (without a (candidates h)) = none ↔ ∀ i, IsCandidate h i → i = a.1 := by
  refine ⟨fun hn i => eq_of_argmin_without_eq_none hn, fun honly =>
    argmin_eq_none.2 (List.eq_nil_iff_forall_not_mem.2 fun c hc => ?_)⟩
  obtain ⟨hc, hne⟩ := mem_without.1 hc
  exact hne (honly c.1 (mem_candidates.1 hc).1)

/-- A candidate's weight is the histogram's. -/
theorem eq_of_mem_candidates {c : Candidate} (hc : c ∈ candidates h) : c = (c.1, peek h.hist c.1) :=
  Prod.ext rfl (mem_candidates.1 hc).2

/-- `Selects` is what the loop computes: the least candidate, and the least of the others. -/
theorem selects_iff :
    Selects h a b ↔ argmin (candidates h) = some (a, peek h.hist a) ∧
      argmin (without (a, peek h.hist a) (candidates h)) = some (b, peek h.hist b) := by
  constructor
  · intro hs
    have ha := mem_candidates_self.2 hs.left
    have hb := mem_candidates_self.2 hs.right
    have hindex : ∀ {x y}, x ∈ candidates h → IsCandidate h y → x ≠ (y, peek h.hist y) → x.1 ≠ y :=
      fun hx hy => mt (candidates_ext (mem_candidates_self.2 hy) hx).1
    refine ⟨argmin_eq_some_iff.2 ⟨ha, fun c hc hca => ?_⟩, (argmin_without_eq_some_iff ha).2
      ⟨hb, fun e => hs.distinct (congrArg Prod.fst e).symm, fun c hc hca hcb => ?_⟩⟩
    · rw [eq_of_mem_candidates hc]
      exact hs.first c.1 (mem_candidates.1 hc).1 (hindex hc hs.left hca)
    · rw [eq_of_mem_candidates hc]
      exact hs.second c.1 (mem_candidates.1 hc).1 (hindex hc hs.left hca) (hindex hc hs.right hcb)
  · rintro ⟨ha, hb⟩
    obtain ⟨hac, hafirst⟩ := argmin_eq_some_iff.1 ha
    obtain ⟨hbc, hne, hbsecond⟩ := (argmin_without_eq_some_iff hac).1 hb
    have hpair : ∀ {x y : NodeIx}, x ≠ y → (x, peek h.hist x) ≠ (y, peek h.hist y) :=
      fun hxy e => hxy (congrArg Prod.fst e)
    exact ⟨mem_candidates_self.1 hac, mem_candidates_self.1 hbc, fun e => hne (e ▸ rfl),
      fun i hi hia => hafirst _ (mem_candidates_self.2 hi) (hpair hia),
      fun i hi hia hib => hbsecond _ (mem_candidates_self.2 hi) (hpair hia) (hpair hib)⟩

/-- A block selects one pair only. -/
theorem Selects.unique (hs : Selects h a b) (hs' : Selects h c d) : a = c ∧ b = d := by
  obtain ⟨ha, hb⟩ := selects_iff.1 hs
  obtain ⟨hc, hd⟩ := selects_iff.1 hs'
  obtain rfl : a = c := congrArg Prod.fst (Option.some.inj (ha.symm.trans hc))
  exact ⟨rfl, congrArg Prod.fst (Option.some.inj (hb.symm.trans hd))⟩

/-- The selection depends on HSTART, NEXT_ID and the weights below NEXT_ID. -/
structure SameWeights (h h' : Hufb) : Prop where
  hstart : h'.hstart = h.hstart
  nextId : h'.nextId = h.nextId
  hist : ∀ i : NodeIx, i.val < h.nextId.toNat → peek h'.hist i = peek h.hist i

theorem SameWeights.symm (hw : SameWeights h h') : SameWeights h' h where
  hstart := hw.hstart.symm
  nextId := hw.nextId.symm
  hist i hi := (hw.hist i (hw.nextId ▸ hi)).symm

theorem SameWeights.isCandidate (hw : SameWeights h h') (hi : IsCandidate h i) : IsCandidate h' i := by
  obtain ⟨hst, hlt, hne⟩ := hi
  exact ⟨hw.hstart ▸ hst, hw.nextId ▸ hlt, (hw.hist i hlt).symm ▸ hne⟩

theorem SameWeights.isCandidate_iff (hw : SameWeights h h') : IsCandidate h' i ↔ IsCandidate h i :=
  ⟨hw.symm.isCandidate, hw.isCandidate⟩

theorem SameWeights.selects (hw : SameWeights h h') (hs : Selects h a b) : Selects h' a b := by
  have hweight : ∀ {i}, IsCandidate h i → peek h'.hist i = peek h.hist i := fun hi => hw.hist _ hi.2.1
  refine ⟨hw.isCandidate hs.left, hw.isCandidate hs.right, hs.distinct, fun i hi => ?_, fun i hi => ?_⟩
  all_goals rw [hw.isCandidate_iff] at hi
  · rw [hweight hs.left, hweight hi]
    exact hs.first i hi
  · rw [hweight hs.right, hweight hi]
    exact hs.second i hi

/-! ## The passes (R136) -/

/-- The merge of the candidates at `a` and `b`. -/
def mergeAt (a b : NodeIx) (h : Hufb) : Hufb := merge (a, peek h.hist a) (b, peek h.hist b) h

/-- The weights of `a` and `b` have a sum that fits in 64 bits. -/
def SumFits (h : Hufb) (a b : NodeIx) : Prop := (peek h.hist a).toNat + (peek h.hist b).toNat < 2 ^ 64

/-- `Passes h k g`: the builder's `k` first merges from `h` lead to the block `g`. (`Merges` follows HIST and NEXT_ID
alone.) -/
inductive Passes (h : Hufb) : Nat → Hufb → Prop where
  | start : Passes h 0 h
  | merge {k : Nat} {g : Hufb} {a b : NodeIx} : Passes h k g → Selects g a b → SumFits g a b →
      Passes h (k + 1) (mergeAt a b g)

theorem Selects.mergesPair (hs : Selects g a b) (hfits : SumFits g a b) (hroom : MergeRoom g) :
    MergesPair g (a, peek g.hist a) (b, peek g.hist b) :=
  mergesPair_of_argmin hroom (selects_iff.1 hs).1 (selects_iff.1 hs).2 hfits

theorem Passes.mergeRoom (hp : Passes (cleared h) k g) : MergeRoom g := by
  induction hp with
  | start => exact mergeRoom_cleared h
  | merge _ hs hfits ih =>
    obtain ⟨ha, hb⟩ := selects_iff.1 hs
    exact mergeRoom_merge ih ha hb (hs.mergesPair hfits ih).high

/-- Induction over the merges of a build. -/
theorem Passes.induct {P : Nat → Hufb → Prop} (hstart : P 0 (cleared h))
    (hmerge : ∀ {k g a b}, MergesPair g (a, peek g.hist a) (b, peek g.hist b) → P k g → P (k + 1) (mergeAt a b g))
    (hp : Passes (cleared h) k g) : P k g := by
  induction hp with
  | start => exact hstart
  | merge hp hs hfits ih => exact hmerge (hs.mergesPair hfits hp.mergeRoom) ih

theorem Passes.nextId (hp : Passes (cleared h) k g) : g.nextId.toNat = 256 + k :=
  hp.induct (P := fun k g => g.nextId.toNat = 256 + k) rfl fun hpair ih => by
    rw [mergeAt, merge_nextId hpair.high, ih, Nat.add_assoc]

theorem Passes.forest (hp : Passes (cleared h) k g) : ∃ T, Forest g T :=
  hp.induct (P := fun _ g => ∃ T, Forest g T) ⟨_, forest_cleared h⟩ fun hpair ⟨_, hf⟩ => ⟨_, forest_merge hpair hf⟩

theorem Passes.unique (hp : Passes h k g) (hp' : Passes h k g') : g = g' := by
  induction hp generalizing g' with
  | start => cases hp'; rfl
  | merge _ hs _ ih =>
    cases hp' with
    | merge hp' hs' _ =>
      obtain rfl := ih hp'
      obtain ⟨rfl, rfl⟩ := hs.unique hs'
      rfl

/-- A build makes at most 256 merges: each takes an index of the 512. -/
theorem Passes.le (hp : Passes (cleared h) k g) : k ≤ 256 := by
  have h1 := hp.mergeRoom.high
  have h2 := hp.nextId
  omega

/-! ## One pass of the loop (R136) -/

theorem buildLoop_of_selects (hs : Selects g a b) (hfits : SumFits g a b) :
    buildLoop (fuel + 1) g = buildLoop fuel (mergeAt a b g) := by
  obtain ⟨ha, hb⟩ := selects_iff.1 hs
  simp only [buildLoop, ha, hb]
  exact if_neg (Nat.not_le.2 hfits)

theorem buildLoop_of_overflow (hs : Selects g a b) (hover : ¬ SumFits g a b) :
    buildLoop (fuel + 1) g = .raise ⟨.weightOverflow, 2, BitVec.ofNat 16 (nextNode g).val⟩ := by
  obtain ⟨ha, hb⟩ := selects_iff.1 hs
  simp only [buildLoop, ha, hb]
  exact if_pos (Nat.not_lt.1 hover)

theorem buildLoop_of_ends (he : BuildEnds g h') : buildLoop (fuel + 1) g = .done h' := by
  obtain ⟨hnone, rfl⟩ | ⟨r, hr, honly, rfl⟩ := he
  · simp only [buildLoop, argmin_candidates_eq_none_iff.2 hnone]
  · have hleast : argmin (candidates g) = some (r, peek g.hist r) :=
      argmin_eq_some_iff.2 ⟨mem_candidates_self.2 hr, fun c hc hne =>
        absurd ((candidates_ext (mem_candidates_self.2 hr) hc).1 (honly c.1 (mem_candidates.1 hc).1)) hne⟩
    have hrest : argmin (without (r, peek g.hist r) (candidates g)) = none := argmin_without_eq_none_iff.2 honly
    simp only [buildLoop, hleast, hrest]

/-- A pass selects a pair or is the last one. -/
theorem selects_or_ends (g : Hufb) : (∃ a b, Selects g a b) ∨ ∃ h', BuildEnds g h' := by
  cases ha : argmin (candidates g) with
  | none => exact .inr ⟨_, .inl ⟨argmin_candidates_eq_none_iff.1 ha, rfl⟩⟩
  | some a =>
    have hac := argmin_mem ha
    cases hb : argmin (without a (candidates g)) with
    | none => exact .inr ⟨_, .inr ⟨a.1, (mem_candidates.1 hac).1, argmin_without_eq_none_iff.1 hb, rfl⟩⟩
    | some b =>
      rw [eq_of_mem_candidates hac] at ha hb
      rw [eq_of_mem_candidates (mem_without.1 (argmin_mem hb)).1] at hb
      exact .inl ⟨a.1, b.1, selects_iff.2 ⟨ha, hb⟩⟩

/-! ## The whole build -/

theorem Passes.buildLoop_eq (hp : Passes h k g) : buildLoop (fuel + k) h = buildLoop fuel g := by
  induction hp generalizing fuel with
  | start => rfl
  | @merge k g a b _ hs hfits ih =>
    calc buildLoop (fuel + (k + 1)) h
      _ = buildLoop (fuel + 1 + k) h := by rw [Nat.add_assoc, Nat.add_comm 1]
      _ = buildLoop (fuel + 1) g := ih
      _ = buildLoop fuel (mergeAt a b g) := buildLoop_of_selects hs hfits

/-- TREE_BUILD runs through the merges, with a pass left for what follows them. -/
theorem Passes.treeBuild_eq (hp : Passes (cleared h) k g) : ∃ fuel, treeBuild h = buildLoop (fuel + 1) g := by
  have hrun : treeBuild h = buildLoop (256 - k) g := by
    rw [← hp.buildLoop_eq, Nat.sub_add_cancel hp.le]
    rfl
  cases hfuel : 256 - k with
  | zero =>
    rw [hfuel] at hrun
    exact absurd hrun (treeBuild_not_stuck h _)
  | succ fuel => exact ⟨fuel, hfuel ▸ hrun⟩

theorem Passes.treeBuild_done (hp : Passes (cleared h) k g) (he : BuildEnds g h') : treeBuild h = .done h' := by
  obtain ⟨fuel, hrun⟩ := hp.treeBuild_eq
  rw [hrun, buildLoop_of_ends he]

theorem Passes.treeBuild_overflow (hp : Passes (cleared h) k g) (hs : Selects g a b) (hover : ¬ SumFits g a b) :
    treeBuild h = .raise ⟨.weightOverflow, 2, BitVec.ofNat 16 (256 + k)⟩ := by
  obtain ⟨fuel, hrun⟩ := hp.treeBuild_eq
  have hlt : g.nextId.toNat < 512 := by
    have hcard := Finset.card_pos.2 ⟨a, mem_candidateSet.2 hs.left⟩
    have hroom := hp.mergeRoom.high
    omega
  rw [hrun, buildLoop_of_overflow hs hover, nextNode_val hlt, hp.nextId]

/-- From the merges made so far a build goes on to its end or to the first sum that does not fit: the candidates
dwindle. -/
theorem Passes.exists_last (hp : Passes (cleared h) k g) :
    ∃ k g, Passes (cleared h) k g ∧ ((∃ h', BuildEnds g h') ∨ ∃ a b, Selects g a b ∧ ¬ SumFits g a b) := by
  induction hn : (candidateSet g).card using Nat.strong_induction_on generalizing k g with
  | _ n ih =>
    obtain ⟨a, b, hs⟩ | he := selects_or_ends g
    · by_cases hfits : SumFits g a b
      · have hcard : (candidateSet (mergeAt a b g)).card + 1 ≤ (candidateSet g).card :=
          card_merge (hs.mergesPair hfits hp.mergeRoom).high (selects_iff.1 hs).1 (selects_iff.1 hs).2
        exact ih _ (by omega) (hp.merge hs hfits) rfl
      · exact ⟨k, g, hp, .inr ⟨a, b, hs, hfits⟩⟩
    · exact ⟨k, g, hp, .inl he⟩

/-- All a build can do when no selected sum overflows: it completes where the merges end. -/
theorem exists_passes_ends (hfits : ∀ {k g a b}, Passes (cleared h) k g → Selects g a b → SumFits g a b) :
    ∃ k g h', Passes (cleared h) k g ∧ BuildEnds g h' ∧ treeBuild h = .done h' := by
  obtain ⟨k, g, hp, ⟨h', he⟩ | ⟨a, b, hs, hover⟩⟩ := (Passes.start (h := cleared h)).exists_last
  · exact ⟨k, g, h', hp, he, hp.treeBuild_done he⟩
  · exact absurd (hfits hp hs) hover

/-- A build that completes has made merges whose sums fit, and ends where they led. -/
theorem passes_of_treeBuild_done (e : treeBuild h = .done h') :
    ∃ k g, Passes (cleared h) k g ∧ BuildEnds g h' := by
  obtain ⟨k, g, h'', hp, he, e'⟩ := exists_passes_ends (h := h) fun hp hs => by
    by_contra hover
    cases e.symm.trans (hp.treeBuild_overflow hs hover)
  cases e.symm.trans e'
  exact ⟨k, g, hp, he⟩

theorem exec_treeBuild_done (e : treeBuild s.hufb = .done h') :
    exec .treeBuild s = .next { s with hufb := h' } :=
  congrArg (Effect.conclude s) e

/-- The merges of `Merges` are those of the builder, which fills NODE beside them. -/
theorem Merges.passes (hm : Merges { h with nextId := 256 } k h') :
    ∃ g, Passes (cleared h) k g ∧ g.hist = h'.hist ∧ g.hstart = h'.hstart ∧ g.nextId = h'.nextId := by
  induction hm with
  | start => exact ⟨_, .start, rfl, rfl, rfl⟩
  | @merge k h' n a b hm hs hfits hn ih =>
    obtain ⟨g, hp, hhist, hstart, hnext⟩ := ih
    have hw : SameWeights h' g := ⟨hstart, hnext, fun _ _ => by rw [hhist]⟩
    have hfits' : SumFits g a b := by rwa [SumFits, hhist]
    have hnew : nextNode g = n := by
      refine Fin.ext ((nextNode_val ?_).trans ?_)
      · exact ((hw.selects hs).mergesPair hfits' hp.mergeRoom).high
      · rw [hn, hnext]
    refine ⟨_, hp.merge (hw.selects hs) hfits', ?_, hstart, congrArg (· + 1) hnext⟩
    show mergedHist g.hist (nextNode g) a b = _
    rw [hhist, hnew]

/-- Settles O30: the builder reaches the pair of the first overflow after the merges before it, with NEXT_ID at the index
it would create. -/
theorem treeBuildOverflow : Obligations.TreeBuildOverflow := by
  unfold Obligations.TreeBuildOverflow
  intro s k h a b hm hs hover
  obtain ⟨g, hp, hhist, hstart, hnext⟩ := hm.passes
  have hs' : Selects g a b := SameWeights.selects ⟨hstart, hnext, fun _ _ => by rw [hhist]⟩ hs
  exact congrArg (Effect.conclude s) (hp.treeBuild_overflow hs' (by rw [SumFits, hhist]; exact Nat.not_lt.2 hover))

/-! ## Determinism (R140) -/

/-- Two builders in the same pass: they select from the same weights, and their nodes are the same. -/
structure SameBuild (h h' : Hufb) : Prop extends SameWeights h h' where
  node : h'.node = h.node

theorem SameBuild.mergeAt (hb : SameBuild g g') (hp : MergesPair g (a, peek g.hist a) (b, peek g.hist b)) :
    SameBuild (mergeAt a b g) (mergeAt a b g') := by
  have hnew : nextNode g' = nextNode g := by rw [nextNode, nextNode, hb.nextId]
  have ha : peek g'.hist a = peek g.hist a := hb.hist a hp.left.2.1
  have hb' : peek g'.hist b = peek g.hist b := hb.hist b hp.right.2.1
  refine ⟨⟨hb.hstart, congrArg (· + 1) hb.nextId, fun i hi => ?_⟩, ?_⟩
  · rw [Machine.mergeAt, merge_nextId hp.high] at hi
    rw [Machine.mergeAt, Machine.mergeAt, merge_hist, merge_hist, hnew, ha, hb']
    by_cases hin : i = nextNode g
    · simp [hin]
    · have hlt : i.val < g.nextId.toNat := by
        have hne : i.val ≠ g.nextId.toNat := fun e => hin (Fin.ext (e.trans (nextNode_val hp.high).symm))
        omega
      rw [hb.hist i hlt]
  · simp only [Machine.mergeAt, Machine.merge, hnew, hb.node]

/-- Blocks with the same symbol weights and HSTART run through the same passes. -/
theorem Passes.sameBuild (hb : SameBuild (cleared h) (cleared h')) (hp : Passes (cleared h) k g) :
    ∃ g', Passes (cleared h') k g' ∧ SameBuild g g' := by
  induction hp with
  | start => exact ⟨_, .start, hb⟩
  | @merge k g a b hp hs hfits ih =>
    obtain ⟨g', hp', hsame⟩ := ih
    have hfits' : SumFits g' a b := by
      rwa [SumFits, hsame.hist a hs.left.2.1, hsame.hist b hs.right.2.1]
    exact ⟨_, hp'.merge (hsame.selects hs) hfits', hsame.mergeAt (hs.mergesPair hfits hp.mergeRoom)⟩

theorem SameBuild.ends (hb : SameBuild g g') (he : BuildEnds g h) :
    ∃ h', BuildEnds g' h' ∧ h'.node = h.node ∧ h'.root = h.root ∧ h'.nextId = h.nextId := by
  obtain ⟨hnone, rfl⟩ | ⟨r, hr, honly, rfl⟩ := he
  · exact ⟨_, .inl ⟨fun i hi => hnone i (hb.isCandidate_iff.1 hi), rfl⟩, hb.node, rfl, hb.nextId⟩
  · refine ⟨_, .inr ⟨r, hb.isCandidate hr, fun i hi => honly i (hb.isCandidate_iff.1 hi), rfl⟩, ?_, rfl, hb.nextId⟩
    simp only [soleRoot, finishBuild, hb.node]

/-- A next state without a fault is that of a build that completed. -/
theorem treeBuild_done_of_exec (e : exec .treeBuild s = .next t) (hf : t.hufb.fault = false) :
    treeBuild s.hufb = .done t.hufb := by
  obtain ⟨h, hdone, rfl⟩ | ⟨r, -, rfl⟩ := exec_next e
  · exact hdone
  · simp at hf

/-- Settles O32: the two builds run through the same passes in lockstep. -/
theorem treeBuildIsDetermined : Obligations.TreeBuildIsDetermined := by
  unfold Obligations.TreeBuildIsDetermined
  intro s s' t hstart hhist _ hf' e hft
  have hb : SameBuild (cleared s.hufb) (cleared s'.hufb) :=
    ⟨⟨hstart.symm, rfl, fun i hi => (hhist i hi).symm⟩, rfl⟩
  obtain ⟨k, g, hp, he⟩ := passes_of_treeBuild_done (treeBuild_done_of_exec e hft)
  obtain ⟨g', hp', hsame⟩ := hp.sameBuild hb
  obtain ⟨h', he', hnode, hroot, hnext⟩ := hsame.ends he
  have hdone := hp'.treeBuild_done he'
  refine ⟨_, exec_treeBuild_done hdone, ?_, hnode, hroot, hnext⟩
  rw [treeBuild_done hdone]
  exact hf'

/-! ## The links of the merges (R136) -/

/-- Under a candidate that is a symbol stands its own leaf, as soon as it is recorded. -/
theorem Forest.recordLeaf_symbol (hf : Forest g T) (hc : IsCandidate g c) (hlt : c.val < 256) :
    peek (recordLeaf c g.node) c = Node.leaf none := by
  have hroot := hf.root hc
  have hleaf : T c = .leaf c := by
    have := Tree.eq_leaf_of_root_lt (hf.valid hc).1 (by rwa [hroot])
    rwa [hroot] at this
  have hheld := hf.held hc
  rwa [hleaf] at hheld

/-- The pair `a`, `b` was merged into `n`: the links of R136 stand, and the two are no candidates any more. -/
structure Settled (h : Hufb) (n a b : NodeIx) : Prop where
  links : Linked h.node n a b
  internal : 256 ≤ n.val
  below : n.val < h.nextId.toNat ∧ a.val < h.nextId.toNat ∧ b.val < h.nextId.toNat
  left : ¬ IsCandidate h a
  right : ¬ IsCandidate h b

theorem not_isCandidate_merge (a b : Candidate) (h : Hufb) :
    ¬ IsCandidate (merge a b h) a.1 ∧ ¬ IsCandidate (merge a b h) b.1 := by
  constructor <;> rintro ⟨-, -, hne⟩ <;> rw [merge_hist] at hne <;> simp at hne

theorem Forest.linked_merge {a b : Candidate} (hf : Forest g T) (hp : MergesPair g a b) :
    Linked (merge a b g).node (nextNode g) a.1 b.1 := by
  have hnode := merge_node_new hp.new_ne.1 hp.new_ne.2
  have hl := merge_node_left hp.new_ne.1.symm hp.ne.symm
  have hr := merge_node_right hp.new_ne.2.symm hp.ne
  rw [← peek_recordLeaf_self] at hl hr
  exact {
    valid := by rw [hnode]; rfl
    left := by rw [hnode]; rfl
    right := by rw [hnode]; rfl
    leftParent := by rw [hl]
    rightParent := by rw [hr]
    leftLeaf := fun hlt => by rw [hl, hf.recordLeaf_symbol hp.left hlt]; rfl
    rightLeaf := fun hlt => by rw [hr, hf.recordLeaf_symbol hp.right hlt]; rfl }

theorem Forest.settled_merge {a b : Candidate} (hf : Forest g T) (hp : MergesPair g a b) :
    Settled (merge a b g) (nextNode g) a.1 b.1 := by
  have hnew := nextNode_val hp.high
  have hlow := hp.low
  have ha := hp.left.2.1
  have hb := hp.right.2.1
  refine ⟨hf.linked_merge hp, by omega, ?_, (not_isCandidate_merge a b g).1, (not_isCandidate_merge a b g).2⟩
  rw [merge_nextId hp.high]
  omega

/-- Links stand where the two children keep their slots and the node above them all but its parent. -/
theorem Linked.congr {nodes nodes' : Vector Node Config.nodeSlots} {n : NodeIx} (hl : Linked nodes n a b)
    (hn : ∃ p, peek nodes' n = { peek nodes n with parent := p }) (ha : peek nodes' a = peek nodes a)
    (hb : peek nodes' b = peek nodes b) : Linked nodes' n a b := by
  obtain ⟨p, hn⟩ := hn
  exact ⟨by rw [hn]; exact hl.valid, by rw [hn]; exact hl.left, by rw [hn]; exact hl.right, ha ▸ hl.leftParent,
    hb ▸ hl.rightParent, ha ▸ hl.leftLeaf, hb ▸ hl.rightLeaf⟩

/-- A merge gives a node from 256 on a parent at most. -/
theorem merge_node_internal {a b : Candidate} (hp : MergesPair g a b) {n : NodeIx} (hn : 256 ≤ n.val)
    (hlt : n.val < g.nextId.toNat) : ∃ p, peek (merge a b g).node n = { peek g.node n with parent := p } := by
  have hrec : ¬ (n.val < 256 ∧ (peek g.node n).valid = false) := fun ⟨h, _⟩ => Nat.not_lt.2 hn h
  by_cases ha : n = a.1
  · subst ha
    exact ⟨_, (merge_node_left hp.new_ne.1.symm hp.ne.symm).trans (by rw [if_neg hrec])⟩
  by_cases hb : n = b.1
  · subst hb
    exact ⟨_, (merge_node_right hp.new_ne.2.symm hp.ne).trans (by rw [if_neg hrec])⟩
  · refine ⟨_, merge_node_of_ne ha hb ?_⟩
    rintro rfl
    exact absurd (nextNode_val hp.high) hlt.ne

/-- A later merge selects candidates, so it leaves the links of the earlier ones. -/
theorem Settled.merge {c d : Candidate} {n : NodeIx} (hs : Settled g n a b) (hp : MergesPair g c d) :
    Settled (merge c d g) n a b := by
  obtain ⟨hn, ha, hb⟩ := hs.below
  have hnew := nextNode_val hp.high
  have hfresh : ∀ {i : NodeIx}, i.val < g.nextId.toNat → i ≠ nextNode g := by
    rintro i hi rfl
    omega
  have hkeep : ∀ {i : NodeIx}, ¬ IsCandidate g i → i.val < g.nextId.toNat →
      peek (Machine.merge c d g).node i = peek g.node i ∧ ¬ IsCandidate (Machine.merge c d g) i := by
    intro i hi hlt
    refine ⟨merge_node_of_ne (fun e => hi (e ▸ hp.left)) (fun e => hi (e ▸ hp.right)) (hfresh hlt), fun hc => ?_⟩
    obtain e | ⟨hc, -, -⟩ := isCandidate_merge hp.high hc
    · exact hfresh hlt e
    · exact hi hc
  refine ⟨hs.links.congr (merge_node_internal hp hs.internal hn) (hkeep hs.left ha).1 (hkeep hs.right hb).1,
    hs.internal, ?_, (hkeep hs.left ha).2, (hkeep hs.right hb).2⟩
  rw [merge_nextId hp.high]
  omega

/-- Where the merges stand after `k` of them, every one of these is settled. -/
theorem Passes.settled {n : NodeIx} (hj : Passes (cleared h) j g) (hs : Selects g a b) (hn : n.val = 256 + j)
    (hk : Passes (cleared h) k g') (hlt : j < k) : Settled g' n a b := by
  induction hk with
  | start => exact absurd hlt (Nat.not_lt_zero j)
  | @merge k g' c d hk hs' hfits ih =>
    have hpair := hs'.mergesPair hfits hk.mergeRoom
    obtain hlt | rfl := Nat.lt_succ_iff_lt_or_eq.1 hlt
    · exact (ih hlt).merge hpair
    · obtain rfl := hj.unique hk
      obtain ⟨rfl, rfl⟩ := hs.unique hs'
      obtain rfl : nextNode g = n := Fin.ext (by rw [nextNode_val hpair.high, hj.nextId, hn])
      obtain ⟨T, hf⟩ := hj.forest
      exact hf.settled_merge hpair

/-- No build makes more merges than one that selects nothing any more. -/
theorem Passes.le_of_last (hj : Passes h j g) (hk : Passes h k g') (hlast : ∀ a b, ¬ Selects g' a b) : j ≤ k := by
  induction hj with
  | start => exact Nat.zero_le k
  | merge hj hs _ ih =>
    refine lt_of_le_of_ne ih ?_
    rintro rfl
    exact hlast _ _ (hj.unique hk ▸ hs)

theorem Passes.lt_of_last (hj : Passes h j g) (hs : Selects g a b) (hk : Passes h k g')
    (hlast : ∀ a b, ¬ Selects g' a b) : j < k := by
  refine lt_of_le_of_ne (hj.le_of_last hk hlast) ?_
  rintro rfl
  exact hlast _ _ (hj.unique hk ▸ hs)

/-! ## The end of a build (R136) -/

/-- The end records the root's leaf and touches no other slot. -/
theorem soleRoot_node_of_ne (hi : i ≠ r) : peek (soleRoot r g).node i = peek g.node i := by
  simp only [soleRoot, finishBuild]
  split
  · exact peek_poke_of_ne _ _ hi
  · rfl

theorem soleRoot_node_of_le (hi : 256 ≤ i.val) : peek (soleRoot r g).node i = peek g.node i := by
  by_cases hir : i = r
  · subst hir
    simp only [soleRoot, finishBuild, Config.firstInternal, if_neg (Nat.not_lt.2 hi)]
  · exact soleRoot_node_of_ne hir

theorem soleRoot_node_symbol (hlt : r.val < 256) : peek (soleRoot r g).node r = Node.leaf none := by
  simp [soleRoot, finishBuild, Config.firstInternal, hlt]

/-- The root is a node without a parent. -/
theorem Forest.soleRoot_top (hf : Forest g T) (hr : IsCandidate g r) :
    (peek (soleRoot r g).node r).valid = true ∧ (peek (soleRoot r g).node r).parent = none := by
  have htop := held_root (hf.soleRoot_held hr).1
  rwa [hf.root hr] at htop

theorem Forest.soleRoot_hasTree (hf : Forest g T) (hr : IsCandidate g r) (honly : ∀ i, IsCandidate g i → i = r) :
    HasTree (soleRoot r g) (T r) where
  root := congrArg some (hf.root hr).symm
  valid := hf.valid hr
  held := (hf.soleRoot_held hr).1
  others i hi := ((hf.soleRoot_held hr).2 i hi).trans (hf.others fun c hc => by rwa [honly c hc])

/-- The end of a build leaves HIST and NEXT_ID to the merges. -/
theorem BuildEnds.hist_nextId (he : BuildEnds g h') : h'.hist = g.hist ∧ h'.nextId = g.nextId := by
  obtain ⟨-, rfl⟩ | ⟨r, -, -, rfl⟩ := he <;> exact ⟨rfl, rfl⟩

theorem BuildEnds.root_eq_none (he : BuildEnds g h') (hnone : ∀ i, ¬ IsCandidate g i) : h'.root = none := by
  obtain ⟨-, rfl⟩ | ⟨r, hr, -, -⟩ := he
  · rfl
  · exact absurd hr (hnone r)

theorem BuildEnds.eq_soleRoot (he : BuildEnds g h') (hr : IsCandidate g r) : h' = soleRoot r g := by
  obtain ⟨hnone, -⟩ | ⟨r', -, honly, rfl⟩ := he
  · exact absurd hr (hnone r)
  · rw [honly r hr]

theorem BuildEnds.root_eq_some (he : BuildEnds g h') (hr : IsCandidate g r) : h'.root = some r := by
  rw [he.eq_soleRoot hr]
  rfl

/-- The end records a symbol that is a candidate only, so the links of every merge stand. -/
theorem Settled.linked_of_ends {n : NodeIx} (hs : Settled g n a b) (he : BuildEnds g h') : Linked h'.node n a b := by
  obtain ⟨-, rfl⟩ | ⟨r, hr, -, rfl⟩ := he
  · exact hs.links
  · exact hs.links.congr ⟨_, soleRoot_node_of_le hs.internal⟩
      (soleRoot_node_of_ne fun e => hs.left (e ▸ hr)) (soleRoot_node_of_ne fun e => hs.right (e ▸ hr))

/-! ## The first candidates (R48, R136) -/

theorem mem_activeSymbols : i ∈ activeSymbols h ↔ i.val < 256 ∧ peek h.hist i ≠ 0 := by
  have hzero : (peek h.hist i).toNat = 0 ↔ peek h.hist i = 0 := BitVec.toNat_inj (y := 0)
  simp [activeSymbols, Config.symCount, hzero]

/-- With the histogram invariant no active symbol stands below HSTART, so the first candidates are the active symbols. -/
theorem isCandidate_cleared_iff (hk : HistOk h) : IsCandidate (cleared h) i ↔ i ∈ activeSymbols h := by
  rw [mem_activeSymbols]
  refine ⟨fun ⟨_, hlt, hne⟩ => ⟨hlt, hne⟩, fun ⟨hlt, hne⟩ => ⟨?_, hlt, hne⟩⟩
  unfold HistOk at hk
  cases hst : h.hstart with
  | none =>
    rw [hst] at hk
    exact absurd (hk i hlt) hne
  | some st =>
    rw [hst] at hk
    exact ⟨st, hst, Nat.not_lt.1 fun hi => hne (hk i hi)⟩

/-- A build from two symbols: one merge, and the new node is the root. -/
theorem treeBuild_pair (hs : Selects (cleared h) a b) (hfits : SumFits (cleared h) a b)
    (honly : ∀ i, IsCandidate (cleared h) i → i = a ∨ i = b) :
    ∃ h', treeBuild h = .done h' ∧ HasTree h' (.node 256 (.leaf a) (.leaf b)) := by
  have hp : Passes (cleared h) 1 (mergeAt a b (cleared h)) := .merge .start hs hfits
  have hpair := hs.mergesPair hfits (mergeRoom_cleared h)
  have hroot := isCandidate_merge_new hpair
  have hsole : ∀ i, IsCandidate (mergeAt a b (cleared h)) i → i = nextNode (cleared h) := by
    intro i hi
    obtain e | ⟨hi, hia, hib⟩ := isCandidate_merge hpair.high hi
    · exact e
    · exact absurd (honly i hi) (not_or.2 ⟨hia, hib⟩)
  have ht := (forest_merge hpair (forest_cleared h)).soleRoot_hasTree hroot hsole
  rw [joinTrees_new] at ht
  exact ⟨_, hp.treeBuild_done (.inr ⟨_, hroot, hsole, rfl⟩), ht⟩

/-- Settles O29: every merge of the build is settled where the merging ends, and the end leaves its links; two active
symbols are the pair of the only merge. -/
theorem mergesLinkTheSelectedPair : Obligations.MergesLinkTheSelectedPair := by
  unfold Obligations.MergesLinkTheSelectedPair
  refine ⟨?merges, ?pair⟩
  case merges =>
    intro s k h _ hm hnone
    obtain ⟨g, hp, hhist, hstart, hnext⟩ := Merges.passes (h := s.hufb) hm
    have hw : SameWeights g h := ⟨hstart.symm, hnext.symm, fun _ _ => by rw [hhist]⟩
    have hlast : ∀ a b, ¬ Selects g a b := fun a b hs => hnone a b (hw.selects hs)
    obtain ⟨a, b, hs⟩ | ⟨h', he⟩ := selects_or_ends g
    · exact absurd hs (hlast a b)
    obtain ⟨T, hf⟩ := hp.forest
    obtain ⟨hhist', hnext'⟩ := he.hist_nextId
    have hdone := hp.treeBuild_done he
    refine ⟨_, exec_treeBuild_done hdone, fun j f a b n hmj hs hn => ?links, by rw [hnext', hp.nextId],
      hhist'.trans hhist, fun hc => he.root_eq_none fun i hi => hc i (hw.isCandidate hi), fun r hr => ?root,
      congrArg (fun b => { s with hufb := b }) (treeBuild_done hdone)⟩
    case links =>
      obtain ⟨gj, hpj, hhistj, hstartj, hnextj⟩ := Merges.passes (h := s.hufb) hmj
      have hsj : Selects gj a b := SameWeights.selects ⟨hstartj, hnextj, fun _ _ => by rw [hhistj]⟩ hs
      exact (hpj.settled hsj hn hp (hpj.lt_of_last hsj hp hlast)).linked_of_ends he
    case root =>
      have hr := hw.isCandidate_iff.1 hr
      obtain rfl := he.eq_soleRoot hr
      exact ⟨rfl, (hf.soleRoot_top hr).1, (hf.soleRoot_top hr).2, soleRoot_node_symbol⟩
  case pair =>
    intro s a b hk hact hbefore hfits
    have hcand : ∀ i, IsCandidate (cleared s.hufb) i ↔ i = a ∨ i = b := fun i =>
      (isCandidate_cleared_iff hk).trans (hact i)
    have hs : Selects (cleared s.hufb) a b := by
      refine ⟨(hcand a).2 (.inl rfl), (hcand b).2 (.inr rfl), ?_, fun i hi hia => ?_, fun i hi hia hib => ?_⟩
      · rintro rfl
        exact hbefore.asymm hbefore
      · obtain rfl := ((hcand i).1 hi).resolve_left hia
        exact hbefore
      · exact absurd ((hcand i).1 hi) (not_or.2 ⟨hia, hib⟩)
    obtain ⟨h', hdone, ht⟩ := treeBuild_pair hs hfits fun i hi => (hcand i).1 hi
    exact ⟨_, exec_treeBuild_done hdone, ht⟩

end Sys2Proof.Machine
end

section
/-! PROOFS. The results of TREE_BUILD (O28) and of a second build (O31). What the merges keep: one candidate goes with each,
the weights of the candidates have the same sum, every nonzero weight below NEXT_ID is a candidate's, and the nodes are
the first candidates and the indices from 256 up to NEXT_ID. -/

namespace Sys2Proof.Machine

variable {h h' g : Hufb} {T : NodeIx → Tree} {i r : NodeIx} {k : Nat}

/-! ## The candidates after a merge (R138) -/

section Merge
variable {a b : Candidate}

theorem isCandidate_merge_iff (hp : MergesPair h a b) :
    IsCandidate (merge a b h) i ↔ i = nextNode h ∨ (IsCandidate h i ∧ i ≠ a.1 ∧ i ≠ b.1) := by
  refine ⟨isCandidate_merge hp.high, ?_⟩
  rintro (rfl | ⟨hi, hia, hib⟩)
  · exact isCandidate_merge_new hp
  · exact isCandidate_merge_of_ne hp hi hia hib

/-- The candidates that a merge of `a` and `b` does not select. -/
def restSet (h : Hufb) (a b : NodeIx) : Finset NodeIx := ((candidateSet h).erase a).erase b

theorem mem_restSet {a b : NodeIx} : i ∈ restSet h a b ↔ IsCandidate h i ∧ i ≠ a ∧ i ≠ b := by
  simp only [restSet, Finset.mem_erase, mem_candidateSet]
  tauto

theorem candidateSet_merge (hp : MergesPair h a b) :
    candidateSet (merge a b h) = insert (nextNode h) (restSet h a.1 b.1) := by
  ext i
  rw [mem_candidateSet, isCandidate_merge_iff hp, Finset.mem_insert, mem_restSet]

theorem not_isCandidate_nextNode (hlt : h.nextId.toNat < 512) : ¬ IsCandidate h (nextNode h) :=
  fun hc => (nextNode_val hlt).not_lt hc.2.1

theorem nextNode_notMem_restSet (hp : MergesPair h a b) : nextNode h ∉ restSet h a.1 b.1 :=
  fun hmem => not_isCandidate_nextNode hp.high (mem_restSet.1 hmem).1

/-- A merge leaves exactly one candidate fewer. -/
theorem card_merge_eq (hp : MergesPair h a b) :
    (candidateSet (merge a b h)).card + 1 = (candidateSet h).card := by
  have ha : a.1 ∈ candidateSet h := mem_candidateSet.2 hp.left
  have hb : b.1 ∈ (candidateSet h).erase a.1 := Finset.mem_erase.2 ⟨hp.ne, mem_candidateSet.2 hp.right⟩
  rw [candidateSet_merge hp, Finset.card_insert_of_notMem (nextNode_notMem_restSet hp), restSet,
    Finset.card_erase_add_one hb, Finset.card_erase_add_one ha]

end Merge

/-! ## The sum of the weights (R138) -/

/-- The weights of the candidates, summed. -/
def weightSum (h : Hufb) : Nat := ∑ i ∈ candidateSet h, (peek h.hist i).toNat

theorem weightSum_eq_pair_add {a b : NodeIx} (ha : IsCandidate h a) (hb : IsCandidate h b) (hne : b ≠ a) :
    weightSum h =
      (peek h.hist a).toNat + (peek h.hist b).toNat + ∑ i ∈ restSet h a b, (peek h.hist i).toNat := by
  have hb' : b ∈ (candidateSet h).erase a := Finset.mem_erase.2 ⟨hne, mem_candidateSet.2 hb⟩
  rw [weightSum, ← Finset.add_sum_erase _ _ (mem_candidateSet.2 ha), ← Finset.add_sum_erase _ _ hb', Nat.add_assoc]
  rfl

/-- The new node has the weights of the two it stands for. -/
theorem weightSum_merge {a b : Candidate} (hp : MergesPair h a b) : weightSum (merge a b h) = weightSum h := by
  have hnew : (peek (merge a b h).hist (nextNode h)).toNat = a.2.toNat + b.2.toNat := by
    rw [merge_hist, if_neg hp.new_ne.2, if_neg hp.new_ne.1, if_pos rfl]
    exact BitVec.toNat_add_of_lt hp.fits
  have hrest : ∀ i ∈ restSet h a.1 b.1, (peek (merge a b h).hist i).toNat = (peek h.hist i).toNat := by
    intro i hi
    obtain ⟨-, hia, hib⟩ := mem_restSet.1 hi
    have hnew : i ≠ nextNode h := by
      rintro rfl
      exact nextNode_notMem_restSet hp hi
    rw [merge_hist, if_neg hib, if_neg hia, if_neg hnew]
  rw [weightSum, candidateSet_merge hp, Finset.sum_insert (nextNode_notMem_restSet hp), hnew,
    Finset.sum_congr rfl hrest, weightSum_eq_pair_add hp.left hp.right hp.ne, hp.leftWeight, hp.rightWeight]

/-! ## What the merges of a build keep (R138) -/

theorem Passes.card (hp : Passes (cleared h) k g) :
    k + (candidateSet g).card = (candidateSet (cleared h)).card :=
  hp.induct (P := fun k g => k + (candidateSet g).card = (candidateSet (cleared h)).card) (Nat.zero_add _)
    fun {k g a b} hpair ih => by
      have hcard : (candidateSet (mergeAt a b g)).card + 1 = (candidateSet g).card := card_merge_eq hpair
      omega

theorem Passes.weightSum (hp : Passes (cleared h) k g) : weightSum g = weightSum (cleared h) :=
  hp.induct (P := fun _ g => Machine.weightSum g = Machine.weightSum (cleared h)) rfl fun hpair ih =>
    (weightSum_merge hpair).trans ih

/-- With the histogram invariant every nonzero weight below NEXT_ID is a candidate's. -/
theorem Passes.isCandidate_of_ne (hk : HistOk h) (hp : Passes (cleared h) k g) :
    ∀ i : NodeIx, i.val < g.nextId.toNat → peek g.hist i ≠ 0 → IsCandidate g i := by
  refine hp.induct (P := fun _ g => ∀ i : NodeIx, i.val < g.nextId.toNat → peek g.hist i ≠ 0 → IsCandidate g i)
    (fun i hlt hne => (isCandidate_cleared_iff hk).2 (mem_activeSymbols.2 ⟨hlt, hne⟩))
    fun {k g a b} hpair ih i hlt hne => ?_
  rw [mergeAt, merge_nextId hpair.high] at hlt
  rw [mergeAt, merge_hist] at hne
  refine (isCandidate_merge_iff hpair).2 ?_
  split at hne
  · exact absurd rfl hne
  split at hne
  · exact absurd rfl hne
  split at hne
  case isTrue hnew => exact .inl hnew
  case isFalse hib hia hnew =>
    have hval : i.val ≠ g.nextId.toNat := fun e => hnew (Fin.ext (e.trans (nextNode_val hpair.high).symm))
    exact .inr ⟨ih i (by omega) hne, hia, hib⟩

/-- HIST from NEXT_ID on is as it was. -/
theorem Passes.hist_above (hp : Passes (cleared h) k g) :
    ∀ i : NodeIx, g.nextId.toNat ≤ i.val → peek g.hist i = peek h.hist i := by
  refine hp.induct (P := fun _ g => ∀ i : NodeIx, g.nextId.toNat ≤ i.val → peek g.hist i = peek h.hist i)
    (fun _ _ => rfl) fun {k g a b} hpair ih i hle => ?_
  rw [mergeAt, merge_nextId hpair.high] at hle
  have hne : ∀ {x : NodeIx}, x.val ≤ g.nextId.toNat → i ≠ x := by
    rintro x hx rfl
    omega
  rw [mergeAt, merge_hist, if_neg (hne hpair.right.2.1.le), if_neg (hne hpair.left.2.1.le),
    if_neg (hne (nextNode_val hpair.high).le)]
  exact ih i (by omega)

/-! ## The nodes of a build (R138) -/

theorem Forest.recordLeaf_valid {c : NodeIx} (hf : Forest g T) (hc : IsCandidate g c) :
    (peek (recordLeaf c g.node) c).valid = true := by
  have htop := (held_root (hf.held hc)).1
  rwa [hf.root hc] at htop

/-- A merge makes nodes of the two it selects, which were candidates, and of the new index. -/
theorem Forest.merge_valid_iff {a b : Candidate} (hf : Forest g T) (hp : MergesPair g a b) :
    ((peek (merge a b g).node i).valid = true ∨ IsCandidate (merge a b g) i) ↔
      ((peek g.node i).valid = true ∨ IsCandidate g i) ∨ i = nextNode g := by
  rw [isCandidate_merge_iff hp]
  by_cases hnew : i = nextNode g
  · simp [hnew]
  by_cases hia : i = a.1
  · have hl := merge_node_left hp.new_ne.1.symm hp.ne.symm
    rw [← peek_recordLeaf_self] at hl
    simp [hia, hl, hf.recordLeaf_valid hp.left, hp.left]
  by_cases hib : i = b.1
  · have hr := merge_node_right hp.new_ne.2.symm hp.ne
    rw [← peek_recordLeaf_self] at hr
    simp [hib, hr, hf.recordLeaf_valid hp.right, hp.right]
  · simp [merge_node_of_ne hia hib hnew, hnew, hia, hib]

/-- The nodes and the candidates are the first candidates and the indices from 256 up to NEXT_ID. -/
theorem Passes.valid_iff (hp : Passes (cleared h) k g) :
    ((peek g.node i).valid = true ∨ IsCandidate g i) ↔
      IsCandidate (cleared h) i ∨ (256 ≤ i.val ∧ i.val < g.nextId.toNat) := by
  induction hp with
  | start =>
    have hnone : ¬ (256 ≤ i.val ∧ i.val < 256) := by omega
    simp [Node.empty, hnone]
  | @merge k g a b hp hs hfits ih =>
    obtain ⟨T, hf⟩ := hp.forest
    have hpair := hs.mergesPair hfits hp.mergeRoom
    have hnew : i = nextNode g ↔ i.val = g.nextId.toNat := by
      rw [← nextNode_val hpair.high, Fin.ext_iff]
    have hlow := hpair.low
    rw [mergeAt, hf.merge_valid_iff hpair, ih, merge_nextId hpair.high, hnew, or_assoc]
    refine or_congr_right ?_
    omega

/-- The end makes a node of the candidate that is left. -/
theorem Forest.ends_valid_iff (hf : Forest g T) (he : BuildEnds g h') :
    (peek h'.node i).valid = true ↔ (peek g.node i).valid = true ∨ IsCandidate g i := by
  obtain ⟨hnone, rfl⟩ | ⟨r, hr, honly, rfl⟩ := he
  · simp [finishBuild, hnone i]
  · by_cases hir : i = r
    · simp [hir, hr, (hf.soleRoot_top hr).1]
    · rw [soleRoot_node_of_ne hir]
      exact (or_iff_left fun hi => hir (honly i hi)).symm

/-! ## The first candidates are the active symbols (R48, R138) -/

theorem candidateSet_cleared (hk : HistOk h) : candidateSet (cleared h) = (activeSymbols h).toFinset := by
  ext i
  rw [mem_candidateSet, isCandidate_cleared_iff hk, List.mem_toFinset]

theorem activeSymbols_nodup (h : Hufb) : (activeSymbols h).Nodup := (List.nodup_finRange _).filter _

theorem card_candidateSet_cleared (hk : HistOk h) :
    (candidateSet (cleared h)).card = (activeSymbols h).length := by
  rw [candidateSet_cleared hk, List.toFinset_card_of_nodup (activeSymbols_nodup h)]

theorem weightSum_cleared (hk : HistOk h) : weightSum (cleared h) = totalWeight h := by
  rw [weightSum, candidateSet_cleared hk]
  exact List.sum_toFinset _ (activeSymbols_nodup h)

/-! ## How many merges there are (R138) -/

/-- The node of the last merge is a candidate. -/
theorem Passes.exists_new (hp : Passes (cleared h) (k + 1) g) : ∃ r : NodeIx, r.val = 256 + k ∧ IsCandidate g r := by
  cases hp with
  | merge hp hs hfits =>
    have hpair := hs.mergesPair hfits hp.mergeRoom
    exact ⟨_, (nextNode_val hpair.high).trans hp.nextId, isCandidate_merge_new hpair⟩

theorem BuildEnds.candidateSet_eq (he : BuildEnds g h') (hr : IsCandidate g r) : candidateSet g = {r} := by
  obtain ⟨hnone, -⟩ | ⟨r', -, honly, -⟩ := he
  · exact absurd hr (hnone r)
  · refine Finset.eq_singleton_iff_unique_mem.2 ⟨mem_candidateSet.2 hr, fun i hi => ?_⟩
    rw [honly i (mem_candidateSet.1 hi), honly r hr]

theorem BuildEnds.card_le (he : BuildEnds g h') : (candidateSet g).card ≤ 1 := by
  by_contra hcard
  obtain ⟨r, hr⟩ := Finset.card_pos.1 (show 0 < (candidateSet g).card by omega)
  rw [he.candidateSet_eq (mem_candidateSet.1 hr)] at hcard
  simp at hcard

/-- With fewer than two first candidates there is nothing to merge. -/
theorem Passes.eq_cleared (hp : Passes (cleared h) k g) (hfew : (candidateSet (cleared h)).card ≤ 1) :
    g = cleared h := by
  have hcard := hp.card
  cases k with
  | zero => cases hp; rfl
  | succ k =>
    obtain ⟨r, -, hr⟩ := hp.exists_new
    have hpos := Finset.card_pos.2 ⟨r, mem_candidateSet.2 hr⟩
    omega

/-- With two first candidates or more a build that ends has made one merge fewer than there were candidates, and the node
of the last merge is the only candidate left. -/
theorem Passes.last_node (hp : Passes (cleared h) k g) (he : BuildEnds g h')
    (hmany : 2 ≤ (candidateSet (cleared h)).card) :
    k + 1 = (candidateSet (cleared h)).card ∧ ∃ r : NodeIx, r.val + 1 = 256 + k ∧ IsCandidate g r := by
  have hcard := hp.card
  have hle := he.card_le
  cases k with
  | zero => omega
  | succ k =>
    obtain ⟨r, hval, hr⟩ := hp.exists_new
    have hpos := Finset.card_pos.2 ⟨r, mem_candidateSet.2 hr⟩
    exact ⟨by omega, r, by omega, hr⟩

/-- No selected sum overflows when the total weight fits. -/
theorem Passes.sumFits {a b : NodeIx} (hk : HistOk h) (htotal : totalWeight h < 2 ^ 64)
    (hp : Passes (cleared h) k g) (hs : Selects g a b) : SumFits g a b := by
  have hsum := weightSum_eq_pair_add hs.left hs.right hs.distinct.symm
  rw [hp.weightSum, weightSum_cleared hk] at hsum
  unfold SumFits
  omega

/-! ## The results -/

/-- Settles O28: a total weight below 2^64 lets every merge of the build through, and what the merges keep says what they
leave. -/
theorem treeBuildResult : Obligations.TreeBuildResult := by
  unfold Obligations.TreeBuildResult
  intro s hk htotal
  obtain ⟨k, g, h', hp, he, hdone⟩ := exists_passes_ends (h := s.hufb) (Passes.sumFits hk htotal)
  obtain ⟨T, hf⟩ := hp.forest
  obtain ⟨hhist, hnext⟩ := he.hist_nextId
  have hcount := card_candidateSet_cleared hk
  have hvalid : ∀ i : NodeIx, (peek h'.node i).valid = true ↔
      i ∈ activeSymbols s.hufb ∨ (256 ≤ i.val ∧ i.val < h'.nextId.toNat) := fun i => by
    rw [hf.ends_valid_iff he, hp.valid_iff, isCandidate_cleared_iff hk, hnext]
  refine ⟨_, exec_treeBuild_done hdone, congrArg (fun b => { s with hufb := b }) (treeBuild_done hdone),
    treeBuild_treeOk hdone, fun i hi => ?symbols, fun i hi => ?internal, fun hnil => ?zero, fun r hone => ?one,
    fun hmany => ?many⟩
  case symbols =>
    rw [hvalid]
    exact or_iff_left fun hge => absurd hge.1 (Nat.not_le.2 hi)
  case internal =>
    rw [hvalid, or_iff_right fun hact => absurd (mem_activeSymbols.1 hact).1 (Nat.not_lt.2 hi)]
    exact and_iff_right hi
  case zero =>
    obtain rfl := hp.eq_cleared (by rw [hcount, hnil]; exact Nat.zero_le 1)
    refine ⟨he.root_eq_none fun i hi => ?_, hnext, hhist⟩
    simpa [hnil] using (isCandidate_cleared_iff hk).1 hi
  case one =>
    obtain rfl := hp.eq_cleared (by rw [hcount, hone]; exact le_refl 1)
    have hr : IsCandidate (cleared s.hufb) r := (isCandidate_cleared_iff hk).2 (by simp [hone])
    exact ⟨he.root_eq_some hr, hnext, hhist⟩
  case many =>
    obtain ⟨hmerges, r, hval, hr⟩ := hp.last_node he (hcount ▸ hmany)
    have honly := he.candidateSet_eq hr
    have hid : h'.nextId.toNat = 256 + k := by rw [hnext, hp.nextId]
    have hsum : (peek h'.hist r).toNat = totalWeight s.hufb := by
      rw [hhist, ← weightSum_cleared hk, ← hp.weightSum, weightSum, honly, Finset.sum_singleton]
    rw [hcount] at hmerges
    refine ⟨by dsimp only; omega, r, he.root_eq_some hr, by omega, hsum, fun i hir hlt => ?_, fun i hle => ?_⟩
    · by_contra hne
      have hi : IsCandidate g i := hp.isCandidate_of_ne hk i (hnext ▸ hlt) (hhist ▸ hne)
      exact hir (by simpa [honly] using mem_candidateSet.2 hi)
    · exact hhist ▸ hp.hist_above i (hnext ▸ hle)

/-- Settles O31: the first build leaves one nonzero weight below its NEXT_ID, at the node of its last merge, which is no
symbol. -/
theorem secondBuildFindsNothing : Obligations.SecondBuildFindsNothing := by
  unfold Obligations.SecondBuildFindsNothing
  intro s t hk hmany _ e hft
  obtain ⟨k, g, hp, he⟩ := passes_of_treeBuild_done (treeBuild_done_of_exec e hft)
  rw [← card_candidateSet_cleared hk] at hmany
  obtain ⟨hmerges, r, hval, hr⟩ := hp.last_node he hmany
  have hid := hp.nextId
  have hnone : ∀ i, ¬ IsCandidate (cleared t.hufb) i := by
    rintro i ⟨-, hlt, hne⟩
    have hlt : i.val < 256 := hlt
    have hne : peek g.hist i ≠ 0 := he.hist_nextId.1 ▸ hne
    have hi := hp.isCandidate_of_ne hk i (by omega) hne
    obtain rfl : i = r := by simpa [he.candidateSet_eq hr] using mem_candidateSet.2 hi
    omega
  have hdone := (Passes.start (h := cleared t.hufb)).treeBuild_done (.inl ⟨hnone, rfl⟩)
  exact ⟨_, exec_treeBuild_done hdone, rfl, rfl⟩

end Sys2Proof.Machine
end

section
/-! PROOFS. TREE_SERIALIZE (O33, O34) and what TREE_LOAD answers on a count out of range (O35), on the preorder of a tree
(O36) and whenever it completes (O37); the round trip of the two (O40). -/

namespace Sys2Proof.Machine

variable {h h' : Hufb} {s : State} {t : Tree} {c : BitVec 16}

/-! ## A command whose effect is known -/

theorem exec_done {i : Instr} (e : effectOf i s.hufb = .done h) : exec i s = .next { s with hufb := h } := by
  rw [exec_eq_conclude, e, conclude_done]

theorem exec_raise {i : Instr} {r : Raise} (e : effectOf i s.hufb = .raise r) :
    exec i s = .next { s with hufb := faultEntry r s.hufb } := by
  rw [exec_eq_conclude, e, conclude_raise]

/-! ## TREE_SERIALIZE (R150, R151) -/

/-- Settles O34: one leaf takes three elements and one internal node one, and there are at most 256 leaves. -/
theorem serializedSize : Obligations.SerializedSize := by
  unfold Obligations.SerializedSize
  intro t hv
  have hlength := t.preorder_length_add_one
  have hleaves := hv.leaves_length_le
  omega

theorem peek_storeElems (es : List Elem) (tbuf : Vector Elem Config.tbufLen) (k : Fin Config.tbufLen) :
    peek (storeElems es tbuf) k = if hk : k.val < es.length then es[k.val] else peek tbuf k := by
  rw [storeElems, peek_tabulate]
  split
  case isTrue hk => rw [List.getElem?_eq_getElem hk, Option.getD_some]
  case isFalse hk => rw [List.getElem?_eq_none (Nat.not_lt.1 hk), Option.getD_none]

/-- The block in which TREE_SERIALIZE has stored these elements. -/
def stored (es : List Elem) (h : Hufb) : Hufb :=
  { h with tbuf := storeElems es h.tbuf, tcount := BitVec.ofNat 11 es.length }

@[simp] theorem stored_fault (es : List Elem) (h : Hufb) : (stored es h).fault = h.fault := by rw [stored]

theorem treeSerialize_stored {es : List Elem} (hes : serialize h.node Config.nodeSlots h.root = some es)
    (hfit : es.length ≤ Config.tbufLen) : treeSerialize h = .done (stored es h) := by
  simp [treeSerialize, hes, hfit, stored]

theorem treeSerialize_hasTree (ht : HasTree h t) : treeSerialize h = .done (stored t.preorder h) :=
  treeSerialize_stored (by rw [ht.root, serialize_held ht.held (Tree.height_lt_slots ht.valid.2)])
    ht.valid.preorder_length_le

theorem treeSerialize_noRoot (hr : h.root = none) : treeSerialize h = .done (stored [Config.sentinel] h) :=
  treeSerialize_stored (by simp [hr, serialize]) (by simp [Config.tbufLen])

/-- Settles O33: the serializer answers the preorder of the held tree, or one sentinel, and either fits TBUF. -/
theorem treeSerializeResult : Obligations.TreeSerializeResult := by
  unfold Obligations.TreeSerializeResult
  refine fun s => ⟨fun t ht => ?tree, fun hr => ?empty⟩
  case tree =>
    exact ⟨_, exec_done (treeSerialize_hasTree ht), rfl,
      toNat_ofNat_tcount ht.valid.preorder_length_le, peek_storeElems _ _⟩
  case empty =>
    refine ⟨_, exec_done (treeSerialize_noRoot hr), rfl, fun k => ?_⟩
    refine (peek_storeElems _ _ k).trans ?_
    simp [Config.sentinel]

/-! ## The count of TREE_LOAD (R152, R155) -/

theorem toNat_eq_of_countInRange (hc : countInRange c = true) : (c.toNat : Int) = c.toInt := by
  have := toNat_le_of_countInRange hc
  rw [BitVec.toInt_eq_toNat_of_lt]
  simp only [Config.tbufLen] at this
  omega

/-- Settles O35: the count check comes first. -/
theorem treeLoadCountCheck : Obligations.TreeLoadCountCheck := by
  unfold Obligations.TreeLoadCountCheck
  intro s c hc
  have hrange : ¬ countInRange c = true := by
    rw [countInRange_iff]
    omega
  exact exec_raise (r := ⟨.btreeOverflow, 0, c⟩) (if_neg hrange)

/-! ## TREE_LOAD completes (R152, R153) -/

/-- The block in which TREE_LOAD has stored a tree of `n` elements. -/
def loaded (nodes : Vector Node Config.nodeSlots) (root : Option NodeIx) (n : Nat) (h : Hufb) : Hufb :=
  { cleared h with node := nodes, root := root, decPos := root, tcount := BitVec.ofNat 11 n }

section Loaded
variable (nodes : Vector Node Config.nodeSlots) (root : Option NodeIx) (n : Nat) (h : Hufb)

@[simp] theorem loaded_fault : (loaded nodes root n h).fault = h.fault := rfl
@[simp] theorem loaded_node : (loaded nodes root n h).node = nodes := rfl
@[simp] theorem loaded_root : (loaded nodes root n h).root = root := rfl

end Loaded

theorem treeLoad_loaded {root : Option NodeIx} {w : Walk} (hc : countInRange c = true)
    (e : deserialize h.tbuf c.toNat c.toNat none { pos := 0, node := (cleared h).node } = .ok (root, w)) :
    treeLoad c h = .done (loaded w.node root w.pos h) := by
  rw [treeLoad, if_pos hc, treeClear_eq_cleared, e]
  rfl

/-- TREE_LOAD on the preorder of a tree R47 allows stores that tree. -/
theorem treeLoad_preorder (hv : t.Valid) (hc : countInRange c = true) (hlen : t.preorder.length ≤ c.toNat)
    (hs : StartsWith h.tbuf t.preorder) :
    ∃ nodes, treeLoad c h = .done (loaded nodes (some t.root) t.preorder.length h) ∧
      HasTree (loaded nodes (some t.root) t.preorder.length h) t := by
  have hempty (i : NodeIx) : peek (cleared h).node i = Node.empty := peek_replicate _ i
  obtain ⟨w, e, hpos, hheld, hothers⟩ := deserialize_preorder (c := c.toNat) (depth := c.toNat) (parent := none)
    (w := { pos := 0, node := (cleared h).node }) hv (fun i _ => by rw [hempty]; rfl)
    (readsAt_of_startsWith hs hv.preorder_length_le) (by simpa using hlen) (Nat.le_add_right _ _)
  replace hpos : w.pos = t.preorder.length := hpos.trans (Nat.zero_add _)
  exact ⟨w.node, hpos ▸ treeLoad_loaded hc e, rfl, hv, hheld, fun i hi => (hothers i hi).trans (hempty i)⟩

/-- TREE_LOAD on a first sentinel stores no tree. -/
theorem treeLoad_sentinel (hc : countInRange c = true) (hs : StartsWith h.tbuf [Config.sentinel]) :
    treeLoad c h = .done (loaded (cleared h).node none 1 h) := by
  have hrange := countInRange_iff.1 hc
  have hnat := toNat_eq_of_countInRange hc
  obtain ⟨d, hd⟩ : ∃ d, c.toNat = d + 1 := ⟨c.toNat - 1, by omega⟩
  have hfirst : elemAt h.tbuf 0 = Config.sentinel :=
    (readsAt_cons.1 (readsAt_of_startsWith hs (by simp [Config.tbufLen]))).1
  refine treeLoad_loaded (w := ⟨1, _⟩) hc ?_
  rw [hd, deserialize, if_neg (by simp), if_pos hfirst]

/-- Settles O36: the walk meets the tree's preorder, or a sentinel, on a cleared node store. -/
theorem treeLoadResult : Obligations.TreeLoadResult := by
  unfold Obligations.TreeLoadResult
  refine fun s c => ⟨fun t hv hlen hc hs => ?tree, fun hlow hhigh hs => ?empty⟩
  case tree =>
    have hlength := t.preorder_length_add_one
    have hleaf := t.height_lt_leaves_length
    have hrange : countInRange c = true := countInRange_iff.2 ⟨by omega, hc⟩
    have hnat := toNat_eq_of_countInRange hrange
    obtain ⟨nodes, e, ht⟩ := treeLoad_preorder hv hrange (by omega) hs
    exact ⟨_, exec_done e, ht, toNat_ofNat_tcount hv.preorder_length_le, rfl⟩
  case empty =>
    exact exec_done (treeLoad_sentinel (countInRange_iff.2 ⟨hlow, hhigh⟩) hs)

/-- Settles O37: a TREE_LOAD that ends without a fault has completed, with the tree its walk read. -/
theorem loadedTreeIsValid : Obligations.LoadedTreeIsValid := by
  unfold Obligations.LoadedTreeIsValid
  intro s t c _ e hf
  obtain ⟨h, hdone, rfl⟩ | ⟨r, -, rfl⟩ := exec_next e
  · refine ⟨treeLoad_treeOk hdone, ?_⟩
    obtain ⟨-, root, w, -, rfl⟩ := treeLoad_done hdone
    rfl
  · simp at hf

/-! ## The round trip (R154) -/

/-- A tree determines the slots that hold it. -/
theorem held_unique {nodes nodes' : Vector Node Config.nodeSlots} :
    ∀ {t : Tree} {p : Option NodeIx} {i : NodeIx}, Tree.Held nodes p t → Tree.Held nodes' p t → i ∈ t.indices →
      peek nodes' i = peek nodes i
  | .leaf j, p, i, hh, hh', hi => by
    obtain rfl : i = j := by simpa [Tree.indices] using hi
    exact Eq.trans hh' (Eq.symm hh)
  | .node j l r, p, i, ⟨hj, hl, hr⟩, ⟨hj', hl', hr'⟩, hi => by
    simp only [Tree.indices, List.mem_cons, List.mem_append] at hi
    obtain rfl | hi | hi := hi
    · exact hj'.trans hj.symm
    · exact held_unique hl hl' hi
    · exact held_unique hr hr' hi

/-- Two blocks with the same tree have the same node store. -/
theorem HasTree.node_eq (ht : HasTree h t) (ht' : HasTree h' t) : h'.node = h.node := by
  refine vector_ext fun i => ?_
  by_cases hi : i ∈ t.indices
  · exact held_unique ht.held ht'.held hi
  · rw [ht.others i hi, ht'.others i hi]

theorem NoTree.node_eq (hn : NoTree h) : h.node = (cleared h').node :=
  vector_ext fun i => (hn.empty i).trans (peek_replicate _ i).symm

theorem startsWith_storeElems (es : List Elem) (tbuf : Vector Elem Config.tbufLen) :
    StartsWith (storeElems es tbuf) es := fun k hk => by
  rw [peek_storeElems, dif_pos hk]

/-- TREE_SERIALIZE leaves as many elements as a count of TREE_LOAD can say. -/
theorem stored_tcount_toNat {es : List Elem} (hfit : es.length ≤ Config.tbufLen) :
    ((stored es h).tcount.setWidth 16).toNat = es.length := by
  rw [stored, BitVec.toNat_setWidth, toNat_ofNat_tcount hfit]
  simp only [Config.tbufLen] at hfit
  omega

theorem countInRange_of_toNat (hlow : 1 ≤ c.toNat) (hhigh : c.toNat ≤ Config.tbufLen) : countInRange c = true := by
  simp only [Config.tbufLen] at hhigh
  rw [countInRange_iff, BitVec.toInt_eq_toNat_of_lt (by omega)]
  omega

/-- TREE_LOAD of what TREE_SERIALIZE stored gives NODE and ROOT back. -/
theorem treeLoad_after_treeSerialize (ht : TreeOk h) :
    ∃ es n, treeSerialize h = .done (stored es h) ∧
      treeLoad ((stored es h).tcount.setWidth 16) (stored es h) = .done (loaded h.node h.root n (stored es h)) := by
  obtain hn | ⟨t, ht⟩ := ht
  · have hnat := stored_tcount_toNat (h := h) (es := [Config.sentinel]) (by simp [Config.tbufLen])
    refine ⟨[Config.sentinel], 1, treeSerialize_noRoot hn.root, ?_⟩
    rw [hn.root, hn.node_eq (h' := stored [Config.sentinel] h)]
    exact treeLoad_sentinel (countInRange_of_toNat hnat.ge (by simp [hnat, Config.tbufLen]))
      (startsWith_storeElems _ _)
  · have hfit := ht.valid.preorder_length_le
    have hnat := stored_tcount_toNat (h := h) hfit
    have hlow : 1 ≤ t.preorder.length := by cases t <;> simp [Tree.preorder]
    obtain ⟨nodes, e, ht'⟩ := treeLoad_preorder (h := stored t.preorder h) ht.valid
      (countInRange_of_toNat (hnat ▸ hlow) (hnat ▸ hfit)) hnat.ge (startsWith_storeElems _ _)
    obtain rfl : nodes = h.node := ht.node_eq ht'
    exact ⟨t.preorder, _, treeSerialize_hasTree ht, ht.root ▸ e⟩

theorem tableGen_completes (ht : TreeOk h) : ∃ g, tableGen h = .done g := by
  cases e : tableGen h with
  | done g => exact ⟨g, rfl⟩
  | raise r => exact absurd e tableGen_not_raise
  | stuck f => exact absurd e (tableGen_not_stuck ht f)

/-- The codes are a matter of NODE and ROOT. -/
theorem tableGen_codes_eq {g g' : Hufb} (hn : h'.node = h.node) (hr : h'.root = h.root) (e : tableGen h = .done g)
    (e' : tableGen h' = .done g') : g'.len = g.len ∧ g'.code = g.code := by
  obtain ⟨es, hes, rfl⟩ := tableGen_done e
  obtain ⟨es', hes', rfl⟩ := tableGen_done e'
  obtain rfl : es = es' := Option.some.inj (hes.symm.trans ((tableEntries_congr hn hr).symm.trans hes'))
  exact ⟨rfl, rfl⟩

/-- Settles O40: TREE_LOAD stores the tree that was serialized, a tree determines its node store, and TABLE_GEN reads
nothing else. -/
theorem serializeLoadRoundTrip : Obligations.SerializeLoadRoundTrip := by
  unfold Obligations.SerializeLoadRoundTrip
  intro s ht
  obtain ⟨es, n, hser, hload⟩ := treeLoad_after_treeSerialize ht
  obtain ⟨g, hg⟩ := tableGen_completes ht
  have hnode := loaded_node s.hufb.node s.hufb.root n (stored es s.hufb)
  have hroot := loaded_root s.hufb.node s.hufb.root n (stored es s.hufb)
  obtain ⟨k, hk⟩ := tableGen_completes (ht.congr hnode hroot)
  have hcodes := tableGen_codes_eq hnode hroot hg hk
  refine ⟨_, _, exec_done hser, exec_done hload, ?_⟩
  have hfault : (loaded s.hufb.node s.hufb.root n (stored es s.hufb)).fault = s.hufb.fault := by simp
  exact ⟨hfault, hnode, hroot, rfl, rfl, rfl, _, _, exec_done hg, exec_done hk, hcodes⟩

end Sys2Proof.Machine
end

section
/-! PROOFS. The frame of the codec, table, encoder and decoder commands (O52). -/

namespace Sys2Proof.Machine

variable {h h' : Hufb} {c : BitVec 16}

/-- TREE_SERIALIZE owns TBUF and TCOUNT, and stores to the first TCOUNT elements of TBUF (R150). -/
theorem treeSerialize_frame (e : treeSerialize h = .done h') :
    h' = { h with tbuf := h'.tbuf, tcount := h'.tcount } ∧
      ∀ k : Fin Config.tbufLen, h'.tcount.toNat ≤ k.val → peek h'.tbuf k = peek h.tbuf k := by
  obtain ⟨es, -, hfit, rfl⟩ := treeSerialize_done e
  refine ⟨rfl, fun k hk => ?_⟩
  rw [toNat_ofNat_tcount hfit] at hk
  exact (peek_storeElems es h.tbuf k).trans (dif_neg (Nat.not_lt.2 hk))

/-- TREE_LOAD owns the tree, the symbol table, the decoder position and TCOUNT (R152). -/
theorem treeLoad_frame (e : treeLoad c h = .done h') :
    h' = { h with
      node := h'.node, root := h'.root, nextId := h'.nextId, len := h'.len, code := h'.code,
      tableV := h'.tableV, decPos := h'.decPos, tcount := h'.tcount } := by
  obtain ⟨-, root, w, -, rfl⟩ := treeLoad_done e
  rfl

/-- TABLE_GEN owns the symbol table (R170). -/
theorem tableGen_frame (e : tableGen h = .done h') :
    h' = { h with len := h'.len, code := h'.code, tableV := h'.tableV } := by
  obtain ⟨es, -, rfl⟩ := tableGen_done e
  rfl

/-- ENC_SYM owns the packer and appends to OUTQ (R181). -/
theorem encSym_frame {b : Byte} (e : encSym b h = .done h') :
    h' = { h with acc := h'.acc, pos := h'.pos, outq := h'.outq } ∧ h.outq <+: h'.outq := by
  obtain ⟨-, -, rfl⟩ := encSym_done e
  exact ⟨putBits_frame _ h, putBits_outq _ h⟩

/-- Settles O52: TREE_SERIALIZE and TABLE_GEN raise nothing, ENC_FLUSH and DEC_START always complete; the others complete
within their frames or enter the fault. -/
theorem codecFrame : Obligations.CodecFrame := by
  unfold Obligations.CodecFrame
  intro s t b c
  refine ⟨fun e => ?treeSerialize, fun e => ?treeLoad, fun e => ?tableGen, fun e => ?encSym, fun e => ?encFlush,
    fun e => ?decStart, fun e => ?decByte⟩
  case treeSerialize =>
    obtain ⟨g, hdone, rfl⟩ | ⟨r, hraise, -⟩ := exec_next e
    · obtain ⟨hframe, htbuf⟩ := treeSerialize_frame hdone
      exact ⟨congrArg (State.mk · s.env) hframe,
        fun k hk => congrArg (fun x : Elem => some (x.setWidth 32)) (htbuf k hk)⟩
    · exact absurd hraise treeSerialize_not_raise
  case tableGen =>
    obtain ⟨g, hdone, rfl⟩ | ⟨r, hraise, -⟩ := exec_next e
    · exact congrArg (State.mk · s.env) (tableGen_frame hdone)
    · exact absurd hraise tableGen_not_raise
  case encFlush =>
    cases e
    exact ⟨congrArg (State.mk · s.env) (encFlush_frame s.hufb), encFlush_outq s.hufb⟩
  case decStart => cases e; rfl
  case treeLoad =>
    refine (exec_done_or_faultEntered e).imp_left fun ⟨hdone, ht⟩ => ?_
    rwa [treeLoad_frame hdone] at ht
  case encSym =>
    refine (exec_done_or_faultEntered e).imp_left fun ⟨hdone, ht⟩ => ?_
    obtain ⟨hframe, hq⟩ := encSym_frame hdone
    exact ⟨by rwa [hframe] at ht, hq⟩
  case decByte =>
    refine (exec_done_or_faultEntered e).imp_left fun ⟨hdone, ht⟩ => ?_
    obtain ⟨hframe, hq⟩ := decByte_frame hdone
    exact ⟨by rwa [hframe] at ht, hq⟩

end Sys2Proof.Machine
end

section
/-! PROOFS. The faults of TREE_LOAD's walk (O38, O39). A call of `des` is followed along the way down: what a call meets at
its own element, and that the fault of a call further down is the fault of the calls above it. -/

namespace Sys2Proof.Machine

variable {tbuf : Vector Elem Config.tbufLen} {c p : Nat} {es : List Elem} {is : List NodeIx}

/-! ## A call of `des` (R152) -/

/-- What a call of `des` is given. -/
structure Call where
  depth : Nat
  parent : Option NodeIx
  walk : Walk

/-- What the call answers. -/
def Call.run (tbuf : Vector Elem Config.tbufLen) (c : Nat) (k : Call) : Except Raise (Option NodeIx × Walk) :=
  deserialize tbuf c k.depth k.parent k.walk

/-- The call for the left subtree of a node that this call reads. -/
def Call.enter (n : NodeIx) (k : Call) : Call :=
  { depth := k.depth - 1
    parent := some n
    walk := { pos := k.walk.pos + 1, node := poke k.walk.node n (Node.leaf k.parent) } }

/-- The call stands at position `p` before the elements `es`, all of them below the count, and the indices read before
are `is`. -/
structure Call.StandsBefore (tbuf : Vector Elem Config.tbufLen) (c p : Nat) (es : List Elem) (is : List NodeIx)
    (k : Call) : Prop where
  pos : k.walk.pos = p
  reads : ReadsAt tbuf p es
  fits : p + es.length ≤ c
  room : c ≤ k.depth + p
  valid : ∀ i, (peek k.walk.node i).valid = true ↔ i ∈ is

namespace Call.StandsBefore

variable {k : Call} {n : NodeIx}

theorem fresh (hk : k.StandsBefore tbuf c p es is) (hn : n ∉ is) : (peek k.walk.node n).valid = false := by
  rw [← hk.valid] at hn
  simpa using hn

/-- Before an element the call has room to go deeper. -/
theorem depth_eq {e : Elem} (hk : k.StandsBefore tbuf c p (e :: es) is) : k.depth = k.depth - 1 + 1 := by
  have hfits := hk.fits
  have hroom := hk.room
  rw [List.length_cons] at hfits
  omega

theorem pos_lt {e : Elem} (hk : k.StandsBefore tbuf c p (e :: es) is) : k.walk.pos < c := by
  have hfits := hk.fits
  rw [List.length_cons] at hfits
  rw [hk.pos]
  omega

theorem elemAt_eq {e : Elem} (hk : k.StandsBefore tbuf c p (e :: es) is) : elemAt tbuf k.walk.pos = e := by
  rw [hk.pos]
  exact (readsAt_cons.1 hk.reads).1

/-! ## What a call meets at its own element -/

/-- SUB 1: the count ends where the call stands. -/
theorem run_end (hk : k.StandsBefore tbuf c c [] is) : k.run tbuf c = .error (corrupted 1 c) := by
  obtain ⟨depth, parent, w⟩ := k
  obtain rfl : w.pos = c := hk.pos
  cases depth with
  | zero => rfl
  | succ depth => rw [run, deserialize, if_pos (le_refl _)]

/-- SUB 2: the element is neither the sentinel nor an index. -/
theorem run_badElem {v : Elem} (hk : k.StandsBefore tbuf c p [v] is) (hv : 512 ≤ v.toNat)
    (hs : v ≠ Config.sentinel) : k.run tbuf c = .error (corrupted 2 p) := by
  have hindex : elemIndex v = none := dif_neg (Nat.not_lt.2 hv)
  rw [run, hk.depth_eq, deserialize, if_neg (Nat.not_le.2 hk.pos_lt), hk.elemAt_eq, if_neg hs, hk.pos]
  simp only [hindex]

/-- SUB 3: the index was read before. -/
theorem run_repeated (hk : k.StandsBefore tbuf c p [indexElem n] is) (hn : n ∈ is) :
    k.run tbuf c = .error (corrupted 3 p) := by
  rw [run, hk.depth_eq, deserialize, if_neg (Nat.not_le.2 hk.pos_lt), hk.elemAt_eq, if_neg (indexElem_ne_sentinel n),
    hk.pos]
  simp only [elemIndex_indexElem, (hk.valid n).2 hn, if_true]

/-! ## A node's element and its two subtrees -/

theorem enter (hk : k.StandsBefore tbuf c p (indexElem n :: es) is) :
    (k.enter n).StandsBefore tbuf c (p + 1) es (is ++ [n]) where
  pos := congrArg (· + 1) hk.pos
  reads := (readsAt_cons.1 hk.reads).2
  fits := by
    have hfits := hk.fits
    rw [List.length_cons] at hfits
    omega
  room := by
    have hroom := hk.room
    have hdepth := hk.depth_eq
    change c ≤ k.depth - 1 + (p + 1)
    omega
  valid i := by
    rw [Call.enter, valid_poke_leaf, hk.valid, List.mem_append, List.mem_singleton]

/-- The call reads a subtree, absent or well shaped and fresh, and another call for the same parent goes on behind it. -/
theorem subtree {t : Option Tree} (hk : k.StandsBefore tbuf c p (subtreeElems t ++ es) is)
    (hs : ∀ x, t = some x → x.shaped = true) (hn : (is ++ subtreeIndices t).Nodup) :
    ∃ w, k.run tbuf c = .ok (t.map Tree.root, w) ∧
      Call.StandsBefore tbuf c (p + (subtreeElems t).length) es (is ++ subtreeIndices t) { k with walk := w } := by
  obtain ⟨-, hnt, hdisjoint⟩ := List.nodup_append.1 hn
  obtain ⟨hreads, hrest⟩ := readsAt_append.1 hk.reads
  have hfits := hk.fits
  have hroom := hk.room
  have hpos := hk.pos
  rw [List.length_append] at hfits
  obtain ⟨w, e, hw, hvalid⟩ := deserialize_subtree (c := c) (depth := k.depth) (parent := k.parent) t hs hnt
    (fun i hi => hk.fresh fun hmem => hdisjoint i hmem i hi rfl) (hpos ▸ hreads) (by omega) (by omega)
  refine ⟨w, e, ⟨hpos ▸ hw, hrest, by omega, ?_, fun i => ?_⟩⟩
  · change c ≤ k.depth + (p + (subtreeElems t).length)
    omega
  · rw [hvalid, hk.valid, List.mem_append]

/-- The fault of the left subtree's call is the fault of the node's call. -/
theorem run_error_left {r : Raise} (hk : k.StandsBefore tbuf c p (indexElem n :: es) is) (hn : n ∉ is)
    (e : (k.enter n).run tbuf c = .error r) : k.run tbuf c = .error r := by
  unfold Call.run Call.enter at *
  rw [hk.depth_eq, deserialize_fresh hk.pos_lt hk.elemAt_eq (hk.fresh hn), e]

/-- The fault of the right subtree's call is the fault of the node's call, once the left subtree is read. -/
theorem run_error_right {l : Option NodeIx} {w : Walk} {r : Raise} (hk : k.StandsBefore tbuf c p (indexElem n :: es) is)
    (hn : n ∉ is) (el : (k.enter n).run tbuf c = .ok (l, w))
    (e : Call.run tbuf c { k.enter n with walk := w } = .error r) : k.run tbuf c = .error r := by
  unfold Call.run Call.enter at *
  rw [hk.depth_eq, deserialize_fresh hk.pos_lt hk.elemAt_eq (hk.fresh hn), el]
  dsimp only at e ⊢
  rw [e]

/-- SUB 4 to 6: with its two subtrees read, the node is checked. -/
theorem run_error_shape {l r : Option NodeIx} {w₁ w₂ : Walk} {x : Raise}
    (hk : k.StandsBefore tbuf c p (indexElem n :: es) is) (hn : n ∉ is) (el : (k.enter n).run tbuf c = .ok (l, w₁))
    (er : Call.run tbuf c { k.enter n with walk := w₁ } = .ok (r, w₂)) (hx : shapeCheck n p l r = some x) :
    k.run tbuf c = .error x := by
  rw [← hk.pos] at hx
  unfold Call.run Call.enter at *
  rw [hk.depth_eq, deserialize_fresh hk.pos_lt hk.elemAt_eq (hk.fresh hn), el]
  dsimp only at er ⊢
  rw [er]
  dsimp only
  rw [hx]

/-- The node whose two subtrees follow is refused by its own checks. -/
theorem run_badShape {l r : Option Tree} {x : Raise}
    (hk : k.StandsBefore tbuf c p (indexElem n :: (subtreeElems l ++ subtreeElems r)) is)
    (hn : (is ++ n :: (subtreeIndices l ++ subtreeIndices r)).Nodup)
    (hs : ∀ t, l = some t ∨ r = some t → t.shaped = true)
    (hx : shapeCheck n p (l.map Tree.root) (r.map Tree.root) = some x) : k.run tbuf c = .error x := by
  have hfresh : n ∉ is := fun hmem => List.disjoint_of_nodup_append hn hmem List.mem_cons_self
  have hn' : ((is ++ [n]) ++ subtreeIndices l ++ subtreeIndices r).Nodup := by simpa using hn
  obtain ⟨w₁, el, hl⟩ := hk.enter.subtree (fun t ht => hs t (.inl ht)) (hn'.sublist (List.sublist_append_left _ _))
  rw [← List.append_nil (subtreeElems r)] at hl
  obtain ⟨w₂, er, -⟩ := hl.subtree (fun t ht => hs t (.inr ht)) hn'
  exact hk.run_error_shape hfresh el er hx

/-! ## The way down -/

/-- Past a node on the way down a call goes on whose fault is the fault of this one. -/
theorem descend {d : Descent} (hk : k.StandsBefore tbuf c p (d.elems ++ es) is) (hn : (is ++ d.indices).Nodup)
    (hd : d.shaped = true) :
    ∃ k' : Call, k'.StandsBefore tbuf c (p + d.elems.length) es (is ++ d.indices) ∧
      ∀ r, k'.run tbuf c = .error r → k.run tbuf c = .error r := by
  cases d with
  | inLeft n =>
    have hfresh : n ∉ is := fun hmem => List.disjoint_of_nodup_append hn hmem List.mem_cons_self
    exact ⟨k.enter n, Call.StandsBefore.enter hk, fun r => Call.StandsBefore.run_error_left hk hfresh⟩
  | inRight n l =>
    have hfresh : n ∉ is := fun hmem => List.disjoint_of_nodup_append hn hmem List.mem_cons_self
    have hshaped : ∀ t, l = some t → t.shaped = true := by
      rintro t rfl
      exact hd
    have hassoc : is ++ Descent.indices (.inRight n l) = (is ++ [n]) ++ subtreeIndices l := by simp [Descent.indices]
    have hlength : p + (Descent.elems (.inRight n l)).length = p + 1 + (subtreeElems l).length := by
      simp only [Descent.elems, List.length_cons]
      omega
    rw [hassoc] at hn
    rw [hassoc, hlength]
    obtain ⟨w, el, hw⟩ := Call.StandsBefore.subtree (Call.StandsBefore.enter hk) hshaped hn
    exact ⟨_, hw, fun r => Call.StandsBefore.run_error_right hk hfresh el⟩

/-- Behind the whole way down a call goes on whose fault is the fault of this one. -/
theorem descendAll : ∀ {ds : List Descent} {k : Call} {p : Nat} {is : List NodeIx},
    k.StandsBefore tbuf c p (readElems ds ++ es) is → (is ++ readIndices ds).Nodup → (∀ d ∈ ds, d.shaped = true) →
    ∃ k' : Call, k'.StandsBefore tbuf c (p + (readElems ds).length) es (is ++ readIndices ds) ∧
      ∀ r, k'.run tbuf c = .error r → k.run tbuf c = .error r
  | [], k, p, is, hk, _, _ => ⟨k, by simpa [readIndices, readElems] using hk, fun _ => id⟩
  | d :: ds, k, p, is, hk, hn, hd => by
    have helems : readElems (d :: ds) = d.elems ++ readElems ds := List.flatMap_cons
    have hindices : readIndices (d :: ds) = d.indices ++ readIndices ds := List.flatMap_cons
    rw [helems, List.append_assoc] at hk
    rw [hindices, ← List.append_assoc] at hn
    obtain ⟨k₁, hk₁, herr₁⟩ := hk.descend (hn.sublist (List.sublist_append_left _ _)) (hd d List.mem_cons_self)
    obtain ⟨k₂, hk₂, herr₂⟩ := descendAll hk₁ hn fun d hmem => hd d (List.mem_cons_of_mem _ hmem)
    refine ⟨k₂, ?_, fun r e => herr₁ r (herr₂ r e)⟩
    rwa [helems, hindices, List.length_append, ← Nat.add_assoc, ← List.append_assoc]

end Call.StandsBefore

/-! ## The faults of TREE_LOAD -/

/-- The call that TREE_LOAD makes (R152). -/
def Call.start (h : Hufb) (c : Nat) : Call :=
  { depth := c, parent := none, walk := { pos := 0, node := (cleared h).node } }

theorem standsBefore_start {h : Hufb} (hs : StartsWith h.tbuf es) (hlen : es.length ≤ c) (hc : c ≤ Config.tbufLen) :
    (Call.start h c).StandsBefore h.tbuf c 0 es [] where
  pos := rfl
  reads := readsAt_of_startsWith hs (hlen.trans hc)
  fits := by omega
  room := Nat.le_add_right _ _
  valid i := by simp [Call.start, Node.empty]

theorem treeLoad_start_error {h : Hufb} {c : BitVec 16} {r : Raise} (hc : countInRange c = true)
    (e : (Call.start h c.toNat).run h.tbuf c.toNat = .error r) : treeLoad c h = .raise r := by
  unfold Call.run Call.start at e
  rw [treeLoad, if_pos hc, treeClear_eq_cleared, e]

/-- Where every call behind the way down faults, TREE_LOAD enters that fault (R152, R201). -/
theorem exec_treeLoad_corrupted {s : State} {c : BitVec 16} {ds : List Descent} {es : List Elem} {sub : BitVec 4}
    (hreach : WalkReaches ds) (hlow : 1 ≤ c.toInt) (hhigh : c.toInt ≤ 1024)
    (hlen : ((readElems ds ++ es).length : Int) ≤ c.toInt) (hs : StartsWith s.hufb.tbuf (readElems ds ++ es))
    (herr : ∀ k : Call, k.StandsBefore s.hufb.tbuf c.toNat (readElems ds).length es (readIndices ds) →
      k.run s.hufb.tbuf c.toNat = .error (corrupted sub (readElems ds).length)) :
    exec (.treeLoad c) s =
      .next { s with hufb := faulted s.hufb .btreeCorrupted sub (BitVec.ofNat 16 (readElems ds).length) } := by
  obtain ⟨hnodup, hshaped⟩ := hreach
  have hrange : countInRange c = true := countInRange_iff.2 ⟨hlow, hhigh⟩
  have hnat := toNat_eq_of_countInRange hrange
  have hfit := toNat_le_of_countInRange hrange
  obtain ⟨k, hk, hup⟩ := (standsBefore_start hs (by omega) hfit).descendAll hnodup hshaped
  rw [Nat.zero_add] at hk
  exact exec_raise (r := corrupted sub (readElems ds).length) (treeLoad_start_error hrange (hup _ (herr k hk)))

theorem shapeCheck_oneChild {n : NodeIx} {l r : Option NodeIx} (h : l.isNone ≠ r.isNone) :
    shapeCheck n p l r = some (corrupted 4 p) :=
  if_pos (bne_iff_ne.2 h)

theorem shapeCheck_internalLeaf {n : NodeIx} (hn : 256 ≤ n.val) :
    shapeCheck n p none none = some (corrupted 5 p) := by
  simp [shapeCheck, Config.firstInternal, hn]

theorem shapeCheck_innerSymbol {n a b : NodeIx} (hn : n.val < 256) :
    shapeCheck n p (some a) (some b) = some (corrupted 6 p) := by
  simp [shapeCheck, Config.firstInternal, hn]

/-- Settles O39: the walk comes down to a call before the element in question, that call faults there, and its fault is
the fault of the load. -/
theorem treeLoadShapeFaults : Obligations.TreeLoadShapeFaults := by
  unfold Obligations.TreeLoadShapeFaults
  intro s c ds hreach hhigh
  refine ⟨fun hp hc hs => ?ends, fun v hv hne hc hs => ?badElem, fun n hn hc hs => ?repeated,
    fun n l r hnodup hshaped hc hs => ?shape⟩
  case ends =>
    rw [← List.append_nil (readElems ds)] at hs
    refine exec_treeLoad_corrupted hreach (by omega) hhigh (by simp [hc]) hs fun k hk => ?_
    have hnat := toNat_eq_of_countInRange (countInRange_iff.2 ⟨by omega, hhigh⟩)
    rw [← show c.toNat = (readElems ds).length by omega] at hk ⊢
    exact hk.run_end
  case badElem =>
    exact exec_treeLoad_corrupted hreach (by omega) hhigh (by simpa using hc) hs fun k hk => hk.run_badElem hv hne
  case repeated =>
    exact exec_treeLoad_corrupted hreach (by omega) hhigh (by simpa using hc) hs fun k hk => hk.run_repeated hn
  case shape =>
    have hlen : ((readElems ds ++ indexElem n :: (subtreeElems l ++ subtreeElems r)).length : Int) ≤ c.toInt := by
      simp only [List.length_append, List.length_cons]
      omega
    have hfault {sub : BitVec 4} (hx : shapeCheck n (readElems ds).length (l.map Tree.root) (r.map Tree.root) =
        some (corrupted sub (readElems ds).length)) :=
      exec_treeLoad_corrupted hreach (by omega) hhigh hlen hs fun k hk => hk.run_badShape hnodup hshaped hx
    refine ⟨fun hone => hfault (shapeCheck_oneChild (by simpa using hone)), ?_, ?_⟩
    · rintro rfl rfl hn
      exact hfault (shapeCheck_internalLeaf hn)
    · intro hl hr hn
      obtain ⟨a, rfl⟩ := Option.ne_none_iff_exists'.1 hl
      obtain ⟨b, rfl⟩ := Option.ne_none_iff_exists'.1 hr
      exact hfault (shapeCheck_innerSymbol hn)

/-! ## A truncated tree -/

/-- Every position inside a tree's preorder is one the walk reaches. -/
theorem Tree.exists_descents : ∀ {t : Tree} {m : Nat}, t.shaped = true → m < t.preorder.length →
    ∃ ds, readElems ds = t.preorder.take m ∧ readIndices ds <+: t.indices ∧ ∀ d ∈ ds, d.shaped = true
  | t, 0, _, _ => ⟨[], by simp [readElems], by simp [readIndices], by simp⟩
  | .leaf i, 1, _, _ => ⟨[.inLeft i], rfl, List.prefix_rfl, by simp [Descent.shaped]⟩
  | .leaf i, 2, _, _ => ⟨[.inRight i none], rfl, List.prefix_rfl, by simp [Descent.shaped]⟩
  | .leaf i, m + 3, _, hm => by simp [Tree.preorder] at hm
  | .node i l r, m + 1, hs, hm => by
    simp only [Tree.shaped, Bool.and_eq_true] at hs
    simp only [Tree.preorder, List.length_cons, List.length_append] at hm
    by_cases hl : m < l.preorder.length
    · obtain ⟨ds, helems, hindices, hshaped⟩ := exists_descents hs.1.2 hl
      refine ⟨.inLeft i :: ds, ?_, ?_, by simpa [Descent.shaped] using hshaped⟩
      · change indexElem i :: readElems ds = _
        rw [helems, Tree.preorder, List.take_succ_cons, List.take_append_of_le_length hl.le]
      · exact List.cons_prefix_cons.2 ⟨rfl, hindices.trans (List.prefix_append _ _)⟩
    · obtain ⟨ds, helems, hindices, hshaped⟩ := exists_descents (m := m - l.preorder.length) hs.2 (by omega)
      refine ⟨.inRight i (some l) :: ds, ?_, ?_, by simpa [Descent.shaped, hs.1.2] using hshaped⟩
      · change indexElem i :: (l.preorder ++ readElems ds) = _
        rw [helems, Tree.preorder, List.take_succ_cons, List.take_append, List.take_of_length_le (Nat.not_lt.1 hl)]
      · exact List.cons_prefix_cons.2 ⟨rfl, (List.prefix_append_right_inj _).2 hindices⟩

/-- Settles O38: the end of the count is a position the walk reaches. -/
theorem truncatedTreeFaults : Obligations.TruncatedTreeFaults := by
  unfold Obligations.TruncatedTreeFaults
  intro s c t hv hlow hlt hs
  have hsize := (serializedSize t hv).2
  have hnat := toNat_eq_of_countInRange (countInRange_iff.2 ⟨hlow, by omega⟩)
  obtain ⟨ds, helems, hindices, hshaped⟩ := t.exists_descents (m := c.toNat) hv.1 (by omega)
  have hlength : (readElems ds).length = c.toNat := by
    rw [helems, List.length_take]
    omega
  have hstarts : StartsWith s.hufb.tbuf (readElems ds) := fun k hk => by
    simp only [helems, List.getElem_take]
    exact hs k (by omega)
  have hfault := (treeLoadShapeFaults s c ds ⟨hv.2.sublist hindices.sublist, hshaped⟩ (by omega)).1 (by omega)
    (by omega) hstarts
  rwa [hlength, BitVec.ofNat_toNat, BitVec.setWidth_eq] at hfault

end Sys2Proof.Machine
end

section
/-! PROOFS. The symbol table: TABLE_GEN gives a symbol of the tree the path to its leaf as code (O41), so no code begins
another, every code leads to its leaf, and the codes fill the code space (O42). -/

namespace Sys2Proof.Machine

variable {h g : Hufb} {s u : State} {t : Tree} {i j : NodeIx} {y : SymIx} {p q : List Bool}

/-! ## Codes of a tree (R170, R171, R172) -/

/-- Only a leaf has a path that ends in it. -/
theorem Tree.mem_of_pathTo : ∀ {t : Tree} {p : List Bool}, t.pathTo i = some p → i ∈ t.leaves
  | .leaf j, p, e => by
    by_cases hj : j = i
    · simp [Tree.leaves, hj]
    · simp [Tree.pathTo, hj] at e
  | .node _ l r, p, e => by
    rw [Tree.leaves, List.mem_append]
    cases hl : l.pathTo i with
    | some q => exact .inl (mem_of_pathTo hl)
    | none =>
      obtain ⟨q, hq, -⟩ := Option.map_eq_some_iff.1 (by simpa [Tree.pathTo, hl] using e)
      exact .inr (mem_of_pathTo hq)

/-- With two leaves or more the root is an internal node, and the code of a leaf is its path. -/
theorem Tree.codeOf_eq_pathTo (hmany : 2 ≤ t.leaves.length) (i : NodeIx) : t.codeOf i = t.pathTo i := by
  cases t with
  | leaf j => simp [Tree.leaves] at hmany
  | node => rfl

/-- R171: a code has at least one bit and, in a tree with two leaves or more, fewer bits than there are leaves. -/
theorem Tree.codeOf_length (e : t.codeOf i = some p) : 1 ≤ p.length ∧ p.length ≤ max 1 (t.leaves.length - 1) := by
  cases t with
  | leaf j =>
    obtain ⟨-, rfl⟩ : j = i ∧ [false] = p := by simpa [Tree.codeOf] using e
    simp
  | node k l r =>
    have hfollow := Tree.follow_pathTo e
    have hlength := Tree.follow_length hfollow
    have hheight := (Tree.node k l r).height_lt_leaves_length
    have hne : p ≠ [] := by
      rintro rfl
      simp [Tree.follow] at hfollow
    exact ⟨List.length_pos_iff.2 hne, by omega⟩

/-- R172: there is no way on from a leaf, so a path to a leaf does not begin a path to another. -/
theorem Tree.eq_of_follow_prefix (hp : t.follow p = some (.leaf i)) (hq : t.follow q = some (.leaf j))
    (hpre : p <+: q) : i = j := by
  obtain ⟨rest, rfl⟩ := hpre
  rw [Tree.follow_append, hp, Option.bind_some] at hq
  cases rest with
  | nil => simpa [Tree.follow] using hq
  | cons x rest => simp [Tree.follow] at hq

/-- How many steps below the top leaf `i` stands. -/
def Tree.depth (t : Tree) (i : NodeIx) : Nat := ((t.pathTo i).getD []).length

theorem Tree.depth_of_pathTo (e : t.pathTo i = some p) : t.depth i = p.length := by
  rw [Tree.depth, e, Option.getD_some]

theorem Tree.depth_node_left {k : NodeIx} {l r : Tree} (hi : i ∈ l.leaves) :
    (Tree.node k l r).depth i = l.depth i + 1 := by
  obtain ⟨p, hp⟩ := Tree.pathTo_of_mem hi
  rw [Tree.depth_of_pathTo hp, Tree.depth_of_pathTo (p := false :: p) (by simp [Tree.pathTo, hp]), List.length_cons]

theorem Tree.depth_node_right {k : NodeIx} {l r : Tree} (hl : i ∉ l.leaves) (hi : i ∈ r.leaves) :
    (Tree.node k l r).depth i = r.depth i + 1 := by
  obtain ⟨p, hp⟩ := Tree.pathTo_of_mem hi
  have hnone : l.pathTo i = none := Option.eq_none_iff_forall_ne_some.2 fun q hq => hl (Tree.mem_of_pathTo hq)
  rw [Tree.depth_of_pathTo hp, Tree.depth_of_pathTo (p := true :: p) (by simp [Tree.pathTo, hp, hnone]),
    List.length_cons]

/-- R172, the Kraft sum times `2 ^ n`: the leaves of either subtree fill half of the code space. -/
theorem Tree.kraft_sum : ∀ {t : Tree} {n : Nat}, t.leaves.Nodup → t.height ≤ n →
    (t.leaves.map fun i => 2 ^ (n - t.depth i)).sum = 2 ^ n
  | .leaf i, n, _, _ => by simp [Tree.leaves, Tree.depth, Tree.pathTo]
  | .node k l r, 0, _, hn => by simp [Tree.height] at hn
  | .node k l r, n + 1, hd, hn => by
    obtain ⟨hl, hr, hdisj⟩ := List.nodup_append.1 hd
    simp only [Tree.height, Nat.add_le_add_iff_right, Nat.max_le] at hn
    have hleft : (l.leaves.map fun i => 2 ^ (n + 1 - (Tree.node k l r).depth i)) =
        l.leaves.map fun i => 2 ^ (n - l.depth i) :=
      List.map_congr_left fun i hi => by rw [Tree.depth_node_left hi, Nat.add_sub_add_right]
    have hright : (r.leaves.map fun i => 2 ^ (n + 1 - (Tree.node k l r).depth i)) =
        r.leaves.map fun i => 2 ^ (n - r.depth i) :=
      List.map_congr_left fun i hi => by
        rw [Tree.depth_node_right (fun hil => hdisj i hil i hi rfl) hi, Nat.add_sub_add_right]
    rw [Tree.leaves, List.map_append, List.sum_append, hleft, hright, kraft_sum hl hn.1, kraft_sum hr hn.2, pow_succ,
      mul_two]

/-! ## The entry of a symbol (R170) -/

/-- A result of `mapM` in `Option` has the value for each element at the element's place. -/
theorem getElem?_of_mapM_eq_some {α β : Type} {f : α → Option β} {x : α} :
    ∀ {xs : List α} {ys : List β} {k : Nat}, xs.mapM f = some ys → xs[k]? = some x →
      ∃ z, f x = some z ∧ ys[k]? = some z
  | [], _, _, _, hx => by simp at hx
  | a :: xs, ys, k, e, hx => by
    rw [List.mapM_cons] at e
    obtain ⟨z, hz, e⟩ := Option.bind_eq_some_iff.1 e
    obtain ⟨zs, hzs, e⟩ := Option.bind_eq_some_iff.1 e
    obtain rfl : z :: zs = ys := by simpa using e
    cases k with
    | zero =>
      obtain rfl : a = x := by simpa using hx
      exact ⟨z, hz, rfl⟩
    | succ k => simpa using getElem?_of_mapM_eq_some (k := k) hzs (by simpa using hx)

/-- TABLE_GEN stores for each symbol the entry it computes for it. -/
theorem tableGen_entry (e : tableGen h = .done g) (y : SymIx) :
    tableEntry h y (peek h.node (SymIx.node y)) = some ⟨peek g.len y, peek g.code y⟩ := by
  obtain ⟨es, hes, rfl⟩ := tableGen_done e
  have hslot : (symbolSlots h)[y.val]? = some (y, peek h.node (SymIx.node y)) := by simp [symbolSlots_eq]
  obtain ⟨x, hx, hstored⟩ := getElem?_of_mapM_eq_some hes hslot
  simp [hx, hstored]

theorem tableEntry_absent {slot : Node} (hv : slot.valid = false) : tableEntry h y slot = some (entryOfPath []) := by
  simp [tableEntry, hv]

/-- The entry of a symbol of the tree is its code. -/
theorem HasTree.tableEntry_symbol (ht : HasTree h t) (hy : SymIx.node y ∈ t.leaves) :
    ∃ p, t.codeOf (SymIx.node y) = some p ∧
      tableEntry h y (peek h.node (SymIx.node y)) = some (entryOfPath p) := by
  have hvalid := held_valid ht.held (Tree.leaves_subset_indices hy)
  cases t with
  | leaf j =>
    obtain rfl : SymIx.node y = j := by simpa [Tree.leaves] using hy
    exact ⟨[false], by simp [Tree.codeOf], by simp [tableEntry, hvalid, ht.root, Tree.root]⟩
  | node k l r =>
    obtain ⟨p, hp, hup⟩ := ht.pathUp_symbol hy
    have hroot : k ≠ SymIx.node y := by
      have hinternal := ht.valid.1
      simp only [Tree.shaped, Bool.and_eq_true, decide_eq_true_eq] at hinternal
      rintro rfl
      exact absurd hinternal.1.1 (Nat.not_le.2 y.isLt)
    exact ⟨p, hp, by simp [tableEntry, hvalid, ht.root, Tree.root, hroot, hup]⟩

theorem codeBits_length (h : Hufb) (y : SymIx) : (codeBits h y).length = (peek h.len y).toNat := by
  simp [codeBits]

/-- A table that holds the entry of a path holds its bits. -/
theorem codeBits_of_entryOfPath (hp : p.length ≤ Config.maxCodeLen)
    (e : entryOfPath p = ⟨peek g.len y, peek g.code y⟩) : codeBits g y = p := by
  obtain ⟨hlen, hcode⟩ := TableEntry.mk.inj e
  have hnat : (peek g.len y).toNat = p.length := by
    simp only [Config.maxCodeLen] at hp
    rw [← hlen, BitVec.toNat_ofNat]
    omega
  rw [codeBits, hnat, ← hcode, codeOfPath_bits hp]

/-! ## The table TABLE_GEN makes -/

theorem tableGen_done_of_exec (e : exec .tableGen s = .next u) : tableGen s.hufb = .done u.hufb := by
  obtain ⟨g, hdone, rfl⟩ | ⟨r, hraise, -⟩ := exec_next e
  · exact hdone
  · exact absurd hraise tableGen_not_raise

theorem HasTree.tableGen_codeOf (ht : HasTree h t) (e : tableGen h = .done g) (hy : SymIx.node y ∈ t.leaves) :
    t.codeOf (SymIx.node y) = some (codeBits g y) := by
  obtain ⟨p, hcode, hentry⟩ := ht.tableEntry_symbol hy
  have hfit : p.length ≤ Config.maxCodeLen := by
    have hlength := (Tree.codeOf_length hcode).2
    have hleaves := ht.valid.leaves_length_le
    simp only [Config.maxCodeLen]
    omega
  have hstored := Option.some.inj (hentry.symm.trans (tableGen_entry e y))
  rw [hcode, codeBits_of_entryOfPath hfit hstored]

theorem HasTree.tableGen_len (ht : HasTree h t) (e : tableGen h = .done g) (hy : SymIx.node y ∈ t.leaves) :
    1 ≤ (peek g.len y).toNat ∧ (peek g.len y).toNat ≤ max 1 (t.leaves.length - 1) :=
  codeBits_length g y ▸ Tree.codeOf_length (ht.tableGen_codeOf e hy)

theorem tableGen_absent (e : tableGen h = .done g) (hv : (peek h.node (SymIx.node y)).valid = false) :
    peek g.len y = 0 ∧ peek g.code y = 0 := by
  have hstored := Option.some.inj ((tableEntry_absent hv).symm.trans (tableGen_entry e y))
  obtain ⟨hlen, hcode⟩ := TableEntry.mk.inj hstored
  exact ⟨hlen.symm, hcode.symm⟩

/-- Settles O41: the way up from a symbol's slot is the path down to its leaf, reversed, and there is room for it. -/
theorem tableGenResult : Obligations.TableGenResult := by
  unfold Obligations.TableGenResult
  intro s ht
  obtain ⟨g, hg⟩ := tableGen_completes ht
  refine ⟨_, exec_done hg, ?_, congrArg (State.mk · s.env) (tableGen_frame hg),
    fun t y ht hy => ⟨ht.tableGen_codeOf hg hy, ht.tableGen_len hg hy⟩, fun y hv => tableGen_absent hg hv⟩
  obtain ⟨es, -, rfl⟩ := tableGen_done hg
  rfl

/-! ## The properties of a generated table (R172) -/

theorem SymIx.node_injective : Function.Injective SymIx.node := fun x y e => by
  simpa [SymIx.node, Fin.ext_iff] using e

theorem HasTree.tableGen_pathTo (ht : HasTree h t) (hmany : 2 ≤ t.leaves.length) (e : tableGen h = .done g)
    (hy : SymIx.node y ∈ t.leaves) : t.pathTo (SymIx.node y) = some (codeBits g y) :=
  Tree.codeOf_eq_pathTo hmany _ ▸ ht.tableGen_codeOf e hy

/-- A symbol has LEN 0 exactly if it is not in the tree. -/
theorem HasTree.tableGen_len_eq_zero_iff (ht : HasTree h t) (e : tableGen h = .done g) :
    (peek g.len y).toNat = 0 ↔ SymIx.node y ∉ t.leaves := by
  constructor
  · intro hzero hy
    have := (ht.tableGen_len e hy).1
    omega
  · intro hy
    have hslot : SymIx.node y ∉ t.indices := fun hi => hy (Tree.mem_leaves_of_lt ht.valid.1 hi y.isLt)
    rw [(tableGen_absent e (by rw [ht.others _ hslot]; rfl)).1]
    rfl

/-- The symbols of a tree are its leaves, each once: a sum over the former is one over the latter. -/
theorem Tree.Valid.sum_symbols (hv : t.Valid) (f : NodeIx → Nat) :
    ∑ x : SymIx, (if SymIx.node x ∈ t.leaves then f (SymIx.node x) else 0) = (t.leaves.map f).sum := by
  rw [← Finset.sum_filter, ← List.sum_toFinset _ (hv.2.sublist t.leaves_sublist_indices)]
  refine Finset.sum_nbij SymIx.node (by simp) SymIx.node_injective.injOn (fun i hi => ?_) fun _ _ => rfl
  have hi : i ∈ t.leaves := by simpa using hi
  exact ⟨⟨i.val, Tree.leaf_lt_of_shaped hv.1 hi⟩,
    Finset.mem_coe.2 (Finset.mem_filter.2 ⟨Finset.mem_univ _, hi⟩), rfl⟩

/-- What a symbol adds to the Kraft sum: its leaf's share of the code space, if it has a leaf. -/
theorem HasTree.tableGen_kraft_term (ht : HasTree h t) (hmany : 2 ≤ t.leaves.length) (e : tableGen h = .done g)
    (y : SymIx) : (if (peek g.len y).toNat = 0 then 0 else 2 ^ (255 - (peek g.len y).toNat)) =
      if SymIx.node y ∈ t.leaves then 2 ^ (255 - t.depth (SymIx.node y)) else 0 := by
  by_cases hy : SymIx.node y ∈ t.leaves
  · rw [if_neg (mt (ht.tableGen_len_eq_zero_iff e).1 (not_not.2 hy)), if_pos hy,
      Tree.depth_of_pathTo (ht.tableGen_pathTo hmany e hy), codeBits_length]
  · rw [if_pos ((ht.tableGen_len_eq_zero_iff e).2 hy), if_neg hy]

theorem HasTree.tableGen_kraft (ht : HasTree h t) (hmany : 2 ≤ t.leaves.length) (e : tableGen h = .done g) :
    ((List.finRange Config.symCount).map fun x =>
      if (peek g.len x).toNat = 0 then 0 else 2 ^ (255 - (peek g.len x).toNat)).sum = 2 ^ 255 := by
  have hheight : t.height ≤ 255 := by
    have := t.height_lt_leaves_length
    have := ht.valid.leaves_length_le
    omega
  rw [← Fin.sum_univ_def, Finset.sum_congr rfl fun x _ => ht.tableGen_kraft_term hmany e x,
    ht.valid.sum_symbols fun i => 2 ^ (255 - t.depth i),
    Tree.kraft_sum (ht.valid.2.sublist t.leaves_sublist_indices) hheight]

/-- Settles O42: a code is the path to its leaf, so the three properties are those of the tree's paths. -/
theorem generatedCodesArePrefixFree : Obligations.GeneratedCodesArePrefixFree := by
  unfold Obligations.GeneratedCodesArePrefixFree
  refine ⟨fun s u t ht hmany e => ?_, fun s u x ht e => ?_⟩
  · have hdone := tableGen_done_of_exec e
    have hfollow {x : SymIx} (hx : SymIx.node x ∈ t.leaves) : t.follow (codeBits u.hufb x) = some (.leaf x.node) :=
      Tree.follow_pathTo (ht.tableGen_pathTo hmany hdone hx)
    refine ⟨fun x y hx hy hne hpre => hne ?_, fun x hx => ⟨codeBits_length _ _, hfollow hx⟩,
      ht.tableGen_kraft hmany hdone⟩
    exact SymIx.node_injective (Tree.eq_of_follow_prefix (hfollow hx) (hfollow hy) hpre)
  · have hcode := ht.tableGen_codeOf (tableGen_done_of_exec e) (y := x) (by simp [Tree.leaves])
    simpa [Tree.codeOf] using hcode.symm

end Sys2Proof.Machine
end

section
/-! PROOFS. The bit packer (O43 to O46): what a string of `put_bit`s sends out and what it leaves waiting, said once for
any string of bits, so that ENC_SYM, ENC_FLUSH and the packed stream are read off it. -/

namespace Sys2Proof.Machine

variable {h h' : Hufb} {s : State} {b : Byte} {ss : List Byte} {q : List Byte} {xs ys : List Bool} {n : Nat}

/-! ## Bit strings cut into bytes (R65, R183) -/

theorem packBytes_length : (packBytes n xs).length = n := by
  induction n generalizing xs with
  | zero => rfl
  | succ n ih => rw [packBytes, List.length_cons, ih]

/-- The first `n` bytes are made of the first `8 n` bits. -/
theorem packBytes_take : packBytes n (xs.take (n * 8)) = packBytes n xs := by
  induction n generalizing xs with
  | zero => rfl
  | succ n ih =>
    rw [packBytes, packBytes, List.take_take, List.drop_take, Nat.min_eq_left (by omega),
      show (n + 1) * 8 - 8 = n * 8 by omega, ih]

theorem packBits_take (hn : n * 8 ≤ xs.length) : packBits (xs.take (n * 8)) = packBytes n xs := by
  rw [packBits, List.length_take, Nat.min_eq_left hn, show (n * 8 + 7) / 8 = n by omega, packBytes_take]

/-- Whole bytes can be packed before the bits that follow them. -/
theorem packBytes_append_packBits_drop (hn : n * 8 ≤ xs.length) :
    packBytes n xs ++ packBits (xs.drop (n * 8)) = packBits xs := by
  induction n generalizing xs with
  | zero => rfl
  | succ n ih =>
    have htail := ih (xs := xs.drop 8) (by rw [List.length_drop]; omega)
    rw [List.drop_drop, show 8 + n * 8 = (n + 1) * 8 by omega] at htail
    have hcount : (xs.length + 7) / 8 = ((xs.drop 8).length + 7) / 8 + 1 := by
      rw [List.length_drop]
      omega
    rw [packBytes, List.cons_append, htail, packBits, packBits, hcount, packBytes]

@[simp] theorem packBits_nil : packBits [] = [] := rfl

/-! ## A string of `put_bit`s (R180) -/

/-- The block has sent the bits' full bytes out after `q`, and the rest of them wait. -/
structure HasPacked (q : List Byte) (bits : List Bool) (h : Hufb) : Prop where
  packer : PackerOk h
  outq : h.outq = q ++ packBytes (bits.length / 8) bits
  pending : pendingBits h = bits.drop (bits.length / 8 * 8)

/-- Fewer than 8 bits wait. -/
theorem pendingBits_length_lt (hk : PackerOk h) : (pendingBits h).length < 8 := by
  have hlow := hk.posLow
  rw [pendingBits_length]
  omega

/-- A full byte sent out begins the packed string. -/
theorem HasPacked.cons_byte (hlen : ys.length = 8) (hp : HasPacked (q ++ [packByte ys]) xs h) :
    HasPacked q (ys ++ xs) h := by
  have hcount : (ys ++ xs).length / 8 = xs.length / 8 + 1 := by
    rw [List.length_append]
    omega
  refine ⟨hp.packer, ?_, ?_⟩
  · rw [hp.outq, hcount, packBytes, List.take_left' hlen, List.drop_left' hlen, List.append_assoc]
    rfl
  · rw [hp.pending, hcount, show (xs.length / 8 + 1) * 8 = ys.length + xs.length / 8 * 8 by omega,
      List.drop_append]
    simp

/-- R180 for a string of bits: they follow those that wait, and every 8 of them go out as a byte. -/
theorem putBits_hasPacked (xs : List Bool) (hk : PackerOk h) :
    HasPacked h.outq (pendingBits h ++ xs) (putBits xs h) := by
  induction xs generalizing h with
  | nil =>
    have hlt := pendingBits_length_lt hk
    have hzero : (pendingBits h).length / 8 = 0 := by omega
    rw [List.append_nil]
    exact ⟨hk, by simp [hzero, packBytes, putBits], by simp [hzero, putBits]⟩
  | cons x xs ih =>
    rw [List.append_cons]
    show HasPacked h.outq _ (putBits xs (putBit h x))
    by_cases hroom : 2 ≤ h.pos.toNat
    · obtain ⟨hk', hpending, hq, -⟩ := putBit_room hk hroom x
      rw [← hpending, ← hq]
      exact ih hk'
    · have hlow := hk.posLow
      have hone : h.pos.toNat = 1 := by omega
      obtain ⟨hk', hpending, hq, -⟩ := putBit_full hk hone x
      have hpacked := ih hk'
      rw [hpending, hq, List.nil_append] at hpacked
      exact hpacked.cons_byte (by rw [List.length_append, pendingBits_length, hone]; rfl)

/-! ## ENC_FLUSH (R182) -/

/-- The accumulator is the byte of the bits that wait, its unfilled low bits 0. -/
theorem acc_eq_packByte (hk : PackerOk h) : h.acc = packByte (pendingBits h) := by
  have hlow := hk.posLow
  have hlen := pendingBits_length h
  refine BitVec.eq_of_getLsbD_eq fun j hj => ?_
  rw [packByte, packFrom_getLsbD (by omega) (by omega)]
  by_cases hunfilled : j < h.pos.toNat
  · rw [hk.accLow j hunfilled, List.getElem?_eq_none (by omega)]
    simp
  · rw [List.getElem?_eq_getElem (by omega)]
    have hle : j ≤ 7 := by omega
    simp [pendingBits, hle, Nat.sub_sub_self hle]

/-- R182 on any packer state: the bits that wait go out as one zero-padded byte, if there are any. -/
theorem encFlush_eq (hk : PackerOk h) :
    encFlush h = { h with acc := 0, pos := 8, outq := h.outq ++ packBits (pendingBits h) } := by
  have hlow := hk.posLow
  have hhigh := hk.posHigh
  have hlen := pendingBits_length h
  unfold encFlush
  split
  case isTrue hpos =>
    have hcount : ((pendingBits h).length + 7) / 8 = 1 := by omega
    rw [packBits, hcount, packBytes, packBytes, List.take_of_length_le (by omega), ← acc_eq_packByte hk]
    rfl
  case isFalse hpos =>
    have hempty : pendingBits h = [] := List.length_eq_zero_iff.1 (by omega)
    have hpos8 : h.pos = 8 := BitVec.eq_of_toNat_eq (show h.pos.toNat = 8 by omega)
    have hacc : h.acc = 0 := by rw [acc_eq_packByte hk, hempty]; rfl
    rw [hempty, ← hpos8, ← hacc, packBits_nil, List.append_nil]

/-- Settles O45: POS decides between the two branches. -/
theorem encFlushResult : Obligations.EncFlushResult := by
  unfold Obligations.EncFlushResult
  refine fun s => ⟨fun hpos => ?waiting, fun hpos => ?empty⟩
  case waiting => exact exec_done (congrArg Effect.done (if_pos hpos))
  case empty => exact exec_done (congrArg Effect.done (if_neg (Nat.not_lt.2 hpos)))

/-! ## ENC_SYM (R181) -/

theorem encSym_eq_putBits (hv : h.tableV = true) (hl : peek h.len (symIx b) ≠ 0) :
    encSym b h = .done (putBits (codeBits h (symIx b)) h) := by
  rw [encSym, hv]
  exact if_neg hl

/-- Settles O44: the check of the table comes before that of the code. -/
theorem encSymFaults : Obligations.EncSymFaults := by
  unfold Obligations.EncSymFaults
  refine fun s b => ⟨fun hv => ?noTable, fun hv hl => ?noCode⟩
  case noTable => exact exec_raise (r := ⟨.invalidArgument, 1, byteValue b⟩) (by simp [effectOf, encSym, hv])
  case noCode => exact exec_raise (r := ⟨.invalidArgument, 2, byteValue b⟩) (by simp [effectOf, encSym, hv, hl])

/-- Settles O43: ENC_SYM puts the code's bits. With at most 7 bits waiting and at most 255 of the code, 32 bytes go
out at most. -/
theorem encSymResult : Obligations.EncSymResult := by
  unfold Obligations.EncSymResult
  intro s b hk hv hl
  have hpacked := putBits_hasPacked (codeBits s.hufb (symIx b)) hk
  have hlen : (pendingBits s.hufb ++ codeBits s.hufb (symIx b)).length =
      8 - s.hufb.pos.toNat + (peek s.hufb.len (symIx b)).toNat := by
    rw [List.length_append, pendingBits_length, codeBits_length]
  refine ⟨_, exec_done (encSym_eq_putBits hv hl), congrArg (State.mk · s.env) (putBits_frame _ s.hufb),
    hpacked.packer, ?_, hpacked.pending, by rw [hlen], ?_⟩
  · rw [packBits_take (Nat.div_mul_le_self _ _)]
    exact hpacked.outq
  · have hlow := hk.posLow
    have hcode := (peek s.hufb.len (symIx b)).isLt
    omega

/-! ## The packed stream (R183) -/

/-- The codes of a string, one after the other. -/
def stringBits (h : Hufb) (ss : List Byte) : List Bool := ss.flatMap fun b => codeBits h (symIx b)

/-- The codes are a matter of the table. -/
theorem codeBits_congr (hl : h'.len = h.len) (hc : h'.code = h.code) (y : SymIx) : codeBits h' y = codeBits h y := by
  rw [codeBits, codeBits, hl, hc]

theorem stringBits_congr (hl : h'.len = h.len) (hc : h'.code = h.code) : stringBits h' ss = stringBits h ss := by
  simp only [stringBits, codeBits_congr hl hc]

theorem stringBits_length :
    (stringBits h ss).length = (ss.map fun b => (peek h.len (symIx b)).toNat).sum := by
  simp only [stringBits, List.length_flatMap, codeBits_length]

/-- ENC_SYMs of a string put the bits of all its codes: no ENC_SYM changes the table. -/
theorem execAll_encSyms (hv : s.hufb.tableV = true) (hl : ∀ b ∈ ss, peek s.hufb.len (symIx b) ≠ 0) :
    execAll (encSymsCmds ss) s = .next { s with hufb := putBits (stringBits s.hufb ss) s.hufb } := by
  induction ss generalizing s with
  | nil => rfl
  | cons b bs ih =>
    have hfirst := exec_done (i := .encSym b) (encSym_eq_putBits hv (hl b List.mem_cons_self))
    have hframe := putBits_frame (codeBits s.hufb (symIx b)) s.hufb
    generalize hg : putBits (codeBits s.hufb (symIx b)) s.hufb = g at hfirst hframe
    have hlen : g.len = s.hufb.len := by rw [hframe]
    have hcode : g.code = s.hufb.code := by rw [hframe]
    have htab : g.tableV = s.hufb.tableV := by rw [hframe]
    have hrest := ih (s := { s with hufb := g }) (htab.trans hv)
      fun c hc => by simpa only [hlen] using hl c (List.mem_cons_of_mem b hc)
    rw [stringBits_congr (h := s.hufb) hlen hcode] at hrest
    refine (execAll_cons hfirst).trans (hrest.trans ?_)
    rw [← hg, stringBits, stringBits, List.flatMap_cons, putBits, putBits, putBits, List.foldl_append]

theorem execAll_append {is js : List Instr} {t : State} (e : execAll is s = .next t) :
    execAll (is ++ js) s = execAll js t := by
  induction is generalizing s with
  | nil => cases e; rfl
  | cons i is ih =>
    cases hi : exec i s with
    | next u =>
      rw [execAll_cons hi] at e
      rw [List.cons_append, execAll_cons hi, ih e]
    | fault f => simp [execAll, hi] at e
    | refused r => simp [execAll, hi] at e

/-- The block after ENC_SYMs of a string and ENC_FLUSH, from an empty accumulator (R183). -/
def streamed (ss : List Byte) (h : Hufb) : Hufb :=
  { h with acc := 0, pos := 8, outq := h.outq ++ packBits (stringBits h ss) }

/-- The whole bytes of the codes go out as they fill, the last one with the flush. -/
theorem encFlush_putBits (hk : PackerOk h) (hp : h.pos = 8) :
    encFlush (putBits (stringBits h ss) h) = streamed ss h := by
  have hpacked := putBits_hasPacked (stringBits h ss) hk
  have hnone : pendingBits h = [] := List.length_eq_zero_iff.1 (by rw [pendingBits_length, hp]; rfl)
  rw [hnone, List.nil_append] at hpacked
  rw [encFlush_eq hpacked.packer, hpacked.outq, hpacked.pending, List.append_assoc,
    packBytes_append_packBits_drop (Nat.div_mul_le_self _ _), putBits_frame]
  rfl

theorem execAll_stream (hk : PackerOk s.hufb) (hp : s.hufb.pos = 8) (hv : s.hufb.tableV = true)
    (hl : ∀ b ∈ ss, peek s.hufb.len (symIx b) ≠ 0) :
    execAll (encSymsCmds ss ++ [.encFlush]) s = .next { s with hufb := streamed ss s.hufb } := by
  rw [execAll_append (execAll_encSyms hv hl), ← encFlush_putBits hk hp]
  rfl

/-- Settles O46: the codes' bits are packed by the string of `put_bit`s and the flush. -/
theorem packedStreamLaw : Obligations.PackedStreamLaw := by
  unfold Obligations.PackedStreamLaw
  intro ss s hk hp hv hl
  refine ⟨_, execAll_stream hk hp hv hl, rfl, ?_, rfl⟩
  show (packBits (stringBits s.hufb ss)).length = _
  rw [packBits, packBytes_length, stringBits_length]

end Sys2Proof.Machine
end

section
/-! PROOFS. The decoder (O47 to O49) and its position (O57). On a tree with the decoder at one of its positions, the loop of
R185 answers what the walk of the tree answers, for a string of bits of any length. -/

namespace Sys2Proof.Machine

variable {h h' : Hufb} {s : State} {t cur : Tree} {i j : NodeIx} {x : Bool} {b : Byte}

/-! ## DEC_START (R184) -/

/-- REMAIN is the concatenation of the two halves of DEC_LEN. -/
theorem decStart_remain_toNat (h : Hufb) :
    (decStart h).remain.toNat = h.decLenHi.toNat * 2 ^ 32 + h.decLenLo.toNat := by
  show (h.decLenHi ++ h.decLenLo).toNat = _
  rw [BitVec.toNat_append, Nat.shiftLeft_eq, mul_comm, ← Nat.two_pow_add_eq_or_of_lt h.decLenLo.isLt]

/-- Settles O47: DEC_START always completes, and writes REMAIN and DEC_POS alone. -/
theorem decStartResult : Obligations.DecStartResult := by
  unfold Obligations.DecStartResult
  exact fun s => ⟨_, rfl, decStart_remain_toNat s.hufb, rfl, rfl⟩

/-! ## Where the decoder can stand (R186) -/

/-- A single leaf has no position but itself. -/
theorem Tree.IsPosition.eq_leaf (hp : (Tree.leaf i).IsPosition cur) : cur = .leaf i := by
  obtain rfl | ⟨⟨p, hp⟩, j, l, r, rfl⟩ := hp
  · rfl
  · cases p <;> simp [Tree.follow] at hp

theorem Tree.IsPosition.follow (hp : t.IsPosition cur) : ∃ p, t.follow p = some cur := by
  obtain rfl | ⟨hp, -⟩ := hp
  · exact ⟨[], by cases cur <;> rfl⟩
  · exact hp

/-- In a tree with children at the root a position has children. -/
theorem Tree.IsPosition.exists_node {k : NodeIx} {a c : Tree} (hp : (Tree.node k a c).IsPosition cur) :
    ∃ j l r, cur = .node j l r := by
  obtain rfl | ⟨-, hnode⟩ := hp
  · exact ⟨k, a, c, rfl⟩
  · exact hnode

/-- One step from a position. -/
theorem Tree.IsPosition.follow_child {l r : Tree} (hp : t.IsPosition (.node j l r)) (x : Bool) :
    ∃ p, t.follow p = some (if x then r else l) := by
  obtain ⟨p, hp⟩ := hp.follow
  refine ⟨p ++ [x], ?_⟩
  rw [Tree.follow_append, hp]
  cases x
  · cases l <;> rfl
  · cases r <;> rfl

theorem Tree.leaves_subset_of_follow : ∀ {t cur : Tree} {p : List Bool}, t.follow p = some cur →
    cur.leaves ⊆ t.leaves
  | t, cur, [], e => by
    obtain rfl : t = cur := by cases t <;> simpa [Tree.follow] using e
    exact List.Subset.refl _
  | .leaf _, _, _ :: _, e => by simp [Tree.follow] at e
  | .node _ l r, cur, x :: p, e => by
    rw [Tree.leaves]
    cases x
    · exact List.subset_append_of_subset_left _ (leaves_subset_of_follow (t := l) e)
    · exact List.subset_append_of_subset_right _ (leaves_subset_of_follow (t := r) e)

theorem Tree.mem_leaves_of_follow {p : List Bool} (e : t.follow p = some (.leaf i)) : i ∈ t.leaves :=
  Tree.leaves_subset_of_follow e List.mem_cons_self

/-! ## The walk, bit by bit (R185) -/

section Walk
variable {xs : List Bool} {n : Nat} {k : NodeIx} {a c l r l' r' : Tree}

@[simp] theorem Tree.walk_nil : t.walk cur n [] = ([], cur, n) := by
  unfold Tree.walk
  rfl

@[simp] theorem Tree.walk_zero : t.walk cur 0 xs = ([], cur, 0) := by
  cases xs <;> unfold Tree.walk <;> rfl

/-- A single leaf is emitted for every bit. -/
theorem Tree.walk_leaf : (Tree.leaf i).walk cur (n + 1) (x :: xs) =
    (i :: ((Tree.leaf i).walk cur n xs).1, ((Tree.leaf i).walk cur n xs).2) := by
  rw [Tree.walk]

/-- A bit that leads to a leaf emits it and goes back to the root. -/
theorem Tree.walk_reach (hx : (if x then r else l) = .leaf i) :
    (Tree.node k a c).walk (.node j l r) (n + 1) (x :: xs) =
      (i :: ((Tree.node k a c).walk (.node k a c) n xs).1, ((Tree.node k a c).walk (.node k a c) n xs).2) := by
  rw [Tree.walk]
  simp only [hx]

/-- A bit that leads to a node with children moves there. -/
theorem Tree.walk_move (hx : (if x then r else l) = .node i l' r') :
    (Tree.node k a c).walk (.node j l r) (n + 1) (x :: xs) =
      (Tree.node k a c).walk (.node i l' r') (n + 1) xs := by
  rw [Tree.walk]
  simp only [hx]

end Walk

/-- Induction over the bits of a walk from a position of the tree: the walk ends, or its first bit emits the single
leaf, reaches a leaf, or moves to a node with children. -/
theorem Tree.walk_induct {t : Tree} {P : Tree → Nat → List Bool → Prop}
    (hnil : ∀ {cur n}, t.IsPosition cur → P cur n [])
    (hzero : ∀ {cur xs}, t.IsPosition cur → P cur 0 xs)
    (hleaf : ∀ {i n x xs}, t = .leaf i → P t n xs → P t (n + 1) (x :: xs))
    (hreach : ∀ {k a c j l r i n x xs}, t = .node k a c → t.IsPosition (.node j l r) →
      (if x then r else l) = .leaf i → P t n xs → P (.node j l r) (n + 1) (x :: xs))
    (hmove : ∀ {k a c j l r i l' r' n x xs}, t = .node k a c → t.IsPosition (.node j l r) →
      (if x then r else l) = .node i l' r' → t.IsPosition (.node i l' r') → P (.node i l' r') (n + 1) xs →
      P (.node j l r) (n + 1) (x :: xs)) :
    ∀ {xs : List Bool} {cur : Tree} {n : Nat}, t.IsPosition cur → P cur n xs := by
  intro xs
  induction xs with
  | nil => exact hnil
  | cons x xs ih =>
    intro cur n hp
    cases n with
    | zero => exact hzero hp
    | succ n =>
      cases t with
      | leaf i =>
        obtain rfl := hp.eq_leaf
        exact hleaf rfl (ih hp)
      | node k a c =>
        obtain ⟨j, l, r, rfl⟩ := hp.exists_node
        cases hx : if x then r else l with
        | leaf i => exact hreach rfl hp hx (ih (.inl rfl))
        | node i l' r' =>
          have hp' : (Tree.node k a c).IsPosition (.node i l' r') := .inr ⟨hx ▸ hp.follow_child x, i, l', r', rfl⟩
          exact hmove rfl hp hx hp' (ih hp')

/-- What the answer `out` of a walk over `xs` with `n` symbols to go always meets: at most one leaf per bit, leaves of the
tree, a position of the tree, and a count that has not grown. -/
structure Tree.SoundWalk (t : Tree) (n : Nat) (xs : List Bool) (out : List NodeIx × Tree × Nat) : Prop where
  short : out.1.length ≤ xs.length
  leaves : ∀ i ∈ out.1, i ∈ t.leaves
  position : t.IsPosition out.2.1
  count : out.2.2 ≤ n

theorem Tree.SoundWalk.cons {xs : List Bool} {n : Nat} {out : List NodeIx × Tree × Nat} (hs : t.SoundWalk n xs out)
    (hi : i ∈ t.leaves) : t.SoundWalk (n + 1) (x :: xs) (i :: out.1, out.2) where
  short := Nat.succ_le_succ hs.short
  leaves := List.forall_mem_cons.2 ⟨hi, hs.leaves⟩
  position := hs.position
  count := Nat.le_succ_of_le hs.count

theorem Tree.walk_sound {xs : List Bool} {n : Nat} (hp : t.IsPosition cur) : t.SoundWalk n xs (t.walk cur n xs) := by
  refine Tree.walk_induct (P := fun cur n xs => t.SoundWalk n xs (t.walk cur n xs))
    (fun hp => ?nil) (fun hp => ?zero) (fun ht ih => ?leaf) (fun ht hp hx ih => ?reach)
    (fun ht hp hx _ ih => ?move) hp
  case nil =>
    rw [Tree.walk_nil]
    exact ⟨le_refl _, by simp, hp, le_refl _⟩
  case zero =>
    rw [Tree.walk_zero]
    exact ⟨Nat.zero_le _, by simp, hp, le_refl _⟩
  case leaf =>
    subst ht
    rw [Tree.walk_leaf]
    exact ih.cons List.mem_cons_self
  case reach =>
    obtain ⟨p, hreached⟩ := hp.follow_child _
    rw [hx] at hreached
    subst ht
    rw [Tree.walk_reach hx]
    exact ih.cons (Tree.mem_leaves_of_follow hreached)
  case move =>
    subst ht
    rw [Tree.walk_move hx]
    exact ⟨Nat.le_succ_of_le ih.short, ih.leaves, ih.position, ih.count⟩

/-! ## One bit on the block (R185) -/

/-- The symbols that are emitted for these leaves. -/
def leafBytes (is : List NodeIx) : List Byte := is.map fun i => BitVec.ofNat 8 i.val

/-- The block after leaf `i` is emitted and the decoder has gone to node `p`. -/
def emitted (i p : NodeIx) (h : Hufb) : Hufb :=
  { h with outq := h.outq ++ [BitVec.ofNat 8 i.val], remain := h.remain - 1, decPos := some p }

theorem emitSymbol_eq (hi : i.val < 256) (h : Hufb) :
    emitSymbol i h = .ok { emit (BitVec.ofNat 8 i.val) h with remain := h.remain - 1 } := by
  simp [emitSymbol, indexByte, Config.symCount, hi]

theorem HasTree.decBit_leaf (ht : HasTree h (.leaf i)) (hd : h.decPos = some i) :
    decBit (Tree.leaf i).root x h = .ok (emitted i (Tree.leaf i).root h) := by
  have hslot : peek h.node i = Node.leaf none := ht.held
  have hsymbol : i.val < 256 := Tree.leaf_lt_of_shaped ht.valid.1 List.mem_cons_self
  rw [Tree.root_leaf, decBit, if_pos (by rw [hslot]; rfl), emitSymbol_eq hsymbol, emitted, ← hd]
  rfl

/-- The slots of a position with children, and of its child. -/
theorem HasTree.child {l r : Tree} (ht : HasTree h t) (hp : t.IsPosition (.node j l r)) (x : Bool) :
    (if x then (peek h.node j).right else (peek h.node j).left) = some (if x then r else l).root ∧
      Tree.Held h.node (some j) (if x then r else l) := by
  obtain ⟨p, hp⟩ := hp.follow
  obtain ⟨q, hslot, hl, hr⟩ := follow_held ht.held hp
  rw [hslot]
  cases x
  · exact ⟨rfl, hl⟩
  · exact ⟨rfl, hr⟩

theorem held_node_left {nodes : Vector Node Config.nodeSlots} {q : Option NodeIx} {l r : Tree}
    (hh : Tree.Held nodes q (.node i l r)) : (peek nodes i).left ≠ none := by
  obtain ⟨hslot, -, -⟩ := hh
  rw [hslot]
  exact Option.some_ne_none _

section Inner
variable {k : NodeIx} {a c l r : Tree} (ht : HasTree h (.node k a c))
  (hp : (Tree.node k a c).IsPosition (.node j l r)) (hd : h.decPos = some j)
include ht hp hd

/-- A bit that leads to a leaf emits it and goes back to the root. -/
theorem HasTree.decBit_reach (hx : (if x then r else l) = .leaf i) :
    decBit (Tree.node k a c).root x h = .ok (emitted i (Tree.node k a c).root h) := by
  obtain ⟨hchild, hheld⟩ := ht.child hp x
  obtain ⟨p, hreached⟩ := hp.follow_child x
  rw [hx] at hchild hheld hreached
  have hslot : peek h.node i = Node.leaf (some j) := hheld
  have hsymbol : i.val < 256 := Tree.leaf_lt_of_shaped ht.valid.1 (Tree.mem_leaves_of_follow hreached)
  rw [Tree.root_node, decBit, if_neg (held_node_left ht.held), hd]
  simp only [hchild, Tree.root_leaf, hslot, Node.leaf, if_true, emitSymbol_eq hsymbol]
  rfl

/-- A bit that leads to a node with children moves there. -/
theorem HasTree.decBit_move {l' r' : Tree} (hx : (if x then r else l) = .node i l' r') :
    decBit (Tree.node k a c).root x h = .ok { h with decPos := some i } := by
  obtain ⟨hchild, hheld⟩ := ht.child hp x
  rw [hx] at hchild hheld
  rw [Tree.root_node, decBit, if_neg (held_node_left ht.held), hd]
  simp only [hchild, Tree.root_node, if_neg (held_node_left hheld)]

end Inner

/-! ## A string of bits on the block (R185, R186) -/

/-- The block after a walk that answers `out`. -/
def walked (out : List NodeIx × Tree × Nat) (h : Hufb) : Hufb :=
  { h with
    outq := h.outq ++ leafBytes out.1
    decPos := some out.2.1.root
    remain := BitVec.ofNat Config.remainBits out.2.2 }

theorem walked_nil (hd : h.decPos = some cur.root) : walked ([], cur, h.remain.toNat) h = h := by
  rw [walked, ← hd, BitVec.ofNat_toNat, BitVec.setWidth_eq, leafBytes, List.map_nil, List.append_nil]

theorem walked_emitted (i p : NodeIx) (out : List NodeIx × Tree × Nat) (h : Hufb) :
    walked out (emitted i p h) = walked (i :: out.1, out.2) h := by
  simp [walked, emitted, leafBytes]

theorem decBits_cons {r : NodeIx} {xs : List Bool} (hn : h.remain ≠ 0) (e : decBit r x h = .ok h') :
    decBits r (x :: xs) h = decBits r xs h' := by
  rw [decBits, if_neg hn, e]

theorem decBits_done {r : NodeIx} (hn : h.remain = 0) (xs : List Bool) : decBits r xs h = .ok h := by
  cases xs with
  | nil => rfl
  | cons x xs => rw [decBits, if_pos hn]

theorem remain_ne_zero {n : Nat} (hn : h.remain.toNat = n + 1) : h.remain ≠ 0 := by
  intro hzero
  simp [hzero] at hn

theorem emitted_remain_toNat {n : Nat} {p : NodeIx} (hn : h.remain.toNat = n + 1) :
    (emitted i p h).remain.toNat = n := by
  have hle : 1#64 ≤ h.remain := by
    rw [BitVec.le_def, hn]
    exact Nat.le_add_left 1 n
  exact (BitVec.toNat_sub_of_le hle).trans (by rw [hn]; rfl)

/-- From every block with tree `t`, the decoder at `cur` and `n` symbols to go, the loop over `xs` does what the walk
says. -/
def Tree.DecodesAsWalked (t cur : Tree) (n : Nat) (xs : List Bool) : Prop :=
  ∀ h, HasTree h t → h.decPos = some cur.root → h.remain.toNat = n →
    decBits t.root xs h = .ok (walked (t.walk cur n xs) h)

/-- R185: on a tree with the decoder at one of its positions, the loop does what the walk of the tree says. -/
theorem Tree.IsPosition.decodesAsWalked {n : Nat} {xs : List Bool} (hp : t.IsPosition cur) :
    t.DecodesAsWalked cur n xs := by
  refine Tree.walk_induct (P := t.DecodesAsWalked) (fun _ h _ hd hn => ?nil) (fun _ h _ hd hn => ?zero)
    (fun e ih h ht hd hn => ?leaf) (fun e hp hx ih h ht hd hn => ?reach) (fun e hp hx _ ih h ht hd hn => ?move) hp
  case nil => rw [Tree.walk_nil, ← hn, walked_nil hd, decBits]
  case zero =>
    have hstop := walked_nil hd
    rw [hn] at hstop
    rw [Tree.walk_zero, hstop, decBits_done (BitVec.eq_of_toNat_eq hn)]
  case leaf =>
    subst e
    rw [decBits_cons (remain_ne_zero hn) (ht.decBit_leaf hd), Tree.walk_leaf, ← walked_emitted]
    exact ih _ (ht.congr (h := h) rfl rfl) rfl (emitted_remain_toNat hn)
  case reach =>
    subst e
    rw [decBits_cons (remain_ne_zero hn) (ht.decBit_reach hp hd hx), Tree.walk_reach hx, ← walked_emitted]
    exact ih _ (ht.congr (h := h) rfl rfl) rfl (emitted_remain_toNat hn)
  case move =>
    subst e
    rw [decBits_cons (remain_ne_zero hn) (ht.decBit_move hp hd hx), Tree.walk_move hx]
    exact ih _ (ht.congr (h := h) rfl rfl) rfl hn

/-! ## DEC_BYTE (R185) -/

theorem decByte_done_of_remain (hn : h.remain = 0) : decByte b h = .done h := if_pos hn

theorem decByte_of_decBits {r : NodeIx} (hr : h.root = some r) (e : decBits r (bitsMsbFirst b) h = .ok h') :
    decByte b h = .done h' := by
  by_cases hn : h.remain = 0
  · rw [decBits_done hn] at e
    cases e
    exact decByte_done_of_remain hn
  · rw [decByte, if_neg hn, hr]
    simp only [e]

/-- Settles O48: the loop over the byte's eight bits does what the walk says, and REMAIN has room for its count. -/
theorem decByteResult : Obligations.DecByteResult := by
  unfold Obligations.DecByteResult
  refine fun s b => ⟨fun t cur ht hp hd => ?tree, fun hn => exec_done (decByte_done_of_remain hn)⟩
  case tree =>
    have hsound := Tree.walk_sound (n := s.hufb.remain.toNat) (xs := bitsMsbFirst b) hp
    have hdecode := hp.decodesAsWalked (xs := bitsMsbFirst b) s.hufb ht hd rfl
    exact ⟨_, exec_done (decByte_of_decBits ht.root hdecode), rfl, hsound.short, hsound.leaves, rfl, hsound.position,
      (BitVec.toNat_ofNat _ _).trans (Nat.mod_eq_of_lt (hsound.count.trans_lt s.hufb.remain.isLt)), rfl⟩

/-- Settles O49: with REMAIN not 0 the first thing DEC_BYTE asks for is the root. -/
theorem decByteNeedsATree : Obligations.DecByteNeedsATree := by
  unfold Obligations.DecByteNeedsATree
  intro s b hn hr
  exact exec_raise (r := ⟨.invalidArgument, 3, byteValue b⟩) ((if_neg hn).trans (by rw [hr]))

/-! ## The decoder position (R186) -/

theorem decPosOk_of_eq_root (e : h.decPos = h.root) : DecPosOk h := by
  cases hr : h.root with
  | none => exact .inl ⟨hr, e.trans hr⟩
  | some r => exact .inr ⟨r, r, hr, e.trans hr, .inl rfl⟩

theorem DecPosOk.congr (hn : h'.node = h.node) (hr : h'.root = h.root) (hd : h'.decPos = h.decPos) (hk : DecPosOk h) :
    DecPosOk h' := by
  rw [DecPosOk, hn, hr, hd]
  exact hk

/-- A command that completes leaves the tree and DEC_POS alone, or sets DEC_POS to the root, or is DEC_BYTE. -/
theorem effectOf_done_decPos {i : Instr} (e : effectOf i h = .done h') :
    (h'.node = h.node ∧ h'.root = h.root ∧ h'.decPos = h.decPos) ∨ h'.decPos = h'.root ∨ ∃ b, i = .decByte b := by
  cases i with
  | nop | histReset => cases e; exact .inl ⟨rfl, rfl, rfl⟩
  | histAdd b => rw [histAdd_frame e]; exact .inl ⟨rfl, rfl, rfl⟩
  | treeSerialize => rw [(treeSerialize_frame e).1]; exact .inl ⟨rfl, rfl, rfl⟩
  | tableGen => rw [tableGen_frame e]; exact .inl ⟨rfl, rfl, rfl⟩
  | encSym b => rw [(encSym_frame e).1]; exact .inl ⟨rfl, rfl, rfl⟩
  | encFlush =>
    obtain rfl : encFlush h = h' := by simpa [effectOf] using e
    rw [encFlush_frame]
    exact .inl ⟨rfl, rfl, rfl⟩
  | reset | treeReset | decStart => cases e; exact .inr (.inl rfl)
  | treeBuild => rw [treeBuild_done e]; exact .inr (.inl rfl)
  | treeLoad c =>
    obtain ⟨-, root, w, -, rfl⟩ := treeLoad_done e
    exact .inr (.inl rfl)
  | decByte b => exact .inr (.inr ⟨b, rfl⟩)

theorem decBits_decPosOk : ∀ {xs : List Bool} {h h' : Hufb}, HasTree h t → DecPosOk h →
    decBits t.root xs h = .ok h' → DecPosOk h'
  | [], h, h', _, hk, e => by
    cases e
    exact hk
  | x :: xs, h, h', ht, hk, e => by
    by_cases hn : h.remain = 0
    · rw [decBits_done hn] at e
      cases e
      exact hk
    · obtain ⟨g, hg⟩ := decBit_next ht hk x
      rw [decBits_cons hn hg] at e
      exact decBits_decPosOk (decBit_hasTree ht hg) (decBit_decPosOk ht hk hg) e

theorem decByte_decPosOk (ht : TreeOk h) (hk : DecPosOk h) (e : decByte b h = .done h') : DecPosOk h' := by
  obtain ⟨-, rfl⟩ | ⟨-, r, hr, hbits⟩ := decByte_done e
  · exact hk
  · obtain ⟨t, ht, rfl⟩ := ht.hasTree_of_root hr
    exact decBits_decPosOk ht hk hbits

theorem effectOf_done_decPosOk {i : Instr} (e : effectOf i h = .done h') (ht : TreeOk h) (hk : DecPosOk h) :
    DecPosOk h' := by
  obtain ⟨hn, hr, hd⟩ | hroot | ⟨b, rfl⟩ := effectOf_done_decPos e
  · exact hk.congr hn hr hd
  · exact decPosOk_of_eq_root hroot
  · exact decByte_decPosOk ht hk e

/-- Settles O57: the commands that write the tree or start the decoder set DEC_POS to the root; DEC_BYTE walks from a
position to a position, which takes the tree invariant. -/
theorem stepKeepsTheDecoderPosition : Obligations.StepKeepsTheDecoderPosition := by
  unfold Obligations.StepKeepsTheDecoderPosition
  intro s t ht hk e
  exact (step_keeps (P := fun h => TreeOk h ∧ DecPosOk h)
    (fun hd hP => ⟨hP.1.congr hd.node hd.root, hP.2.congr hd.node hd.root hd.decPos⟩)
    (fun hc hP => ⟨effectOf_done_treeOk hc hP.1, effectOf_done_decPosOk hc hP.1 hP.2⟩) e ⟨ht, hk⟩).2

end Sys2Proof.Machine
end

section
/-! PROOFS. The round trip of one chunk (O50). The encoding block leaves a serialized tree and the packed codes of its
leaves; the bits of packed bytes begin with the bits packed; and the walk of the decoder reaches, code by code, the
leaves of the string. -/

namespace Sys2Proof.Machine

variable {h h' g : Hufb} {s d : State} {t : Tree} {i : NodeIx} {b : Byte} {ss bs : List Byte} {es : List Elem}
  {xs ys : List Bool} {n : Nat}

/-! ## The bits of packed bytes (R65, R183) -/

theorem bitsMsbFirst_eq (b : Byte) : bitsMsbFirst b = (List.range 8).map fun j => b.getLsbD (7 - j) := rfl

/-- The bits of a packed byte begin with the bits packed; the rest of them is the padding. -/
theorem prefix_bitsMsbFirst_packByte (hl : xs.length ≤ 8) : xs <+: bitsMsbFirst (packByte xs) := by
  rw [List.prefix_iff_getElem?]
  intro k hk
  have hk8 : k < 8 := by omega
  rw [bitsMsbFirst_eq, List.getElem?_map, List.getElem?_range hk8, Option.map_some, packByte,
    packFrom_getLsbD (by omega) (by omega), show 7 - (7 - k) = k by omega, List.getElem?_eq_getElem hk]
  simp

theorem prefix_packBytes_bits (hl : xs.length ≤ n * 8) : xs <+: (packBytes n xs).flatMap bitsMsbFirst := by
  induction n generalizing xs with
  | zero =>
    obtain rfl : xs = [] := List.length_eq_zero_iff.1 (by omega)
    exact List.nil_prefix
  | succ n ih =>
    have hfirst := prefix_bitsMsbFirst_packByte (xs := xs.take 8) (List.length_take_le 8 xs)
    rw [packBytes, List.flatMap_cons]
    by_cases hfull : 8 ≤ xs.length
    · have hwhole := hfirst.eq_of_length (by rw [List.length_take, Nat.min_eq_left hfull]; rfl)
      have hrest := ih (xs := xs.drop 8) (by rw [List.length_drop]; omega)
      rw [← hwhole]
      conv_lhs => rw [← List.take_append_drop 8 xs]
      exact (List.prefix_append_right_inj _).2 hrest
    · rw [List.take_of_length_le (by omega)] at hfirst ⊢
      exact hfirst.trans (List.prefix_append _ _)

theorem prefix_packBits_bits (xs : List Bool) : xs <+: (packBits xs).flatMap bitsMsbFirst :=
  prefix_packBytes_bits (by omega)

/-! ## The walk along codes (R172, R185) -/

/-- Along the path to a leaf the walk emits that leaf and stands at the root again. -/
theorem Tree.walk_path {k : NodeIx} {a c : Tree} {p : List Bool} : ∀ {j : NodeIx} {l r : Tree},
    (Tree.node j l r).follow p = some (.leaf i) →
    (Tree.node k a c).walk (.node j l r) (n + 1) (p ++ xs) =
      (i :: ((Tree.node k a c).walk (.node k a c) n xs).1, ((Tree.node k a c).walk (.node k a c) n xs).2) := by
  induction p with
  | nil => intro j l r e; simp [Tree.follow] at e
  | cons x p ih =>
    intro j l r e
    have e' : (if x then r else l).follow p = some (.leaf i) := by cases x <;> exact e
    cases hx : if x then r else l with
    | leaf i' =>
      rw [hx] at e'
      cases p with
      | nil =>
        obtain rfl : i' = i := by simpa [Tree.follow] using e'
        exact Tree.walk_reach hx
      | cons y p => simp [Tree.follow] at e'
    | node i' l' r' =>
      rw [hx] at e'
      exact (Tree.walk_move hx).trans (ih e')

/-- The code of a symbol leads the walk from the root to the symbol's leaf. -/
theorem Tree.walk_codeOf {p : List Bool} (e : t.codeOf i = some p) :
    t.walk t (n + 1) (p ++ xs) = (i :: (t.walk t n xs).1, (t.walk t n xs).2) := by
  cases t with
  | leaf j =>
    obtain ⟨rfl, rfl⟩ : j = i ∧ [false] = p := by simpa [Tree.codeOf] using e
    exact Tree.walk_leaf
  | node k l r => exact Tree.walk_path (Tree.follow_pathTo e)

/-- The codes of a string lead the walk along the string's leaves, and the bits after them are not read. -/
theorem Tree.walk_codes {code : Byte → List Bool} (hc : ∀ b ∈ ss, t.codeOf (symNode b) = some (code b)) :
    t.walk t ss.length (ss.flatMap code ++ xs) = (ss.map symNode, t, 0) := by
  induction ss with
  | nil => exact Tree.walk_zero
  | cons b bs ih =>
    have hrest := ih fun c hcs => hc c (List.mem_cons_of_mem b hcs)
    rw [List.length_cons, List.flatMap_cons, List.append_assoc, Tree.walk_codeOf (hc b List.mem_cons_self), hrest,
      List.map_cons]

theorem leafBytes_map_symNode (ss : List Byte) : leafBytes (ss.map symNode) = ss := by
  have hbyte : (fun i : NodeIx => BitVec.ofNat 8 i.val) ∘ symNode = id := funext fun b => by
    simp [symNode]
  rw [leafBytes, List.map_map, hbyte, List.map_id]

/-! ## What a chunk is -/

/-- The serialized tree `es` and the packed bytes `bs` stand for the string `ss`: nothing is encoded, or the bytes are
packed from the codes that a tree gives the symbols of the string. -/
inductive IsChunkOf (ss : List Byte) : List Elem → List Byte → Prop where
  | empty : ss = [] → IsChunkOf ss [Config.sentinel] []
  | tree {t : Tree} {code : Byte → List Bool} : t.Valid → (∀ b ∈ ss, t.codeOf (symNode b) = some (code b)) →
      IsChunkOf ss t.preorder (packBits (ss.flatMap code))

theorem IsChunkOf.length_bounds (hc : IsChunkOf ss es bs) : 1 ≤ es.length ∧ es.length ≤ Config.tbufLen := by
  cases hc with
  | empty => simp [Config.tbufLen]
  | @tree t _ hv _ => exact ⟨by cases t <;> simp [Tree.preorder], hv.preorder_length_le⟩

/-! ## Decoding a chunk (R187) -/

/-- The loop of R185 over a string of bits can be cut anywhere. -/
theorem decBits_append {r : NodeIx} (e : decBits r (xs ++ ys) h = .ok h') :
    ∃ g, decBits r xs h = .ok g ∧ decBits r ys g = .ok h' := by
  induction xs generalizing h with
  | nil => exact ⟨_, rfl, e⟩
  | cons x xs ih =>
    by_cases hn : h.remain = 0
    · rw [decBits_done hn] at e
      cases e
      exact ⟨_, decBits_done hn _, decBits_done hn _⟩
    · cases hx : decBit r x h with
      | error f =>
        rw [List.cons_append, decBits, if_neg hn, hx] at e
        cases e
      | ok k =>
        rw [List.cons_append, decBits_cons hn hx] at e
        rw [decBits_cons hn hx]
        exact ih e

/-- DEC_BYTEs run the loop of R185 over the bits of all their bytes. -/
theorem execAll_decBytes {r : NodeIx} (hr : d.hufb.root = some r)
    (e : decBits r (bs.flatMap bitsMsbFirst) d.hufb = .ok h) :
    execAll (decBytesCmds bs) d = .next { d with hufb := h } := by
  induction bs generalizing d with
  | nil => cases e; rfl
  | cons b bs ih =>
    rw [List.flatMap_cons] at e
    obtain ⟨g, hfirst, hrest⟩ := decBits_append e
    have hroot : g.root = d.hufb.root := by rw [(decBits_frame hfirst).1]
    have hexec := exec_done (i := .decByte b) (decByte_of_decBits hr hfirst)
    exact (execAll_cons hexec).trans (ih (d := { d with hufb := g }) (hroot.trans hr) hrest)

/-- From the root, the packed codes of a string emit the string and count REMAIN down to 0. -/
theorem HasTree.decBits_packed {code : Byte → List Bool} (ht : HasTree h t) (hd : h.decPos = some t.root)
    (hn : h.remain.toNat = ss.length) (hc : ∀ b ∈ ss, t.codeOf (symNode b) = some (code b)) :
    decBits t.root ((packBits (ss.flatMap code)).flatMap bitsMsbFirst) h =
      .ok { h with outq := h.outq ++ ss, decPos := some t.root, remain := 0 } := by
  obtain ⟨pad, hpad⟩ := prefix_packBits_bits (ss.flatMap code)
  have hwalk := Tree.IsPosition.decodesAsWalked (xs := ss.flatMap code ++ pad) (.inl rfl) h ht hd hn
  rw [Tree.walk_codes hc, walked, leafBytes_map_symNode] at hwalk
  rw [← hpad]
  exact hwalk

theorem hasTree_decStart (ht : HasTree h t) : HasTree (decStart h) t := ht.congr (h := h) rfl rfl

/-- A block that holds the tree of a chunk and the length of its string decodes the chunk to the string. -/
theorem IsChunkOf.decodes {c : BitVec 16} (hc : IsChunkOf ss es bs) (hcount : c.toNat = es.length)
    (hs : StartsWith d.hufb.tbuf es)
    (hlen : d.hufb.decLenHi.toNat * 2 ^ 32 + d.hufb.decLenLo.toNat = ss.length) :
    ∃ u, execAll (.treeLoad c :: .decStart :: decBytesCmds bs) d = .next u ∧
      u.hufb.outq = d.hufb.outq ++ ss ∧ u.hufb.remain = 0 ∧ u.hufb.fault = d.hufb.fault := by
  have hrange : countInRange c = true :=
    countInRange_of_toNat (hcount ▸ hc.length_bounds.1) (hcount ▸ hc.length_bounds.2)
  have hremain (nodes root m) : (decStart (loaded nodes root m d.hufb)).remain.toNat = ss.length :=
    (decStart_remain_toNat _).trans hlen
  cases hc with
  | empty hnil =>
    have hload := exec_done (i := .treeLoad c) (treeLoad_sentinel hrange hs)
    refine ⟨_, (execAll_cons hload).trans (execAll_cons rfl), ?_, ?_, rfl⟩
    · rw [hnil, List.append_nil]
      rfl
    · exact BitVec.eq_of_toNat_eq ((hremain _ _ _).trans (by rw [hnil]; rfl))
  | @tree t code hv hcodes =>
    obtain ⟨nodes, hdone, ht⟩ := treeLoad_preorder hv hrange hcount.ge hs
    have hload := exec_done (i := .treeLoad c) hdone
    have hdec := (hasTree_decStart ht).decBits_packed rfl (hremain _ _ _) hcodes
    have hbytes := execAll_decBytes (d := { d with hufb := decStart (loaded nodes _ _ d.hufb) }) rfl hdec
    exact ⟨_, (execAll_cons hload).trans ((execAll_cons rfl).trans hbytes), rfl, rfl, rfl⟩

/-! ## The histogram of the string (R48, R127) -/

theorem exists_symNode_eq (hi : i.val < 256) : ∃ b, symNode b = i :=
  ⟨BitVec.ofNat 8 i.val, Fin.ext (by simp [symNode]; omega)⟩

theorem IsHistogramOf.peek_eq_zero_iff (hh : IsHistogramOf ss h) : peek h.hist (symNode b) = 0 ↔ b ∉ ss := by
  rw [← List.count_eq_zero, ← hh.count b]
  exact BitVec.toNat_inj.symm

theorem IsHistogramOf.mem_activeSymbols_iff (hh : IsHistogramOf ss h) : symNode b ∈ activeSymbols h ↔ b ∈ ss := by
  rw [mem_activeSymbols, and_iff_right (show (symNode b).val < 256 from b.isLt), ne_eq, hh.peek_eq_zero_iff, not_not]

theorem IsHistogramOf.histOk (hh : IsHistogramOf ss h) : HistOk h := by
  have hstart := hh.start
  unfold HistOk
  split
  case h_1 st hst =>
    rw [hst] at hstart
    obtain ⟨⟨m, -, rfl⟩, hle⟩ := hstart
    intro i hi
    obtain ⟨b, rfl⟩ := exists_symNode_eq (lt_trans hi m.isLt)
    exact hh.peek_eq_zero_iff.2 fun hb => absurd hi (not_lt.2 (hle b hb))
  case h_2 hst =>
    rw [hst] at hstart
    obtain rfl : ss = [] := hstart
    intro i hi
    obtain ⟨b, rfl⟩ := exists_symNode_eq hi
    exact hh.peek_eq_zero_iff.2 List.not_mem_nil

/-- The weights of a string's histogram sum up to its length. -/
theorem IsHistogramOf.totalWeight_eq (hh : IsHistogramOf ss h) : totalWeight h = ss.length := by
  rw [totalWeight, ← List.sum_toFinset _ (activeSymbols_nodup h), ← List.sum_toFinset_count_eq_length]
  refine (Finset.sum_nbij symNode (fun b hb => ?_) symNode_injective.injOn (fun i hi => ?_)
    fun b _ => (hh.count b).symm).symm
  · exact List.mem_toFinset.2 (hh.mem_activeSymbols_iff.2 (List.mem_toFinset.1 hb))
  · have hi : i ∈ activeSymbols h := by simpa using hi
    obtain ⟨b, rfl⟩ := exists_symNode_eq (mem_activeSymbols.1 hi).1
    exact ⟨b, by simpa using hh.mem_activeSymbols_iff.1 hi, rfl⟩

/-! ## Encoding a chunk (R96, R232) -/

/-- An encoder at the start of a chunk: no bit waits, nothing is to be sent, no fault. -/
structure EncoderIdle (h : Hufb) : Prop where
  packer : PackerOk h
  pos : h.pos = 8
  outq : h.outq = []
  fault : h.fault = false

theorem EncoderIdle.congr (ha : h'.acc = h.acc) (hp : h'.pos = h.pos) (hq : h'.outq = h.outq)
    (hf : h'.fault = h.fault) (hi : EncoderIdle h) : EncoderIdle h' :=
  ⟨hi.packer.congr ha hp, hp.trans hi.pos, hq.trans hi.outq, hf.trans hi.fault⟩

/-- The serialized tree in TBUF. -/
def serialized (h : Hufb) : List Elem := h.tbuf.toList.take h.tcount.toNat

section Stored
variable (es : List Elem) (h : Hufb)

@[simp] theorem stored_node : (stored es h).node = h.node := by rw [stored]
@[simp] theorem stored_root : (stored es h).root = h.root := by rw [stored]
@[simp] theorem stored_acc : (stored es h).acc = h.acc := by rw [stored]
@[simp] theorem stored_pos : (stored es h).pos = h.pos := by rw [stored]
@[simp] theorem stored_outq : (stored es h).outq = h.outq := by rw [stored]

end Stored

theorem toNat_stored_tcount (hfit : es.length ≤ Config.tbufLen) : (stored es h).tcount.toNat = es.length := by
  rw [stored]
  exact toNat_ofNat_tcount hfit

theorem serialized_stored (hfit : es.length ≤ Config.tbufLen) : serialized (stored es h) = es := by
  rw [serialized, toNat_stored_tcount hfit]
  refine List.ext_getElem (by simpa using hfit) fun k hk hk' => ?_
  have hstored := peek_storeElems es h.tbuf ⟨k, hk'.trans_le hfit⟩
  rw [dif_pos hk'] at hstored
  simpa [peek, stored] using hstored

theorem serialized_length (hle : h.tcount.toNat ≤ Config.tbufLen) : (serialized h).length = h.tcount.toNat := by
  simpa [serialized] using hle

/-- The encoder is ready to send the string `ss`: the tree is serialized, and each symbol of the string has its code. -/
structure ReadyToSend (ss : List Byte) (h : Hufb) : Prop where
  idle : EncoderIdle h
  table : h.tableV = true
  codes : ∀ b ∈ ss, peek h.len (symIx b) ≠ 0
  count : h.tcount.toNat ≤ Config.tbufLen
  chunk : IsChunkOf ss (serialized h) (packBits (stringBits h ss))

/-- TABLE_GEN with a serialized tree in TBUF makes the encoder ready. -/
theorem readyToSend_of_tableGen (hi : EncoderIdle h) (hcount : h.tcount.toNat ≤ Config.tbufLen)
    (hg : tableGen h = .done g) (hcodes : ∀ b ∈ ss, peek g.len (symIx b) ≠ 0)
    (hchunk : IsChunkOf ss (serialized h) (packBits (stringBits g ss))) : ReadyToSend ss g := by
  obtain ⟨entries, -, hframe⟩ := tableGen_done hg
  have hserialized : serialized g = serialized h := by rw [hframe, serialized, serialized]
  refine ⟨?_, by rw [hframe], hcodes, by rwa [hframe], hserialized.symm ▸ hchunk⟩
  rw [hframe]
  exact hi.congr (h := h) rfl rfl rfl rfl

theorem readyToSend_of_stored (hi : EncoderIdle h) (hg : tableGen (stored es h) = .done g)
    (hcodes : ∀ b ∈ ss, peek g.len (symIx b) ≠ 0) (hchunk : IsChunkOf ss es (packBits (stringBits g ss))) :
    ReadyToSend ss g := by
  have hfit := hchunk.length_bounds.2
  have hidle := hi.congr (stored_acc es h) (stored_pos es h) (stored_outq es h) (stored_fault es h)
  exact readyToSend_of_tableGen hidle ((toNat_stored_tcount hfit).trans_le hfit) hg hcodes
    ((serialized_stored hfit).symm ▸ hchunk)

/-- On a tree with every symbol of the string, or on none for the empty string, TREE_SERIALIZE and TABLE_GEN make the
encoder ready. -/
theorem TreeOk.exists_readyToSend (ht : TreeOk h) (hi : EncoderIdle h)
    (hsym : ∀ b ∈ ss, (peek h.node (symNode b)).valid = true) :
    ∃ es g, treeSerialize h = .done (stored es h) ∧ tableGen (stored es h) = .done g ∧ ReadyToSend ss g := by
  have htable (es : List Elem) : ∃ g, tableGen (stored es h) = .done g :=
    tableGen_completes (ht.congr (stored_node es h) (stored_root es h))
  obtain hn | ⟨t, ht⟩ := ht
  · obtain ⟨g, hg⟩ := htable [Config.sentinel]
    obtain rfl : ss = [] := List.eq_nil_iff_forall_not_mem.2 fun b hb => by
      simpa [hn.empty, Node.empty] using hsym b hb
    have hchunk : IsChunkOf [] [Config.sentinel] (packBits (stringBits g [])) := by
      rw [stringBits, List.flatMap_nil, packBits_nil]
      exact .empty rfl
    exact ⟨_, g, treeSerialize_noRoot hn.root, hg, readyToSend_of_stored hi hg (by simp) hchunk⟩
  · obtain ⟨g, hg⟩ := htable t.preorder
    have ht' := ht.congr (stored_node t.preorder h) (stored_root t.preorder h)
    have hleaf (b) (hb : b ∈ ss) : (symIx b).node ∈ t.leaves :=
      Tree.mem_leaves_of_lt ht.valid.1 (ht.mem_indices_of_valid (hsym b hb)) b.isLt
    refine ⟨_, g, treeSerialize_hasTree ht, hg, readyToSend_of_stored hi hg (fun b hb hzero => ?_)
      (.tree ht.valid fun b hb => ht'.tableGen_codeOf hg (hleaf b hb))⟩
    exact (ht'.tableGen_len_eq_zero_iff hg).1 (congrArg BitVec.toNat hzero) (hleaf b hb)

/-- HIST_RESET and the HIST_ADDs of a string leave its histogram and an idle encoder. -/
theorem execAll_histogram (hlen : ss.length < 2 ^ 64) (hi : EncoderIdle s.hufb) :
    ∃ t, execAll (.histReset :: histAddsCmds ss) s = .next t ∧ IsHistogramOf ss t.hufb ∧ EncoderIdle t.hufb := by
  obtain ⟨t, hrun, hh, hframe⟩ :=
    execAll_histAdds (s := { s with hufb := histReset s.hufb }) (isHistogramOf_histReset s.hufb) hlen
  refine ⟨t, (execAll_cons rfl).trans hrun, hh, ?_⟩
  rw [hframe]
  exact hi.congr (h := s.hufb) rfl rfl rfl rfl

/-- From the histogram of a string the build cannot overflow, and its tree has every symbol of the string. -/
theorem IsHistogramOf.execAll_table (hh : IsHistogramOf ss s.hufb) (hlen : ss.length < 2 ^ 64)
    (hi : EncoderIdle s.hufb) :
    ∃ t, execAll [.treeBuild, .treeSerialize, .tableGen] s = .next t ∧ ReadyToSend ss t.hufb := by
  obtain ⟨t, hbuild, hframe, htree, hsymbols, -⟩ :=
    treeBuildResult s hh.histOk (hh.totalWeight_eq ▸ hlen)
  have hidle : EncoderIdle t.hufb := by
    rw [hframe]
    exact hi.congr (h := s.hufb) rfl rfl rfl rfl
  obtain ⟨es, g, hser, htab, hready⟩ := TreeOk.exists_readyToSend (ss := ss) htree hidle
    fun b hb => (hsymbols (symNode b) b.isLt).2 (hh.mem_activeSymbols_iff.2 hb)
  have hser := exec_done (i := .treeSerialize) hser
  have htab := exec_done (s := { t with hufb := stored es t.hufb }) (i := .tableGen) htab
  exact ⟨_, (execAll_cons hbuild).trans ((execAll_cons hser).trans (execAll_cons htab)), hready⟩

/-- ENCODE_CHUNK makes the encoder ready for the string and sends it. -/
theorem execAll_encodeChunk (hlen : ss.length < 2 ^ 64) (hi : EncoderIdle s.hufb) :
    ∃ t : State, ReadyToSend ss t.hufb ∧
      execAll (encodeChunkCmds ss) s = .next { t with hufb := streamed ss t.hufb } := by
  obtain ⟨s₁, hhist, hh, hi₁⟩ := execAll_histogram hlen hi
  obtain ⟨s₂, htable, hready⟩ := hh.execAll_table hlen hi₁
  refine ⟨s₂, hready, ?_⟩
  rw [encodeChunkCmds, List.append_assoc, List.append_assoc, execAll_append hhist, execAll_append htable]
  exact execAll_stream hready.idle.packer hready.idle.pos hready.table hready.codes

/-- Settles O50: what ENCODE_CHUNK leaves is a chunk of the string, and a chunk decodes to its string. -/
theorem chunkRoundTrip : Obligations.ChunkRoundTrip := by
  unfold Obligations.ChunkRoundTrip
  intro ss s hlen hk hp hq hf
  obtain ⟨t, hready, hrun⟩ := execAll_encodeChunk hlen ⟨hk, hp, hq, hf⟩
  refine ⟨_, hrun, hready.idle.fault, fun d hdq hdf hs hdlen => ?_⟩
  have hcount : (t.hufb.tcount.setWidth 16).toNat = (serialized t.hufb).length := by
    rw [serialized_length hready.count, BitVec.toNat_setWidth, Nat.mod_eq_of_lt (t.hufb.tcount.isLt.trans (by decide))]
  obtain ⟨u, hdec, hu, hremain, hfault⟩ := hready.chunk.decodes hcount hs hdlen
  have hsent : (streamed ss t.hufb).outq = packBits (stringBits t.hufb ss) := by
    rw [streamed, hready.idle.outq, List.nil_append]
  rw [hsent]
  exact ⟨u, hdec, by rw [hu, hdq, List.nil_append], hremain, hfault.trans hdf,
    fun b => exec_done (i := .decByte b) (decByte_done_of_remain hremain)⟩

end Sys2Proof.Machine
end

section
/-! PROOFS. The exceptions: a command's fault is precise (O19), the first fault stays until reset (O20), and the
interrupt line (O21). -/

namespace Sys2Proof.Machine

variable {h h' : Hufb} {s t : State}

/-- A command that completes raises nothing: RESET clears FAULT and every other command leaves it alone. -/
theorem effectOf_done_fault_clear {i : Instr} (e : effectOf i h = .done h') (hclear : h.fault = false) :
    h'.fault = false := by
  by_cases hi : i = .reset
  · subst hi
    cases e
    rfl
  · exact (effectOf_done_frame hi e).1.trans hclear

/-- Settles O19: FAULT = 1 means that the command has raised, and then its state is fault entry with one of the causes a
command can raise. -/
theorem faultsArePrecise : Obligations.FaultsArePrecise := by
  unfold Obligations.FaultsArePrecise
  intro i s t hclear e hfault
  obtain ⟨g, hdone, rfl⟩ | ⟨r, hraise, rfl⟩ := exec_next e
  · exact absurd hfault (by simp [effectOf_done_fault_clear hdone hclear])
  · exact ⟨r.cause, r.sub, r.value, rfl, effectOf_raise hraise⟩

/-! ## Steps from FAULT = 1 (R64, R203, R206) -/

/-- The two blocks agree on FAULT and on the registers that say which fault it is. -/
structure SameFault (h h' : Hufb) : Prop where
  fault : h'.fault = h.fault
  cause : h'.cause = h.cause
  fcmd : h'.fcmd = h.fcmd
  finfoSub : h'.finfoSub = h.finfoSub
  finfoValue : h'.finfoValue = h.finfoValue

theorem writeLoc_sameFault {v : Word} {l : Loc} (e : writeLoc h v l = some h') :
    SameFault h h' ∧ h'.outq = h.outq := by
  rw [writeLoc_frame e]
  exact ⟨by constructor <;> rfl, rfl⟩

/-- The one word that is issued while FAULT = 1 resets the block. -/
theorem issue_resetWord (s : State) : issue resetWord s = .next (resetBlock s) :=
  issue_of_decode (i := .reset) (decode_encode .reset)

/-- All a step from FAULT = 1 can do: reset the block, leave the fault and OUTQ alone, or, while bytes are still in
OUTQ, let the sink take or refuse one, with FAULT still 1. -/
theorem step_cases_of_fault (hf : s.hufb.fault = true) (e : step s = .next t) :
    t.hufb = Hufb.reset ∨ (SameFault s.hufb t.hufb ∧ t.hufb.outq = s.hufb.outq) ∨
      (s.hufb.outq ≠ [] ∧ t.hufb.fault = true) := by
  obtain hsame | ⟨l, v, hw⟩ | ⟨b, q, hq, hpop⟩ | ⟨hq, hrw⟩ | hreset | ⟨w, u, -, hw, -, hissue⟩ :=
    step_cases e
  · rw [hsame]
    exact .inr (.inl ⟨by constructor <;> rfl, rfl⟩)
  · exact .inr (.inl (writeLoc_sameFault hw))
  · exact .inr (.inr ⟨by simp [hq], by rw [hpop]; exact hf⟩)
  · exact .inr (.inr ⟨hq, by rw [hrw]; rfl⟩)
  · exact .inl hreset
  · obtain rfl : w = resetWord := hw.resolve_left (by simp [hf])
    rw [issue_resetWord] at hissue
    cases hissue
    exact .inl rfl

/-- Settles O20: with OUTQ empty the sink has no byte to report an error on, and no other step from FAULT = 1 but a
reset writes the fault registers or OUTQ. -/
theorem firstFaultWins : Obligations.FirstFaultWins := by
  unfold Obligations.FirstFaultWins
  intro s t hf hq e
  obtain hreset | ⟨⟨hfault, hcause, hfcmd, hsub, hvalue⟩, houtq⟩ | ⟨hne, -⟩ := step_cases_of_fault hf e
  · exact .inr hreset
  · exact .inl ⟨hfault.trans hf, hcause, hfcmd, hsub, hvalue, houtq.trans hq⟩
  · exact absurd hq hne

/-- With bytes in OUTQ or without, FAULT falls by a reset alone. -/
theorem step_clears_fault (hf : s.hufb.fault = true) (e : step s = .next t) (hclear : t.hufb.fault = false) :
    t.hufb = Hufb.reset := by
  obtain hreset | ⟨hsame, -⟩ | ⟨-, hfault⟩ := step_cases_of_fault hf e
  · exact hreset
  · simp [hsame.fault, hf] at hclear
  · simp [hfault] at hclear

/-! ## The interrupt line (R210) -/

theorem irq_iff : irq h = true ↔ h.fault = true ∧ h.fie = true := Bool.and_eq_true_iff

theorem irq_of_fie_clear (hf : h.fie = false) : irq h = false := by
  rw [irq, hf, Bool.and_false]

/-- A host write to CTRL is made in every state, and FIE takes its bit 0 (R29, R62). -/
theorem busAccess_ctrl (s : State) (v : Word) :
    busAccess (.write 0x0014#16 4 v) s =
      .next (respond .done { s with hufb := { s.hufb with fie := v.getLsbD 0 } }) := by
  have hloc : accessLoc 0x0014#16 4 = some (.reg .ctrl) := accessLoc_addr (.reg .ctrl)
  simp [busAccess, isCmdWrite, storeWrite, hloc, writeLoc]

/-- Settles O21: STATUS.IRQ is a view of the line, a write to CTRL stores FIE and nothing else, and no step but a reset
takes FAULT from 1 to 0. -/
theorem interruptLine : Obligations.InterruptLine := by
  unfold Obligations.InterruptLine
  refine ⟨fun h => ⟨irq_iff, ?_⟩, fun s v hv => ⟨_, busAccess_ctrl s v, irq_of_fie_clear hv, rfl⟩,
    fun s t => step_clears_fault⟩
  obtain ⟨-, -, -, -, -, -, -, hirq⟩ := statusWord_flags h
  exact hirq

end Sys2Proof.Machine
end

section
/-! PROOFS. The reset input (O8). -/

namespace Sys2Proof.Machine

/-- The agent of the next turn acts on the state whose turn has passed (R20). -/
theorem step_of_turn {s : State} {turn : Turn} {ts : List Turn} (ht : s.env.turns = turn :: ts) :
    step s = agentTurn turn { s with env := { s.env with turns := ts } } := by
  rw [step, ht]

/-- Settles O8: the turn of the reset input is `resetBlock`, which asks nothing of the block and leaves the run's data
alone. -/
theorem resetInputLeavesTheResetState : Obligations.ResetInputLeavesTheResetState := by
  unfold Obligations.ResetInputLeavesTheResetState
  intro s ts ht
  calc step s = agentTurn .reset { s with env := { s.env with turns := ts } } := step_of_turn ht
    _ = .next (resetBlock { s with env := { s.env with turns := ts } }) := rfl
    _ = .next { hufb := Hufb.reset, env := { s.env with turns := ts } } := rfl

end Sys2Proof.Machine
end
